-- ==== Sys2Proof/Word.lean ====
section
/-! DEFINITION. The word types of MTCORE (spec/00_scope.md R11, R12; spec/20_memory.md R55).

Every state word, raw word and data port is an unsigned 64-bit value, and `BitVec 64`'s own
arithmetic is the spec's: `+`, `-`, `*` modulo 2^64, `>>>` a logical right shift that fills with
zeros, `<<<` a left shift that drops the bits shifted past bit 63, `^^^`, `&&&`, `|||`, `~~~`
bitwise (R12).  Bit 0 is the least significant bit (R11). -/

namespace Sys2Proof

/-- A 64-bit word: a state word, a raw word, an argument word, a beat's data (R12, R55). -/
abbrev Word := BitVec 64

/-- A 32-bit word: the command word of a command (R70), a binary32 pattern or a signed 32-bit
operand (R72). -/
abbrev Word32 := BitVec 32

end Sys2Proof
end

