-- ==== Sys2Proof/Config.lean ====
section
/-! DEFINITION. The implementation parameters of MTCORE (spec/00_scope.md R8 to R10, R26, R27).

"A model takes each parameter as a configuration field with this value as the default. No
parameter changes after reset." (R8.)  `State` carries one `Config`, read only: no step writes it.
The constant at the end has no value: the spec states none. -/

namespace Sys2Proof

/-- WRITE_AHEAD (R8, R124): where the advance writes when the cursor is N-1. -/
inductive WriteAhead where
  /-- The extra slot SPILL takes the word; `SV[0]` is not written (the default, C2). -/
  | spill
  /-- `SV[0]` takes the word. -/
  | wrap
deriving DecidableEq, Repr

/-- WINDOW_COMPARE (R8, R150): how a raw word is compared with LB and UB. -/
inductive WindowCompare where
  /-- As unsigned 64-bit integers (the default, D13). -/
  | exact
  /-- After conversion of all three to binary64. -/
  | binary64
deriving DecidableEq, Repr

/-- A byte order of a bus adapter outside MTCORE (R55). -/
inductive ByteOrder where
  | littleEndian
  | bigEndian
deriving DecidableEq, Repr

/-- Whether the signal that asserts reset is sampled with a clock (R231). -/
inductive ResetKind where
  | synchronous
  | asynchronous
deriving DecidableEq, Repr

/-- RESET_SIGNAL (R8, R231, D34): "which signal asserts reset and whether it is synchronous". -/
structure ResetSignal where
  /-- Which signal asserts reset. -/
  signal : String
  kind : ResetKind
deriving DecidableEq, Repr

/-- The parameters of R8, in the table's order.  The field defaults are the table's values, so
`{}` is the hardware this spec describes (`Config.default`). -/
structure Config where
  /-- XLEN: width of every state word, raw word and data port. -/
  xlen : Nat := 64
  /-- W: the recurrence's configured word width (C1, D2). -/
  w : Nat := 64
  /-- N: number of state words. -/
  n : Nat := 624
  /-- M: middle-word offset. -/
  m : Nat := 397
  /-- R: lower-mask width (D4). -/
  r : Nat := 31
  /-- A: twist constant (D5). -/
  a : Word := 0xB5026F5AA96619E9#64
  /-- U: tempering shift of stage 1 (D6). -/
  u : Nat := 29
  /-- D: tempering mask of stage 1 (D6). -/
  d : Word := 0x5555555555555555#64
  /-- S: tempering shift of stage 2 (D6). -/
  s : Nat := 17
  /-- B: tempering mask of stage 2 (D6). -/
  b : Word := 0x71D67FFFEDA60000#64
  /-- T: tempering shift of stage 3 (D6). -/
  t : Nat := 37
  /-- C: tempering mask of stage 3 (D6). -/
  c : Word := 0xFFF7EEE000000000#64
  /-- L: tempering shift of stage 4 (D6). -/
  l : Nat := 43
  /-- F: seeding multiplier (D7). -/
  f : Word := 0x5851F42D4C957F2D#64
  /-- LB: acceptance window lower bound, 10^18. -/
  lb : Word := 0x0DE0B6B3A7640000#64
  /-- UB: acceptance window upper bound, 10^19. -/
  ub : Word := 0x8AC7230489E80000#64
  /-- DEFAULT_SEED: seed of reset and SEEDDEF, 19650218 (D8). -/
  defaultSeed : Word := 0x00000000012BD6AA#64
  /-- WRITE_AHEAD (D9, C2). -/
  writeAhead : WriteAhead := .spill
  /-- WINDOW_COMPARE (D13). -/
  windowCompare : WindowCompare := .exact
  /-- RETRY_CAP (D14): `none` is INF; a finite cap is compared with the 64-bit counter REJ (R155). -/
  retryCap : Option Word := none
  /-- RSP_DEPTH (D20): capacity of the response queue, in beats. -/
  rspDepth : Nat := 1
  /-- NAN_RESULT of RDBL (D18, C9). -/
  nan64 : Word := 0x7FF8000000000000#64
  /-- NAN_RESULT of RFLT (D18, C9). -/
  nan32 : Word32 := 0x7FC00000#32
  /-- HOST_BYTE_ORDER (R55, D26): "OPEN: no default".  `none` leaves it open (log entry 8); it
  matters only outside MTCORE, so no definition reads it. -/
  hostByteOrder : Option ByteOrder := none
  /-- RESET_SIGNAL (R231, D34): "OPEN: no default".  `none` leaves it open (log entry 8); it is
  outside the spec how reset is asserted, so no definition reads it. -/
  resetSignal : Option ResetSignal := none
deriving DecidableEq, Repr

/-- The configuration of the hardware this spec describes: every parameter at its R8 value. -/
def Config.default : Config := {}

/-- LMASK, the low R bits: derived, `(1 << R) - 1` (R8). -/
def Config.lmask (cfg : Config) : Word := (1#64 <<< cfg.r) - 1#64

/-- UMASK, the upper W-R bits: derived, `~LMASK` in 64 bits (R8). -/
def Config.umask (cfg : Config) : Word := ~~~ cfg.lmask

/-- Free value: what `trunc_i64` (R15) gives for a NaN, an infinity or an integer part outside the
signed 64-bit range, from the operand's pattern.  R15 states no value there, and no command reaches
it from an accepted word: "RINT has no NaN or infinity" (R176), "No overflow is possible" (R174). -/
opaque Config.truncUnstated : Word → Word

end Sys2Proof
end

