-- ==== Sys2Proof/Syntax.lean ====
section
/-! DEFINITION. Commands as MTCORE receives them and the seven instructions they encode
(spec/30_encoding.md R70 to R73; spec/opcode_table.json). -/

namespace Sys2Proof

/-- A command as the channel carries it: the pair (command word, argument word), transferred in one
handshake (R51, R70). -/
structure Command where
  /-- The 32-bit command word in format CMD32: RSVD in bits 31:8, OP in bits 7:0. -/
  cw : Word32
  /-- The 64-bit argument word ARG, always present (R71). -/
  arg : Word
deriving DecidableEq, Repr

/-- Field RSVD of a command word, bits 31:8 (R70). -/
def Command.rsvd (c : Command) : BitVec 24 := c.cw.extractLsb' 8 24

/-- Field OP of a command word, bits 7:0 (R70). -/
def Command.op (c : Command) : BitVec 8 := c.cw.extractLsb' 0 8

/-- The instructions of spec/opcode_table.json, one constructor a row.  An operand is the part of
ARG the instruction reads (R72); the parts of ARG it ignores (R71) are not kept. -/
inductive Instr where
  /-- SEED, OP 0x01 (R102): `seed = ARG[63:0]`. -/
  | seed (seed : Word)
  /-- SEEDDEF, OP 0x02 (R103): ARG is ignored. -/
  | seeddef
  /-- NEXT, OP 0x03 (R130): ARG is ignored. -/
  | next
  /-- DRAW, OP 0x04 (R152): `count = ARG[63:0]`. -/
  | draw (count : Word)
  /-- RDBL, OP 0x05 (R172): `range = ARG[63:0]`, a binary64 pattern. -/
  | rdbl (range : Word)
  /-- RFLT, OP 0x06 (R173): `range = ARG[31:0]`, a binary32 pattern; ARG[63:32] is ignored. -/
  | rflt (range : Word32)
  /-- RINT, OP 0x07 (R174): `range = ARG[31:0]`, signed 32-bit; ARG[63:32] is ignored. -/
  | rint (range : Word32)
deriving DecidableEq, Repr

/-- An operand literal of RDBL or RFLT in the assembler syntax (R86). -/
inductive FloatLit where
  /-- A decimal floating literal: the value `digits` times `10 ^ exp10`, negated if `neg`. -/
  | dec (neg : Bool) (digits : Nat) (exp10 : Int)
  /-- `bits(0x...)`: an exact pattern. -/
  | bits (pattern : Nat)
  /-- `inf` or `-inf`. -/
  | inf (neg : Bool)
  /-- `nan`. -/
  | nan
deriving DecidableEq, Repr

/-- An operand literal of RINT in the assembler syntax (R86). -/
inductive RintLit where
  /-- A signed decimal integer. -/
  | dec (i : Int)
  /-- A `0x` hexadecimal of at most 32 bits. -/
  | hex (pattern : Nat)
deriving DecidableEq, Repr

/-- One line of a command stream (R85): a command, a pseudo-command (R87) or the `.word` directive.
Integer literals are plain numbers here; `AsmLine.wf` checks their ranges (R86). -/
inductive AsmLine where
  | seed (v : Nat)
  | seeddef
  | next
  | draw (v : Nat)
  | rdbl (range : FloatLit)
  | rflt (range : FloatLit)
  | rint (range : RintLit)
  /-- `CONSTRUCT` without a seed (R87). -/
  | construct
  /-- `CONSTRUCT s` (R87). -/
  | constructWith (v : Nat)
  /-- `SEEDTIME` (R87): `v` is the seed the host computed from its own clock. -/
  | seedTime (v : Nat)
  | nextWord
  | drawAcceptedWords (v : Nat)
  | randomDouble (range : FloatLit)
  | randomFloat (range : FloatLit)
  | randomInt (range : RintLit)
  /-- `.word cw : arg` (R85): the pair unchanged, so an illegal command can be written down. -/
  | word (cw arg : Nat)
deriving DecidableEq, Repr

end Sys2Proof
end

