-- ==== Sys2Proof/WellFormed.lean ====
section
/-! DEFINITION. What is well formed: a configuration (spec/00_scope.md R9), a command
(spec/30_encoding.md R74, R75), an instruction (R72) and a line of assembler text (R86). -/

namespace Sys2Proof

/-- `1 <= M < N` (R9). -/
def Config.okSizes (cfg : Config) : Bool := decide (1 ≤ cfg.m) && decide (cfg.m < cfg.n)

/-- `0 < R < W` (R9). -/
def Config.okLowerMask (cfg : Config) : Bool := decide (0 < cfg.r) && decide (cfg.r < cfg.w)

/-- `W = XLEN = 64` (R9). -/
def Config.okWidth (cfg : Config) : Bool := decide (cfg.w = cfg.xlen) && decide (cfg.xlen = 64)

/-- A shift amount of the tempering transform is in 1..63 (R9). -/
def okShift (k : Nat) : Bool := decide (1 ≤ k) && decide (k ≤ 63)

/-- "every shift amount U, S, T, L is in 1..63" (R9). -/
def Config.okShifts (cfg : Config) : Bool :=
  okShift cfg.u && okShift cfg.s && okShift cfg.t && okShift cfg.l

/-- `LB <= UB`, as unsigned values (R9). -/
def Config.okWindow (cfg : Config) : Bool := decide (cfg.lb.toNat ≤ cfg.ub.toNat)

/-- RSP_DEPTH is "at least 1" (R8). -/
def Config.okDepth (cfg : Config) : Bool := decide (1 ≤ cfg.rspDepth)

/-- A finite RETRY_CAP is "a finite number n >= 1" (R155). -/
def Config.okCap (cfg : Config) : Bool := decide (cfg.retryCap ≠ some 0#64)

/-- The constraints a configuration must satisfy: R9's, and the ranges R8 and R155 give RSP_DEPTH
and RETRY_CAP.  "A configuration that breaks a constraint has no meaning in this spec, and a model
refuses it" (R9).  `UMASK = ~LMASK` holds by definition (`Config.umask`). -/
def Config.wf (cfg : Config) : Bool :=
  cfg.okSizes && cfg.okLowerMask && cfg.okWidth && cfg.okShifts && cfg.okWindow && cfg.okDepth &&
    cfg.okCap

/-- The opcode is one of the seven of R73: 0x01 to 0x07. -/
def Command.okOp (c : Command) : Bool := decide (1 ≤ c.op.toNat) && decide (c.op.toNat ≤ 7)

/-- `legal` of R74: RSVD is zero and the opcode is one of the seven. -/
def Command.wf (c : Command) : Bool := decide (c.rsvd = 0#24) && c.okOp

/-- Every instruction is well formed: each operand is as wide as its field, and R72 makes every
pattern of it legal ("Count 0 is legal", "Every pattern is legal", "Every value is legal"). -/
def Instr.wf (_ : Instr) : Bool := true

/-- An unsigned operand literal is "less than 2^64" (R86). -/
def okU64 (v : Nat) : Bool := decide (v < 2 ^ 64)

/-- `bits(0x...)` holds a pattern of the operand's width (R86). -/
def FloatLit.okBits (width : Nat) : FloatLit → Bool
  | .bits p => decide (p < 2 ^ width)
  | .dec _ _ _ | .inf _ | .nan => true

/-- A RINT literal: "a signed decimal integer in -2^31..2^31-1, or a `0x` hexadecimal of at most 32
bits" (R86). -/
def RintLit.wf : RintLit → Bool
  | .dec i => decide (-2 ^ 31 ≤ i) && decide (i ≤ 2 ^ 31 - 1)
  | .hex p => decide (p < 2 ^ 32)

/-- The literals of the line are in range; "A literal out of range is an assembly error, not a
command" (R86).  Whether a decimal floating literal overflows its format is found when it is
converted (`Machine/HostTools.lean`). -/
def AsmLine.wf : AsmLine → Bool
  | .seed v | .draw v | .constructWith v | .seedTime v | .drawAcceptedWords v => okU64 v
  | .rdbl l | .randomDouble l => l.okBits 64
  | .rflt l | .randomFloat l => l.okBits 32
  | .rint l | .randomInt l => l.wf
  | .word cw arg => decide (cw < 2 ^ 32) && okU64 arg
  | .seeddef | .next | .construct | .nextWord => true

end Sys2Proof
end

