-- ==== Sys2Proof/Decode.lean ====
section
/-! DEFINITION. The decoder of command words and, after it, the encoder
(spec/30_encoding.md R70 to R75). -/

namespace Sys2Proof

/-- Why a command is illegal (R75). -/
inductive Reject where
  /-- A bit of RSVD is set: "illegal, whatever its opcode". -/
  | reservedBits
  /-- Opcode 0x00 or 0x08 to 0xFF: reserved. -/
  | reservedOpcode
deriving DecidableEq, Repr

/-- The instruction of an opcode with its operand taken from ARG (R72, R73); `none` for a reserved
opcode (R75). -/
def decodeOp (op : BitVec 8) (arg : Word) : Option Instr :=
  match op.toNat with
  | 0x01 => some (.seed arg)
  | 0x02 => some .seeddef
  | 0x03 => some .next
  | 0x04 => some (.draw arg)
  | 0x05 => some (.rdbl arg)
  | 0x06 => some (.rflt (arg.extractLsb' 0 32))
  | 0x07 => some (.rint (arg.extractLsb' 0 32))
  | _ => none

/-- The decoder (R74), total: every command is one of the seven instructions or is rejected. -/
def decode (c : Command) : Except Reject Instr :=
  if c.rsvd = 0#24 then
    match decodeOp c.op c.arg with
    | some i => .ok i
    | none => .error .reservedOpcode
  else .error .reservedBits

/-- The command a row's bits stand for: bits 31:0 of `w` are the command word, the bits from 32 on
the argument word, and every bit from `nbits` on is zero (R70: the command word comes first). -/
def tableCommand (nbits w : Nat) : Command :=
  let bits := w % 2 ^ nbits
  { cw := BitVec.ofNat 32 bits, arg := BitVec.ofNat 64 (bits >>> 32) }

/-- The instruction the decoder reads from the bits `w` of an opcode-table row. -/
def decodeTableWord (nbits w : Nat) : Option Instr :=
  match decode (tableCommand nbits w) with
  | .ok i => some i
  | .error _ => none

/-- The opcode of an instruction (R73). -/
def Instr.opcode : Instr → BitVec 8
  | .seed _ => 0x01#8
  | .seeddef => 0x02#8
  | .next => 0x03#8
  | .draw _ => 0x04#8
  | .rdbl _ => 0x05#8
  | .rflt _ => 0x06#8
  | .rint _ => 0x07#8

/-- The argument word that carries an instruction's operand; the ignored bits are zero
(R72, R85, R86). -/
def Instr.argWord : Instr → Word
  | .seed v => v
  | .seeddef => 0#64
  | .next => 0#64
  | .draw v => v
  | .rdbl v => v
  | .rflt v => v.setWidth 64
  | .rint v => v.setWidth 64

/-- The encoder: the command word is `zext_32(OP)` (R73). -/
def encode (i : Instr) : Command :=
  { cw := i.opcode.setWidth 32, arg := i.argWord }

/-- The part of ARG an opcode reads, the bits it ignores set to zero (R71, R72). -/
def Command.readArg (c : Command) : Word :=
  match c.op.toNat with
  | 0x02 | 0x03 => 0#64
  | 0x06 | 0x07 => (c.arg.extractLsb' 0 32).setWidth 64
  | _ => c.arg

/-- The command with every ignored bit of ARG zero. -/
def Command.canonical (c : Command) : Command := { c with arg := c.readArg }

end Sys2Proof
end

