-- ==== Sys2Proof/Machine/Datapath.lean ====
section
/-! DEFINITION. The datapath of MTCORE as functions of words, before any state: the seeding chain
(spec/40_seeding.md R100, R101), the recurrence unit (spec/41_advance.md R121, R122), the tempering
pipeline (R126) and index arithmetic (spec/00_scope.md R13). -/

namespace Sys2Proof.Machine

/-- `(e) mod N` (R13): the value in 0..N-1 congruent to `e`, also when `e` is negative. -/
def modN (e : Int) (n : Nat) : Nat := (e % (n : Int)).toNat

/-- SEEDMUL(v), the seeding multiplier: the low 64 bits of F * v (R101). -/
def seedMul (cfg : Config) (v : Word) : Word := cfg.f * v

/-- One step of the seeding chain (R100): `SV[i]` from `p = SV[i-1]`. -/
def seedNext (cfg : Config) (p : Word) (i : Nat) : Word :=
  seedMul cfg (p ^^^ (p >>> (cfg.w - 2))) + BitVec.ofNat 64 i

/-- The next `count` words of the seeding chain after `p`, the first of them at index `i` (R100). -/
def seedChain (cfg : Config) (p : Word) : Nat → Nat → List Word
  | 0, _ => []
  | count + 1, i => seedNext cfg p i :: seedChain cfg (seedNext cfg p i) count (i + 1)

/-- The N words SEEDING(s) writes to SV, `SV[0]` first (R100). -/
def seedWords (cfg : Config) (s : Word) : List Word := s :: seedChain cfg s (cfg.n - 1) 1

/-- The mixing word x of `SV[k]` and `SV[j]` (R121). -/
def mixWord (cfg : Config) (svk svj : Word) : Word := (svk &&& cfg.umask) ||| (svj &&& cfg.lmask)

/-- The twisted word xA of the mixing word (R122). -/
def twist (cfg : Config) (x : Word) : Word :=
  if x.getLsbD 0 then (x >>> 1) ^^^ cfg.a else x >>> 1

/-- Stage 1 of TEMPER: a right shift by U under mask D (R126). -/
def temper1 (cfg : Config) (y : Word) : Word := y ^^^ ((y >>> cfg.u) &&& cfg.d)

/-- Stage 2 of TEMPER: a left shift by S under mask B (R126). -/
def temper2 (cfg : Config) (y : Word) : Word := y ^^^ ((y <<< cfg.s) &&& cfg.b)

/-- Stage 3 of TEMPER: a left shift by T under mask C (R126). -/
def temper3 (cfg : Config) (y : Word) : Word := y ^^^ ((y <<< cfg.t) &&& cfg.c)

/-- Stage 4 of TEMPER: a right shift by L, no mask (R126). -/
def temper4 (cfg : Config) (y : Word) : Word := y ^^^ (y >>> cfg.l)

/-- TEMPER(x), the tempering transform of the mixing word (R126). -/
def temper (cfg : Config) (x : Word) : Word :=
  temper4 cfg (temper3 cfg (temper2 cfg (temper1 cfg x)))

end Sys2Proof.Machine
end

