-- ==== Sys2Proof/Machine/State.lean ====
section
/-! DEFINITION. The state of MTCORE (spec/10_state.md R20 to R36), the reasons a step can stop, and
the state after reset (R36). -/

namespace Sys2Proof.Machine

/-- SEQ, the sequencer state (R28). -/
inductive Seq where
  /-- MTCORE is seeding itself with DEFAULT_SEED after reset. -/
  | resetting
  /-- MTCORE waits for a command. -/
  | idle
  /-- MTCORE is running the command held in CUR. -/
  | exec
deriving DecidableEq, Repr

/-- The status field of a response beat (R80); its 2-bit code is `Status.code`. -/
inductive Status where
  | data
  | done
  | illegal
  | unsat
deriving DecidableEq, Repr

/-- A response beat (R30, R80). -/
structure Beat where
  status : Status
  data : Word
  last : Bool
deriving DecidableEq, Repr

/-- What moves next at the interface: the model's own schedule (log entry 3).  Each is one atomic
step (R53). -/
inductive Turn where
  /-- MTCORE takes its next step. -/
  | core
  /-- A host presents a command on the command channel (R51). -/
  | present (c : Command)
  /-- The host takes the beat at the head of RSPQ (R30, R53 step 8). -/
  | take
  /-- Reset is asserted (R231). -/
  | reset
deriving DecidableEq, Repr

/-- Why the machine stops with a fault. -/
inductive Fault where
  /-- Raised by a read or write of SV at an index that is not an entry of it.  "An index outside
  0..N-1 never reaches it" (R22): raised only in states that break the invariant
  `Sys2Proof.Machine.Inv`, which no run from reset reaches.  Safe: the model stops. -/
  | svIndexOutOfRange
deriving DecidableEq, Repr

/-- Why a step has no meaning. -/
inductive Refusal where
  /-- Raised by an arm of `exec` for an instruction without a meaning yet (none is left).  Safe: the
  model stops. -/
  | notModelled (mnemonic : String)
  /-- Raised by `step` in a state whose configuration breaks a constraint: "A configuration that
  breaks a constraint has no meaning in this spec, and a model refuses it" (R9).  Safe: the model
  stops. -/
  | invalidConfig
deriving DecidableEq, Repr

/-- The state.  The fields up to `rspq` are MTCORE's own; `chan`, `turns` and `taken` are the host's
side of the two channels, which the model needs to say what happens at them (log entries 3, 4). -/
structure State where
  /-- The hardwired constants, window registers and policy parameters (R26, R27): read only. -/
  cfg : Config
  /-- SV, the state vector register file (R20): `SV[0]` first. -/
  sv : List Word
  /-- IDX, the index cursor (R24). -/
  idx : Nat
  /-- SPILL, the extra slot (R23); it exists only under WRITE_AHEAD = SPILL and no rule reads it. -/
  spill : Word
  /-- SEQ, the sequencer state (R28). -/
  seq : Seq
  /-- CUR, the command word and argument word of the running command (R28). -/
  cur : Command
  /-- The running command has taken its start step and is in its attempt steps (R53 steps 6, 7; R74
  "first step"); meaningful only in `exec` (log entry 2). -/
  attempting : Bool
  /-- REM, the accepted words the running draw still has to deliver (R29). -/
  rem : Word
  /-- DELIVERED, the accepted words it has delivered (R29). -/
  delivered : Word
  /-- REJ, the raw words rejected since the last accepted word (R29). -/
  rej : Word
  /-- RSPQ, the response queue (R30), its head first. -/
  rspq : List Beat
  /-- The commands hosts have presented and MTCORE has not accepted, oldest first; the head is the
  one on the command channel (R51, R63). -/
  chan : List Command
  /-- The turns to come, next first; when none is left, every turn is MTCORE's. -/
  turns : List Turn
  /-- The beats the host has taken, oldest first. -/
  taken : List Beat
deriving DecidableEq, Repr

/-- The state after reset (R36) of an MTCORE with configuration `cfg`, with no command presented and
no beat taken.  R36 gives SPILL, CUR, REM, DELIVERED and REJ no value; the model holds zero there
(DESIGN CHOICE, log entry 1). -/
def State.resetOf (cfg : Config) : State where
  cfg := cfg
  sv := seedWords cfg cfg.defaultSeed
  idx := 0
  spill := 0#64
  seq := .idle
  cur := { cw := 0#32, arg := 0#64 }
  attempting := false
  rem := 0#64
  delivered := 0#64
  rej := 0#64
  rspq := []
  chan := []
  turns := []
  taken := []

/-- The machine right after reset, with every parameter at its R8 value. -/
def State.reset : State := State.resetOf Config.default

end Sys2Proof.Machine
end

