-- ==== Sys2Proof/Machine/Flags.lean ====
section
/-! DEFINITION. What MTCORE reports of its status.  It has no condition codes, no flags and no
floating-point exception flags; "The `status` field of each response beat and BUSY are the only
status it reports" (spec/10_state.md R34). -/

namespace Sys2Proof.Machine

/-- The 2-bit code of a beat's status (R80). -/
def Status.code : Status → BitVec 2
  | .data => 0b00#2
  | .done => 0b01#2
  | .illegal => 0b10#2
  | .unsat => 0b11#2

/-- BUSY (R32): 1 while SEQ is `RESETTING` or `EXEC`, 0 while SEQ is `IDLE`. -/
def State.busy (s : State) : Bool :=
  match s.seq with
  | .resetting => true
  | .exec => true
  | .idle => false

/-- RSPQ has a free entry (R31, R153). -/
def State.hasRoom (s : State) : Bool := decide (s.rspq.length < s.cfg.rspDepth)

end Sys2Proof.Machine
end

