-- ==== Sys2Proof/Machine/Float.lean ====
section
/-! DEFINITION. The floating-point primitives of spec/00_scope.md R15: the IEEE 754 binary64 and
binary32 formats, round to nearest, ties to even, with gradual underflow and no flags
(spec/43_normalize.md R176 to R178).

A finite value is an exact count of the least positive binary64 subnormal, 2^-1074: every finite
binary64 value is a whole number of them, and so is every binary32 value.  Each operation computes
its exact result as a ratio of two natural numbers and rounds it once. -/

namespace Sys2Proof.Machine

/-- A binary interchange format of IEEE 754: the widths of the fraction and exponent fields. -/
structure FpFormat where
  fracBits : Nat
  expBits : Nat
deriving DecidableEq, Repr

/-- IEEE 754 binary64. -/
def binary64 : FpFormat := { fracBits := 52, expBits := 11 }

/-- IEEE 754 binary32. -/
def binary32 : FpFormat := { fracBits := 23, expBits := 8 }

/-- The least positive subnormal of the format is 2 to the minus this. -/
def FpFormat.unitExp (fmt : FpFormat) : Nat := 2 ^ (fmt.expBits - 1) - 2 + fmt.fracBits

/-- How many units of 2^-1074 the least positive subnormal of the format is. -/
def FpFormat.scale (fmt : FpFormat) : Nat := 2 ^ (1074 - fmt.unitExp)

/-- The largest biased exponent, which infinities and NaNs carry. -/
def FpFormat.maxExp (fmt : FpFormat) : Nat := 2 ^ fmt.expBits - 1

/-- A floating-point value.  Every NaN is one value here: no result keeps a payload (R176). -/
inductive FVal where
  | nan
  | inf (neg : Bool)
  /-- `mag` units of 2^-1074, negative if `neg`; a zero keeps its sign. -/
  | fin (neg : Bool) (mag : Nat)
deriving DecidableEq, Repr

/-- 1.0 in units of 2^-1074. -/
@[irreducible] def fpOne : Nat := 2 ^ 1074

/-- `num / den` rounded to the nearest integer, a tie to the even one. -/
def roundDiv (num den : Nat) : Nat :=
  let q := num / den
  let rest := num % den
  if 2 * rest < den then q
  else if den < 2 * rest then q + 1
  else q + q % 2

/-- The binade of the magnitude `num / den`, in units of the format's least subnormal: the exponent
of the spacing of representable values there, 0 for the subnormals and the first normal binade. -/
def FpFormat.binade (fmt : FpFormat) (num den : Nat) : Nat := Nat.log2 (num / den) - fmt.fracBits

/-- `num / den` units of 2^-1074, with a sign, rounded to the format: to nearest, ties to even, to
infinity when the rounded magnitude is past the largest finite value. -/
def FpFormat.round (fmt : FpFormat) (neg : Bool) (num den : Nat) : FVal :=
  let den' := den * fmt.scale
  let k := fmt.binade num den'
  let m := roundDiv num (den' * 2 ^ k)
  if k * 2 ^ fmt.fracBits + m < fmt.maxExp * 2 ^ fmt.fracBits then .fin neg (m * 2 ^ k * fmt.scale)
  else .inf neg

/-- The value of a bit pattern: sign, biased exponent, fraction, from the top. -/
def FpFormat.unpack (fmt : FpFormat) (pattern : Nat) : FVal :=
  let frac := pattern % 2 ^ fmt.fracBits
  let exp := pattern / 2 ^ fmt.fracBits % 2 ^ fmt.expBits
  let neg := decide (pattern / 2 ^ (fmt.fracBits + fmt.expBits) % 2 = 1)
  if exp = fmt.maxExp then
    if frac = 0 then .inf neg else .nan
  else if exp = 0 then .fin neg (frac * fmt.scale)
  else .fin neg ((2 ^ fmt.fracBits + frac) * 2 ^ (exp - 1) * fmt.scale)

/-- The sign bit of a pattern. -/
def FpFormat.signBit (fmt : FpFormat) (neg : Bool) : Nat :=
  if neg then 2 ^ (fmt.fracBits + fmt.expBits) else 0

/-- The bit pattern of a value of the format; `nanPattern` for a NaN. -/
def FpFormat.pack (fmt : FpFormat) (nanPattern : Nat) : FVal → Nat
  | .nan => nanPattern
  | .inf neg => fmt.signBit neg + fmt.maxExp * 2 ^ fmt.fracBits
  | .fin neg mag =>
    let units := mag / fmt.scale
    let k := Nat.log2 units - fmt.fracBits
    fmt.signBit neg + k * 2 ^ fmt.fracBits + units / 2 ^ k

/-- The value of a binary64 pattern. -/
def ofBits64 (v : Word) : FVal := binary64.unpack v.toNat

/-- The value of a binary32 pattern, which is also `f64(x32)` (R15): the widening is exact. -/
def ofBits32 (v : Word32) : FVal := binary32.unpack v.toNat

/-- `bits64(x)`, a NaN giving the pattern `nan64` (R172). -/
def FVal.bits64 (nan64 : Word) (x : FVal) : Word := BitVec.ofNat 64 (binary64.pack nan64.toNat x)

/-- `bits32(x)`, a NaN giving the pattern `nan32` (R173). -/
def FVal.bits32 (nan32 : Word32) (x : FVal) : Word32 :=
  BitVec.ofNat 32 (binary32.pack nan32.toNat x)

/-- The exact signed count of units of a finite value. -/
def signedMag (neg : Bool) (mag : Nat) : Int := if neg then -(mag : Int) else (mag : Int)

/-- `f64(n)` of a signed or unsigned integer (R15). -/
def f64OfInt (i : Int) : FVal := binary64.round (decide (i < 0)) (i.natAbs * fpOne) 1

/-- `f64(v)` of an unsigned 64-bit word (R15). -/
def f64OfWord (v : Word) : FVal := f64OfInt v.toNat

/-- `f32(x)`: narrowing to binary32 (R15). -/
def FVal.narrow32 : FVal → FVal
  | .nan => .nan
  | .inf neg => .inf neg
  | .fin neg mag => binary32.round neg mag 1

/-- `x *. y` in binary64 (R15). -/
def FVal.mul : FVal → FVal → FVal
  | .nan, _ => .nan
  | _, .nan => .nan
  | .inf p, .inf q => .inf (p ^^ q)
  | .inf p, .fin q mag => if mag = 0 then .nan else .inf (p ^^ q)
  | .fin p mag, .inf q => if mag = 0 then .nan else .inf (p ^^ q)
  | .fin p x, .fin q y => binary64.round (p ^^ q) (x * y) fpOne

/-- `x /. y` in binary64 (R15). -/
def FVal.div : FVal → FVal → FVal
  | .nan, _ => .nan
  | _, .nan => .nan
  | .inf _, .inf _ => .nan
  | .inf p, .fin q _ => .inf (p ^^ q)
  | .fin p _, .inf q => .fin (p ^^ q) 0
  | .fin p x, .fin q y =>
    if y = 0 then
      if x = 0 then .nan else .inf (p ^^ q)
    else binary64.round (p ^^ q) (x * fpOne) y

/-- `x +. y` in binary64 (R174).  An exact zero sum is +0 unless both operands are negative. -/
def FVal.add : FVal → FVal → FVal
  | .nan, _ => .nan
  | _, .nan => .nan
  | .inf p, .inf q => if p = q then .inf p else .nan
  | .inf p, .fin _ _ => .inf p
  | .fin _ _, .inf q => .inf q
  | .fin p x, .fin q y =>
    let sum := signedMag p x + signedMag q y
    if sum = 0 then .fin (p && q) 0 else binary64.round (decide (sum < 0)) sum.natAbs 1

/-- Negation: the sign bit flipped. -/
def FVal.neg : FVal → FVal
  | .nan => .nan
  | .inf p => .inf (!p)
  | .fin p x => .fin (!p) x

/-- The binary64 subtraction of R170's BINARY64 case. -/
def FVal.sub (x y : FVal) : FVal := x.add y.neg

/-- The binary64 comparison `x <= y` of R150's BINARY64 case; false when either is a NaN. -/
def FVal.le : FVal → FVal → Bool
  | .nan, _ => false
  | _, .nan => false
  | .inf p, .inf q => p || !q
  | .inf p, .fin _ _ => p
  | .fin _ _, .inf q => !q
  | .fin p x, .fin q y => decide (signedMag p x ≤ signedMag q y)

/-- The value is a zero of either sign. -/
def FVal.isZero : FVal → Bool
  | .fin _ mag => decide (mag = 0)
  | .nan => false
  | .inf _ => false

/-- The integer part of a finite value, rounded toward zero. -/
def FVal.integerPart? : FVal → Option Int
  | .fin neg mag => some (signedMag neg (mag / fpOne))
  | .nan => none
  | .inf _ => none

/-- An integer is in the signed 64-bit range. -/
def fitsI64 (i : Int) : Bool := decide (-2 ^ 63 ≤ i) && decide (i < 2 ^ 63)

/-- `trunc_i64(x)` (R15), as a 64-bit two's-complement word.  Where R15 states no value (a NaN, an
infinity, an integer part outside the signed 64-bit range) the result is the free value
`Config.truncUnstated`. -/
def FVal.truncI64 (x : FVal) : Word :=
  match x.integerPart? with
  | some i => if fitsI64 i then BitVec.ofInt 64 i else Config.truncUnstated (x.bits64 0x7FF8000000000000#64)
  | none => Config.truncUnstated (x.bits64 0x7FF8000000000000#64)

end Sys2Proof.Machine
end

