-- ==== Sys2Proof/Machine/Operands.lean ====
section
/-! DEFINITION. How an operand's bits are read (spec/30_encoding.md R72) and how a result becomes a
beat's data (R81).  No operand is scaled or shifted. -/

namespace Sys2Proof.Machine

/-- RDBL's range: the binary64 value of the pattern ARG[63:0] (R72). -/
def rangeDouble (range : Word) : FVal := ofBits64 range

/-- RFLT's range widened to binary64, `f64(range)`: the binary32 value of the pattern ARG[31:0]
(R72, R173). -/
def rangeFloat (range : Word32) : FVal := ofBits32 range

/-- RINT's range: `sext_64(ARG[31:0])` (R72). -/
def rangeInt (range : Word32) : Word := range.signExtend 64

/-- `zext_64` of a command word or of a binary32 pattern (R14, R80, R81). -/
def zext64 (v : Word32) : Word := v.setWidth 64

end Sys2Proof.Machine
end

