-- ==== Sys2Proof/Machine/Ops.lean ====
section
/-! DEFINITION. The shared operations of the machine: SV accesses, SEEDING, ADVANCE, ACCEPT, the
response queue, the two error operations and the steps common to the draw commands. -/

namespace Sys2Proof.Machine

/-! ### The state vector and the index cursor -/

/-- `SV[i]` (R14, R20).  The index space is 0..N-1 (R50). -/
def State.readSV (s : State) (i : Nat) : Except Fault Word :=
  match s.sv[i]? with
  | some v => .ok v
  | none => .error .svIndexOutOfRange

/-- `SV[i] <- v` (R14, R20). -/
def State.writeSV (s : State) (i : Nat) (v : Word) : Except Fault State :=
  if i < s.sv.length then .ok { s with sv := s.sv.set i v } else .error .svIndexOutOfRange

/-- SEEDING(seed) (R100): every entry of SV and IDX; neither SPILL nor RSPQ nor the counters. -/
def State.seeding (s : State) (seed : Word) : State :=
  { s with sv := seedWords s.cfg seed, idx := 0 }

/-- The write-ahead of the new state value (R124): to `SV[k+1]`, or at the last entry to SPILL or
`SV[0]`. -/
def State.writeAhead (s : State) (k : Nat) (v : Word) : Except Fault State :=
  if k + 1 < s.cfg.n then s.writeSV (k + 1) v
  else
    match s.cfg.writeAhead with
    | .spill => .ok { s with spill := v }
    | .wrap => s.writeSV 0 v

/-- The index wrap counter (R125). -/
def State.bumpIdx (s : State) (k : Nat) : State :=
  { s with idx := if k + 1 = s.cfg.n then 0 else k + 1 }

/-- ADVANCE() (R120): the raw word z and the state after it.  The three reads come before the one
write (R127). -/
def State.advance (s : State) : Except Fault (Word × State) := do
  let k := s.idx
  let j := modN ((k : Int) - ((s.cfg.n : Int) - 1)) s.cfg.n
  let svk ← s.readSV k
  let svj ← s.readSV j
  let x := mixWord s.cfg svk svj
  let j2 := modN ((k : Int) - ((s.cfg.n : Int) - (s.cfg.m : Int))) s.cfg.n
  let svj2 ← s.readSV j2
  let v := svj2 ^^^ twist s.cfg x
  let s' ← s.writeAhead k v
  return (temper s.cfg x, s'.bumpIdx k)

/-! ### The acceptance window -/

/-- ACCEPT(z) (R150). -/
def accept (cfg : Config) (z : Word) : Bool :=
  match cfg.windowCompare with
  | .exact => decide (cfg.lb.toNat ≤ z.toNat) && decide (z.toNat ≤ cfg.ub.toNat)
  | .binary64 =>
    (f64OfWord cfg.lb).le (f64OfWord z) && (f64OfWord z).le (f64OfWord cfg.ub)

/-! ### The response queue -/

/-- `emit(status, data, last)` when RSPQ has a free entry (R31): the beat goes to the tail. -/
def State.emit (s : State) (status : Status) (data : Word) (last : Bool) : State :=
  { s with rspq := s.rspq ++ [{ status := status, data := data, last := last }] }

/-- `SEQ <- IDLE`: the running command ends. -/
def State.finish (s : State) : State := { s with seq := .idle }

/-- A step that must emit "while RSPQ is full holds before it changes any state" (R31, R53): nothing
changes, and only the host's taking of a beat lifts the hold. -/
def State.whenRoom (s : State) (act : State → Host.Outcome State Fault Refusal) :
    Host.Outcome State Fault Refusal :=
  if s.hasRoom then act s else .next s

/-! ### Errors: the only exceptions MTCORE has, each a beat that ends the command (R206) -/

/-- `raise ILLEGAL(cw)` (R200): one beat with the command word, and the command ends. -/
def State.raiseIllegal (s : State) : Host.Outcome State Fault Refusal :=
  s.whenRoom fun s => .next (s.emit .illegal (zext64 s.cur.cw) true).finish

/-- `raise UNSAT(DELIVERED)` (R155, R201), in an attempt step, which has a free entry. -/
def State.raiseUnsat (s : State) : State := (s.emit .unsat s.delivered true).finish

/-! ### The steps of the draw commands -/

/-- The start step of a draw of `count` words, `count` not 0 (R152, R153): the counters are set. -/
def State.startDraw (s : State) (count : Word) : State :=
  { s with rem := count, delivered := 0#64, rej := 0#64, attempting := true }

/-- An accepted word (R153, R154): the counters, the beat, and the end at the last word. -/
def State.deliver (s : State) (data : Word) : State :=
  let s := { s with rem := s.rem - 1#64, delivered := s.delivered + 1#64, rej := 0#64 }
  let s' := s.emit .data data (decide (s.rem = 0#64))
  if s.rem = 0#64 then s'.finish else s'

/-- A rejected word (R151, R153, R155): REJ counts it, and at RETRY_CAP the draw stops. -/
def State.reject (s : State) : State :=
  let s := { s with rej := s.rej + 1#64 }
  if s.cfg.retryCap = some s.rej then s.raiseUnsat else s

/-- One attempt step of a running draw command (R153), RESULT being `result`: one ADVANCE and the
window test.  "The step is taken only while RSPQ has at least one free entry." -/
def State.attempt (s : State) (result : Word → Word) : Host.Outcome State Fault Refusal :=
  s.whenRoom fun s =>
    match s.advance with
    | .error f => .fault f
    | .ok (z, s') => .next (if accept s.cfg z then s'.deliver (result z) else s'.reject)

end Sys2Proof.Machine
end

