-- ==== Sys2Proof/Machine/Advance.lean ====
section
/-! DEFINITION. The raw word command NEXT (spec/41_advance.md R130). -/

namespace Sys2Proof.Machine

/-- NEXT (R130): one ADVANCE, its raw word in one DATA beat whatever the window, the command ends;
all in one step (R53). -/
def execNext (s : State) : Host.Outcome State Fault Refusal :=
  s.whenRoom fun s =>
    match s.advance with
    | .error f => .fault f
    | .ok (z, s') => .next (s'.emit .data z true).finish

end Sys2Proof.Machine
end

