-- ==== Sys2Proof/Machine/Draw.lean ====
section
/-! DEFINITION. The bounded draw DRAW (spec/42_draw.md R152 to R156).  A draw runs as a start step
and then attempt steps (R53); each call of the meaning is one of them. -/

namespace Sys2Proof.Machine

/-- DRAW (R152 to R155).  Start step: with count 0 one DONE beat and the end of the command, else
the counters.  Then attempt steps with RESULT(z) = z. -/
def execDraw (count : Word) (s : State) : Host.Outcome State Fault Refusal :=
  if s.attempting then s.attempt fun z => z
  else if count = 0#64 then s.whenRoom fun s => .next (s.emit .done 0#64 true).finish
  else .next (s.startDraw count)

end Sys2Proof.Machine
end

