-- ==== Sys2Proof/Machine/Normalize.lean ====
section
/-! DEFINITION. The output range normalizer and the typed commands RDBL, RFLT and RINT
(spec/43_normalize.md R170 to R179).  Each is a draw command with count 1: a start step, then
attempt steps with its own RESULT. -/

namespace Sys2Proof.Machine

/-- The dividend q of NORMFRAC(z) (R170). -/
def normNum (cfg : Config) (z : Word) : FVal :=
  match cfg.windowCompare with
  | .exact => f64OfWord (z - cfg.lb)
  | .binary64 => (f64OfWord z).sub (f64OfWord cfg.lb)

/-- The divisor den of NORMFRAC (R170). -/
def normDen (cfg : Config) : FVal :=
  match cfg.windowCompare with
  | .exact => f64OfWord (cfg.ub - cfg.lb)
  | .binary64 => (f64OfWord cfg.ub).sub (f64OfWord cfg.lb)

/-- NORMFRAC(z) (R170): the binary64 fraction t; +0.0 when the divisor is zero (R178, C10). -/
def normFrac (cfg : Config) (z : Word) : FVal :=
  if (normDen cfg).isZero then .fin false 0 else (normNum cfg z).div (normDen cfg)

/-- RESULT(z) of RDBL (R172). -/
def resultRdbl (cfg : Config) (range : Word) (z : Word) : Word :=
  ((normFrac cfg z).mul (rangeDouble range)).bits64 cfg.nan64

/-- RESULT(z) of RFLT (R173). -/
def resultRflt (cfg : Config) (range : Word32) (z : Word) : Word :=
  zext64 (((normFrac cfg z).mul (rangeFloat range)).narrow32.bits32 cfg.nan32)

/-- RESULT(z) of RINT (R174). -/
def resultRint (cfg : Config) (range : Word32) (z : Word) : Word :=
  ((normFrac cfg z).mul ((f64OfInt (rangeInt range).toInt).add (.fin false fpOne))).truncI64

/-- RDBL (R172): a draw of one word with the RESULT of `resultRdbl`. -/
def execRdbl (range : Word) (s : State) : Host.Outcome State Fault Refusal :=
  if s.attempting then s.attempt (resultRdbl s.cfg range) else .next (s.startDraw 1#64)

/-- RFLT (R173): a draw of one word with the RESULT of `resultRflt`. -/
def execRflt (range : Word32) (s : State) : Host.Outcome State Fault Refusal :=
  if s.attempting then s.attempt (resultRflt s.cfg range) else .next (s.startDraw 1#64)

/-- RINT (R174): a draw of one word with the RESULT of `resultRint`. -/
def execRint (range : Word32) (s : State) : Host.Outcome State Fault Refusal :=
  if s.attempting then s.attempt (resultRint s.cfg range) else .next (s.startDraw 1#64)

end Sys2Proof.Machine
end

