-- ==== Sys2Proof/Machine/Seeding.lean ====
section
/-! DEFINITION. The seeding commands SEED and SEEDDEF (spec/40_seeding.md R102, R103). -/

namespace Sys2Proof.Machine

/-- SEED (R102): SEEDING(ARG[63:0]), one DONE beat, the command ends; all in one step (R53). -/
def execSeed (seed : Word) (s : State) : Host.Outcome State Fault Refusal :=
  s.whenRoom fun s => .next ((s.seeding seed).emit .done 0#64 true).finish

/-- SEEDDEF (R103): SEEDING(DEFAULT_SEED), one DONE beat, the command ends; all in one step (R53). -/
def execSeeddef (s : State) : Host.Outcome State Fault Refusal :=
  s.whenRoom fun s => .next ((s.seeding s.cfg.defaultSeed).emit .done 0#64 true).finish

end Sys2Proof.Machine
end

