-- ==== Sys2Proof/Machine/Dispatch.lean ====
section
/-! DEFINITION. One arm per instruction of spec/opcode_table.json.  `exec i s` is one atomic step of
the running command `i` (spec/20_memory.md R53): the whole of SEED, SEEDDEF or NEXT, and of a draw
command its start step or one attempt. -/

namespace Sys2Proof.Machine

def exec (i : Instr) (s : State) : Host.Outcome State Fault Refusal :=
  match i with
  | .seed seed => Sys2Proof.Machine.execSeed seed s
  | .seeddef => Sys2Proof.Machine.execSeeddef s
  | .next => Sys2Proof.Machine.execNext s
  | .draw count => Sys2Proof.Machine.execDraw count s
  | .rdbl range => Sys2Proof.Machine.execRdbl range s
  | .rflt range => Sys2Proof.Machine.execRflt range s
  | .rint range => Sys2Proof.Machine.execRint range s

end Sys2Proof.Machine
end

