-- ==== Sys2Proof/Machine/Sequencer.lean ====
section
/-! DEFINITION. The steps of MTCORE that are not an instruction's own (spec/20_memory.md R53):
reset, the acceptance of a command, the rejection of an illegal one, and the host's moves at the two
channels. -/

namespace Sys2Proof.Machine

/-- Reset is asserted (R230, R231): the running command is aborted, every beat in RSPQ is discarded
and SEQ is `RESETTING`.  Commands waiting on the channel stay there. -/
def State.assertReset (s : State) : State := { s with rspq := [], seq := .resetting }

/-- The reset seeding (R230, R53 step 1): SV and IDX from DEFAULT_SEED, SEQ `IDLE`, and every piece
of state at its R36 value; no beat.  The host's side is not MTCORE's to change. -/
def State.resetSeeding (s : State) : State :=
  { State.resetOf s.cfg with chan := s.chan, turns := s.turns, taken := s.taken }

/-- `IDLE`: the command at the head of the channel is accepted, CUR and SEQ in one step (R51); with
none there MTCORE "does nothing and holds all its state" (R214). -/
def State.acceptCommand (s : State) : State :=
  match s.chan with
  | [] => s
  | c :: rest => { s with cur := c, seq := .exec, attempting := false, chan := rest }

/-- `EXEC`: the command in CUR is decoded (R74) and runs, or is rejected as illegal (R200). -/
def State.runCommand (s : State) : Host.Outcome State Fault Refusal :=
  match decode s.cur with
  | .ok i => exec i s
  | .error _ => s.raiseIllegal

/-- One step of MTCORE itself, by the state of its sequencer (R28). -/
def State.coreStep (s : State) : Host.Outcome State Fault Refusal :=
  match s.seq with
  | .resetting => .next s.resetSeeding
  | .idle => .next s.acceptCommand
  | .exec => s.runCommand

/-- A host presents a command (R51): it waits on the channel behind those presented before it. -/
def State.presentCommand (s : State) (c : Command) : State := { s with chan := s.chan ++ [c] }

/-- The host takes the beat at the head of RSPQ, which removes it (R30, R57); with none there
nothing is transferred. -/
def State.takeBeat (s : State) : State :=
  match s.rspq with
  | [] => s
  | b :: rest => { s with rspq := rest, taken := s.taken ++ [b] }

/-- One turn at the interface. -/
def State.playTurn (s : State) : Turn → Host.Outcome State Fault Refusal
  | .core => s.coreStep
  | .present c => .next (s.presentCommand c)
  | .take => .next s.takeBeat
  | .reset => .next s.assertReset

/-- The turn at the head of the schedule; when none is left, the turn is MTCORE's. -/
def State.turn (s : State) : Turn := s.turns.headD .core

/-- The schedule without its head. -/
def State.popTurn (s : State) : State := { s with turns := s.turns.tail }

/-- The turn at the head of the schedule is taken off it and played. -/
def State.playNext (s : State) : Host.Outcome State Fault Refusal := s.popTurn.playTurn s.turn

/-- The state with the command `c` accepted and about to take its first step in MTCORE's turn. -/
def State.withRunning (s : State) (c : Command) : State :=
  { s with
    cur := c, seq := .exec, attempting := false,
    turns := if s.turns = [] then [] else .core :: s.turns }

end Sys2Proof.Machine
end

