-- ==== Sys2Proof/Machine/Step.lean ====
section
/-! DEFINITION. One step of the machine, and how an instruction is placed where the next step runs
it. -/

namespace Sys2Proof.Machine

/-- One step.  A configuration that breaks a constraint is refused (R9); else the next turn of the
schedule is played. -/
def step (s : State) : Host.Outcome State Fault Refusal :=
  if s.cfg.wf then s.playNext else .refused .invalidConfig

/-- The state in which the very next step runs the command whose bits are `w`.  MTCORE fetches
nothing (R61): a command comes to run by being accepted from the channel into CUR with SEQ = `EXEC`
(R51), so that is what is set, with the turn MTCORE's (log entry 5). -/
def State.withFetchWord (s : State) (nbits w : Nat) : State := s.withRunning (tableCommand nbits w)

end Sys2Proof.Machine
end

