-- ==== Sys2Proof/Machine/HostTools.lean ====
section
/-! DEFINITION. The host's tools the spec describes (spec/30_encoding.md R85 to R88): the assembler
syntax, the pseudo-commands and the expansion of the batch helper into commands.  They are outside
MTCORE: the machine does not use them. -/

namespace Sys2Proof.Machine

/-- Why a line of assembler text is refused. -/
inductive AsmError where
  | unknownMnemonic
  | badOperand
  /-- "A literal out of range is an assembly error, not a command" (R86). -/
  | outOfRange
deriving DecidableEq, Repr

/-! ### From a line to a command (R85 to R87) -/

/-- The pattern of a floating literal in a format (R86): a decimal literal rounded to nearest, ties
to even; `none` where it overflows the format (log entry 9). -/
def FpFormat.literal (fmt : FpFormat) (nanPattern : Nat) : FloatLit → Option Nat
  | .bits p => some p
  | .inf neg => some (fmt.pack nanPattern (.inf neg))
  | .nan => some nanPattern
  | .dec neg digits exp10 =>
    match fmt.round neg (digits * 10 ^ exp10.toNat * fpOne) (10 ^ (-exp10).toNat) with
    | .fin s mag => some (fmt.pack nanPattern (.fin s mag))
    | .inf _ => none
    | .nan => none

/-- The 32-bit pattern of a RINT literal (R86). -/
def rintPattern : RintLit → Word32
  | .dec i => BitVec.ofInt 32 i
  | .hex p => BitVec.ofNat 32 p

/-- RDBL with a literal; `inf` and `nan` give R86's patterns. -/
def assembleRdbl (l : FloatLit) : Except AsmError Command :=
  match binary64.literal 0x7FF8000000000000 l with
  | some p => .ok (encode (.rdbl (BitVec.ofNat 64 p)))
  | none => .error .outOfRange

/-- RFLT with a literal; `inf` and `nan` give R86's patterns. -/
def assembleRflt (l : FloatLit) : Except AsmError Command :=
  match binary32.literal 0x7FC00000 l with
  | some p => .ok (encode (.rflt (BitVec.ofNat 32 p)))
  | none => .error .outOfRange

/-- The command of a line (R85, R86), each pseudo-command by its expansion (R87). -/
def assembleLine (line : AsmLine) : Except AsmError Command :=
  if line.wf then
    match line with
    | .seed v | .constructWith v | .seedTime v => .ok (encode (.seed (BitVec.ofNat 64 v)))
    | .seeddef | .construct => .ok (encode .seeddef)
    | .next | .nextWord => .ok (encode .next)
    | .draw v | .drawAcceptedWords v => .ok (encode (.draw (BitVec.ofNat 64 v)))
    | .rdbl l | .randomDouble l => assembleRdbl l
    | .rflt l | .randomFloat l => assembleRflt l
    | .rint l | .randomInt l => .ok (encode (.rint (rintPattern l)))
    | .word cw arg => .ok { cw := BitVec.ofNat 32 cw, arg := BitVec.ofNat 64 arg }
  else .error .outOfRange

/-! ### From text to a line (R85, R86) -/

/-- The value of a digit in a base up to 16. -/
def digitOf (base : Nat) (ch : Char) : Option Nat :=
  let n := ch.toNat
  let v := if 48 ≤ n ∧ n ≤ 57 then n - 48
    else if 65 ≤ n ∧ n ≤ 70 then n - 55
    else if 97 ≤ n ∧ n ≤ 102 then n - 87
    else 16
  if v < base then some v else none

/-- A run of digits, at least one, all of the base. -/
def parseDigits (base : Nat) (text : List Char) : Option Nat :=
  if text.isEmpty then none
  else text.foldl (fun acc ch => do return (← acc) * base + (← digitOf base ch)) (some 0)

/-- `0x` and hexadecimal digits. -/
def parseHex : List Char → Option Nat
  | '0' :: 'x' :: rest => parseDigits 16 rest
  | _ => none

/-- An unsigned integer literal, decimal or `0x` hexadecimal. -/
def parseUnsigned (text : List Char) : Option Nat :=
  match parseHex text with
  | some v => some v
  | none => parseDigits 10 text

/-- A RINT literal: a signed decimal integer or a `0x` hexadecimal. -/
def parseRint (text : List Char) : Option RintLit :=
  match parseHex text, text with
  | some v, _ => some (.hex v)
  | none, '-' :: rest => (parseDigits 10 rest).map fun v => .dec (-(v : Int))
  | none, _ => (parseDigits 10 text).map fun v => .dec (v : Int)

/-- The exponent of a decimal floating literal: digits with an optional sign. -/
def parseExponent : List Char → Option Int
  | '-' :: rest => (parseDigits 10 rest).map fun v => -(v : Int)
  | '+' :: rest => (parseDigits 10 rest).map fun v => (v : Int)
  | text => (parseDigits 10 text).map fun v => (v : Int)

/-- A decimal floating literal without its sign: digits, optional fraction, optional exponent. -/
def parseDecimal (neg : Bool) (text : List Char) : Option FloatLit :=
  let isExp := fun ch => ch = 'e' || ch = 'E'
  let (mantissa, expPart) := text.span fun ch => !isExp ch
  let (whole, fracPart) := mantissa.span fun ch => ch ≠ '.'
  let frac := fracPart.drop 1
  match parseDigits 10 (whole ++ frac), expPart with
  | none, _ => none
  | some v, [] => some (.dec neg v (-(frac.length : Int)))
  | some v, _ :: expText => (parseExponent expText).map fun e => .dec neg v (e - frac.length)

/-- The pattern inside `bits(0x...)`. -/
def parseBits (text : List Char) : Option Nat :=
  if text.getLast? = some ')' then parseHex text.dropLast else none

/-- A floating literal (R86): `inf`, `-inf`, `nan`, `bits(0x...)` or a decimal. -/
def parseFloatLit : List Char → Option FloatLit
  | ['i', 'n', 'f'] => some (.inf false)
  | ['-', 'i', 'n', 'f'] => some (.inf true)
  | ['n', 'a', 'n'] => some .nan
  | 'b' :: 'i' :: 't' :: 's' :: '(' :: rest => (parseBits rest).map .bits
  | '-' :: rest => parseDecimal true rest
  | text => parseDecimal false text

/-- The words of a line: split at blanks, a colon a word of its own; `acc` is the word being read. -/
def asmWords (acc : List Char) : List Char → List (List Char)
  | [] => if acc.isEmpty then [] else [acc]
  | ch :: rest =>
    let flushed := if acc.isEmpty then [] else [acc]
    if ch = ' ' || ch = '\t' then flushed ++ asmWords [] rest
    else if ch = ':' then flushed ++ [':'] :: asmWords [] rest
    else asmWords (acc ++ [ch]) rest

/-- An operand that must parse. -/
def orBadOperand (x : Option AsmLine) : Except AsmError AsmLine :=
  match x with
  | some l => .ok l
  | none => .error .badOperand

/-- The line of a mnemonic in capitals and its operands; `clock` is the seed the host computes for
SEEDTIME (R87). -/
def parseCommand (clock : Word) (mnemonic : String) (operands : List (List Char)) :
    Except AsmError AsmLine :=
  match mnemonic, operands with
  | "SEED", [x] => orBadOperand ((parseUnsigned x).map .seed)
  | "SEEDDEF", [] => .ok .seeddef
  | "NEXT", [] => .ok .next
  | "DRAW", [x] => orBadOperand ((parseUnsigned x).map .draw)
  | "RDBL", [x] => orBadOperand ((parseFloatLit x).map .rdbl)
  | "RFLT", [x] => orBadOperand ((parseFloatLit x).map .rflt)
  | "RINT", [x] => orBadOperand ((parseRint x).map .rint)
  | "CONSTRUCT", [] => .ok .construct
  | "CONSTRUCT", [x] => orBadOperand ((parseUnsigned x).map .constructWith)
  | "SEEDTIME", [] => .ok (.seedTime clock.toNat)
  | "NEXTWORD", [] => .ok .nextWord
  | "DRAWACCEPTEDWORDS", [x] => orBadOperand ((parseUnsigned x).map .drawAcceptedWords)
  | "RANDOMDOUBLE", [x] => orBadOperand ((parseFloatLit x).map .randomDouble)
  | "RANDOMFLOAT", [x] => orBadOperand ((parseFloatLit x).map .randomFloat)
  | "RANDOMINT", [x] => orBadOperand ((parseRint x).map .randomInt)
  | ".WORD", [cw, [':'], arg] => orBadOperand (do return .word (← parseHex cw) (← parseHex arg))
  | m, _ =>
    if ["SEED", "SEEDDEF", "NEXT", "DRAW", "RDBL", "RFLT", "RINT", "CONSTRUCT", "SEEDTIME",
        "NEXTWORD", "DRAWACCEPTEDWORDS", "RANDOMDOUBLE", "RANDOMFLOAT", "RANDOMINT",
        ".WORD"].contains m
    then .error .badOperand else .error .unknownMnemonic

/-- One line of a command stream (R85): a mnemonic in either case, its operand, a comment from `;`.
`none` for a line with no command. -/
def assembleText (clock : Word) (text : String) : Except AsmError (Option Command) :=
  match asmWords [] (text.toList.takeWhile fun ch => ch ≠ ';') with
  | [] => .ok none
  | m :: operands => do
    let line ← parseCommand clock (String.ofList (m.map Char.toUpper)) operands
    return some (← assembleLine line)

/-! ### The batch helper (R88) -/

/-- The error the host reports for a precision selector it does not know (R88, R203). -/
inductive HostError where
  | invalidPrecisionSelector
deriving DecidableEq, Repr

/-- The typed command of a precision selector with the operand pattern `range` (R88). -/
def precisionCommand (range : Word) (selector : Char) : Option Instr :=
  match selector with
  | 'd' => some (.rdbl range)
  | 'f' => some (.rflt (range.setWidth 32))
  | 'i' => some (.rint (range.setWidth 32))
  | _ => none

/-- The commands `writeBatch(sink, count, range, selector)` expands to (R88).  What the host does
with the results, its text and its sink, is outside the spec's scope (R5). -/
def writeBatch (count : Nat) (range : Word) (selector : Char) : Except HostError (List Instr) :=
  match precisionCommand range selector with
  | some i => .ok (List.replicate count i)
  | none => .error .invalidPrecisionSelector

end Sys2Proof.Machine
end

