-- ==== Sys2Proof/Safety.lean ====
section
/-! DEFINITION. What claims about a run of MTCORE are stated in: the invariant of the state, what the
host can observe, and the exact meaning of rounding. -/

namespace Sys2Proof.Machine

/-! ### The invariant -/

/-- The storage is as R9, R22 and R24 say: the configuration satisfies its constraints, SV has
exactly N entries and IDX is in 0..N-1. -/
structure StorageOk (s : State) : Prop where
  cfg_wf : s.cfg.wf = true
  sv_length : s.sv.length = s.cfg.n
  idx_lt : s.idx < s.cfg.n

/-- The number of accepted words a draw instruction asks for (R152; 1 for the typed commands,
43_normalize.md section 2); `none` for an instruction that is no draw. -/
def drawCountOf : Instr → Option Word
  | .draw count => some count
  | .rdbl _ => some 1#64
  | .rflt _ => some 1#64
  | .rint _ => some 1#64
  | .seed _ => none
  | .seeddef => none
  | .next => none

/-- The number of accepted words a command asks for; `none` if it is no draw. -/
def drawCount (c : Command) : Option Word :=
  match decode c with
  | .ok i => drawCountOf i
  | .error _ => none

/-- A draw command in its attempt steps (R29, R153): it has words left to deliver, REM and DELIVERED
add up to its count, and REJ is below a finite RETRY_CAP. -/
structure DrawProgress (s : State) : Prop where
  count_eq : ∃ count, drawCount s.cur = some count ∧
    s.rem.toNat + s.delivered.toNat = count.toNat
  rem_ne : s.rem ≠ 0#64
  rej_lt : ∀ cap, s.cfg.retryCap = some cap → s.rej.toNat < cap.toNat

/-- The invariant every step keeps: the storage, the capacity of RSPQ (R30), that RSPQ is empty while
MTCORE seeds itself (R230), and the counters of a draw in its attempt steps. -/
structure Inv (s : State) : Prop where
  storage : StorageOk s
  rspq_le : s.rspq.length ≤ s.cfg.rspDepth
  resetting : s.seq = .resetting → s.rspq = []
  draw : s.seq = .exec → s.attempting = true → DrawProgress s

/-! ### What the host can observe -/

/-- Every beat MTCORE has produced and not discarded, oldest first: those the host has taken, then
those in RSPQ. -/
def State.produced (s : State) : List Beat := s.taken ++ s.rspq

/-- Two states that no host can tell apart, now or later: they may differ in SPILL, which no rule
reads (R23), in CUR and the counters where these have no meaning (R29), and in nothing else. -/
structure SameToHost (s t : State) : Prop where
  cfg : s.cfg = t.cfg
  sv : s.sv = t.sv
  idx : s.idx = t.idx
  seq : s.seq = t.seq
  rspq : s.rspq = t.rspq
  chan : s.chan = t.chan
  turns : s.turns = t.turns
  taken : s.taken = t.taken
  cur : s.seq = .exec → s.cur = t.cur ∧ s.attempting = t.attempting
  counters : s.seq = .exec → s.attempting = true →
    s.rem = t.rem ∧ s.delivered = t.delivered ∧ s.rej = t.rej

/-- Two outcomes that no host can tell apart: the same stop, or next states of which this holds. -/
def OutcomesSame (a b : Host.Outcome State Fault Refusal) : Prop :=
  (∃ s t, a = .next s ∧ b = .next t ∧ SameToHost s t) ∨
  (∃ f, a = .fault f ∧ b = .fault f) ∨
  (∃ r, a = .refused r ∧ b = .refused r)

/-- The commands hosts present in the turns to come, in order. -/
def presentedBy : List Turn → List Command
  | [] => []
  | .present c :: rest => c :: presentedBy rest
  | .core :: rest => presentedBy rest
  | .take :: rest => presentedBy rest
  | .reset :: rest => presentedBy rest

/-- The sequence of commands MTCORE is given from here on: those waiting on the channel, then those
still to be presented. -/
def State.pending (s : State) : List Command := s.chan ++ presentedBy s.turns

/-- `count` calls of ADVANCE, one after the other. -/
def advances : Nat → State → Except Fault State
  | 0, s => .ok s
  | count + 1, s =>
    match s.advance with
    | .ok (_, s') => advances count s'
    | .error f => .error f

/-! ### Exact rounding -/

/-- `mag` units of 2^-1074 is the magnitude of a finite value of the format: a significand of
fracBits + 1 bits times a power of two of its least subnormal, not past the largest finite value. -/
def FpFormat.Representable (fmt : FpFormat) (mag : Nat) : Prop :=
  ∃ m k, m < 2 ^ (fmt.fracBits + 1) ∧ k + 1 < fmt.maxExp ∧ mag = m * 2 ^ k * fmt.scale

/-- The distance, in units of 2^-1074 times `den`, from `num / den` to `mag`. -/
def fpDistance (num den mag : Nat) : Nat := ((num : Int) - (mag : Int) * (den : Int)).natAbs

end Sys2Proof.Machine
end

