-- ==== Sys2Proof/Certificates/Slice0/Obligations.lean ====
section
/-! DEFINITION. The statements for the provers.  Each formalises rules of spec/, named in its
docstring and in OBLIGATIONS.json. -/

open Sys2Proof Sys2Proof.Machine

/-! ### Encoding -/

/-- R70 to R74: the decoder gives back every instruction from its encoding, every operand at every
value. -/
def Obligations.EncodeThenDecodeGivesTheInstruction : Prop :=
  ∀ i : Instr, decode (encode i) = .ok i

/-- R71, R72, R73: what decodes to an instruction is that instruction's encoding but for the bits of
ARG it ignores: all of them for SEEDDEF and NEXT, the upper half for RFLT and RINT. -/
def Obligations.DecodedCommandIsTheEncodingButForIgnoredBits : Prop :=
  ∀ (c : Command) (i : Instr), decode c = .ok i →
    encode i = { cw := c.cw, arg :=
      if c.cw = 2#32 ∨ c.cw = 3#32 then 0#64
      else if c.cw = 6#32 ∨ c.cw = 7#32 then (c.arg.setWidth 32).setWidth 64
      else c.arg }

/-- R71, R72, R73: the opcode and operand of each command, for every argument word; a signed 32-bit
range keeps its value in 64 bits. -/
def Obligations.OperandIsReadFromTheArgumentWord : Prop :=
  ∀ arg : Word,
    decode ⟨0x00000001#32, arg⟩ = .ok (.seed arg) ∧
    decode ⟨0x00000002#32, arg⟩ = .ok .seeddef ∧
    decode ⟨0x00000003#32, arg⟩ = .ok .next ∧
    decode ⟨0x00000004#32, arg⟩ = .ok (.draw arg) ∧
    decode ⟨0x00000005#32, arg⟩ = .ok (.rdbl arg) ∧
    decode ⟨0x00000006#32, arg⟩ = .ok (.rflt (arg.setWidth 32)) ∧
    decode ⟨0x00000007#32, arg⟩ = .ok (.rint (arg.setWidth 32)) ∧
    (rangeInt (arg.setWidth 32)).toInt = (arg.setWidth 32).toInt

/-- R74, R75: exactly the command words 1 to 7 are legal, whatever the argument word; a set bit of
RSVD or a reserved opcode is not. -/
def Obligations.DecoderAcceptsExactlyTheSevenCommandWords : Prop :=
  ∀ c : Command, (∃ i, decode c = .ok i) ↔ 1 ≤ c.cw.toNat ∧ c.cw.toNat ≤ 7

/-- R73, R75: the rows of the opcode table and two of their illegal neighbours, read through the
table's bit numbering.  A row's 32 bits hold no ARG; that its operand is then 0 is the model's choice
and no rule of the spec (log entry 5, DESIGN CHOICE). -/
def Obligations.TableWordsDecode : Prop :=
  decodeTableWord 32 0x00000001 = some (.seed 0#64) ∧
  decodeTableWord 32 0x00000002 = some .seeddef ∧
  decodeTableWord 32 0x00000003 = some .next ∧
  decodeTableWord 32 0x00000004 = some (.draw 0#64) ∧
  decodeTableWord 32 0x00000005 = some (.rdbl 0#64) ∧
  decodeTableWord 32 0x00000006 = some (.rflt 0#32) ∧
  decodeTableWord 32 0x00000007 = some (.rint 0#32) ∧
  decodeTableWord 32 0x00000008 = none ∧
  decodeTableWord 32 0x00000103 = none

/-! ### The sequencer and the channels -/

/-- R74: in MTCORE's turn, with SEQ = `EXEC`, a step is `exec` of the instruction CUR decodes to;
what the model adds is only that its schedule (log entry 3) moves on. -/
def Obligations.StepRunsTheDecodedCommand : Prop :=
  ∀ (s : State) (i : Instr), s.cfg.wf = true → s.seq = .exec → decode s.cur = .ok i →
    (s.turns = [] → step s = exec i s) ∧
    (∀ rest, s.turns = .core :: rest → step s = exec i { s with turns := rest })

/-- R200: where RSPQ has a free entry, an illegal command gives one ILLEGAL beat with the whole
command word and ends; nothing else changes, whether MTCORE's turn is the scheduled one or the
schedule is empty (log entry 3). -/
def Obligations.IllegalCommandGivesOneBeatAndChangesNothing : Prop :=
  ∀ s : State, s.cfg.wf = true → (s.turns = [] ∨ s.turns.head? = some .core) → s.seq = .exec →
    ¬ (1 ≤ s.cur.cw.toNat ∧ s.cur.cw.toNat ≤ 7) → s.rspq.length < s.cfg.rspDepth →
    step s = .next { s with
      turns := s.turns.tail
      rspq := s.rspq ++ [⟨.illegal, BitVec.ofNat 64 s.cur.cw.toNat, true⟩]
      seq := .idle }

/-- R51: an idle MTCORE accepts the command at the head of the channel into CUR, with SEQ = `EXEC`,
in one step, whether its turn is the scheduled one or the schedule is empty; while BUSY a command
stays on the channel, and only a host adds one.  (`attempting` and `turns` are the model's fields,
log entries 2 and 3.) -/
def Obligations.CommandIsAcceptedOnlyWhileIdle : Prop :=
  (∀ (s : State) (c : Command) (rest : List Command), s.cfg.wf = true →
    (s.turns = [] ∨ s.turns.head? = some .core) → s.seq = .idle → s.chan = c :: rest →
    step s = .next { s with
      turns := s.turns.tail, cur := c, seq := .exec, attempting := false, chan := rest }) ∧
  (∀ s s' : State, s.busy = true → step s = .next s' →
    s'.chan = s.chan ∨ ∃ c, s.turns.head? = some (.present c) ∧ s'.chan = s.chan ++ [c])

/-- R214: an idle MTCORE to which no command is presented keeps all its state; only the model's
schedule moves on (log entry 3). -/
def Obligations.IdleWithoutACommandHoldsAllState : Prop :=
  ∀ s : State, s.cfg.wf = true → (s.turns = [] ∨ s.turns.head? = some .core) → s.seq = .idle →
    s.chan = [] → step s = .next { s with turns := s.turns.tail }

/-- R30, R57: taking a beat removes the head of RSPQ and hands it over once; MTCORE's own state is
otherwise as it was. -/
def Obligations.HostTakesTheHeadBeatOnce : Prop :=
  ∀ (s : State) (b : Beat) (q : List Beat) (rest : List Turn), s.cfg.wf = true →
    s.turns = .take :: rest → s.rspq = b :: q →
    step s = .next { s with turns := rest, rspq := q, taken := s.taken ++ [b] }

/-- R31, R53, R153: with RSPQ full, every step that emits, and every attempt step, holds before it
changes any state. -/
def Obligations.FullQueueHoldsEveryEmittingStep : Prop :=
  ∀ s : State, s.cfg.rspDepth ≤ s.rspq.length →
    (∀ v, exec (.seed v) s = .next s) ∧ exec .seeddef s = .next s ∧ exec .next s = .next s ∧
    (s.attempting = false → exec (.draw 0#64) s = .next s) ∧
    (s.attempting = true → ∀ (v : Word) (r : Word32), exec (.draw v) s = .next s ∧
      exec (.rdbl v) s = .next s ∧ exec (.rflt r) s = .next s ∧ exec (.rint r) s = .next s) ∧
    (s.cfg.wf = true → (s.turns = [] ∨ s.turns.head? = some .core) → s.seq = .exec →
      (∀ i, decode s.cur ≠ .ok i) → step s = .next { s with turns := s.turns.tail })

/-- R230, R231: reset discards every beat in RSPQ and makes SEQ `RESETTING`, aborting the running
command; the next step of MTCORE seeds SV from DEFAULT_SEED, clears IDX and makes SEQ `IDLE`, with
no beat.  That the assertion of reset is a step of its own, which leaves all but RSPQ and SEQ, and
that the commands on the channel stay, the model reads from R53 and R231 by inference (log entry 12,
DEDUCED).  That it comes between two atomic steps, whatever RESET_SIGNAL is, is the model's choice
(log entry 8, DESIGN CHOICE). -/
def Obligations.ResetDiscardsBeatsAndSeedsAgain : Prop :=
  (∀ (s : State) (rest : List Turn), s.cfg.wf = true → s.turns = .reset :: rest →
    step s = .next { s with turns := rest, rspq := [], seq := .resetting }) ∧
  (∀ s : State, s.cfg.wf = true → (s.turns = [] ∨ s.turns.head? = some .core) →
    s.seq = .resetting → ∃ t, step s = .next t ∧ t.turns = s.turns.tail ∧
      t.sv.length = s.cfg.n ∧ t.sv[0]? = some s.cfg.defaultSeed ∧
      (∀ (i : Nat) (p : Word), i + 1 < s.cfg.n → t.sv[i]? = some p →
        t.sv[i + 1]? =
          some (s.cfg.f * (p ^^^ (p >>> (s.cfg.w - 2))) + BitVec.ofNat 64 (i + 1))) ∧
      t.idx = 0 ∧ t.seq = .idle ∧ t.busy = false ∧ t.rspq = [] ∧ t.cfg = s.cfg ∧
      t.chan = s.chan ∧ t.taken = s.taken)

/-- R36, R8: the values the spec gives the state after reset; the words are those of
spec/95_test_vectors.md V1. -/
def Obligations.ResetStateHasTheGivenValues : Prop :=
  State.reset.cfg = Config.default ∧ State.reset.sv.length = 624 ∧
  State.reset.sv[0]? = some 0x00000000012BD6AA#64 ∧
  State.reset.sv[1]? = some 0x597276B55D2511E3#64 ∧
  State.reset.sv[2]? = some 0x7E4A9BB343ED42BC#64 ∧
  State.reset.sv[3]? = some 0x37FA255698D17E3C#64 ∧
  State.reset.idx = 0 ∧ State.reset.seq = .idle ∧ State.reset.busy = false ∧
  State.reset.rspq = [] ∧
  Config.default.lmask = 0x000000007FFFFFFF#64 ∧ Config.default.umask = 0xFFFFFFFF80000000#64 ∧
  Config.default.lb.toNat = 10 ^ 18 ∧ Config.default.ub.toNat = 10 ^ 19 ∧
  Config.default.f.toNat = 6364136223846793005 ∧ Config.default.defaultSeed.toNat = 19650218

/-! ### Whole-machine rules -/

/-- R9, R22, R24: the state after reset meets the invariant. -/
def Obligations.ResetMeetsTheInvariant : Prop := Inv State.reset

/-- R22, R24, R29, R30, R56: from every state that meets the invariant a step answers a next state
that meets it.  So SV keeps exactly N entries, IDX stays in 0..N-1, no index outside SV is ever
formed, RSPQ never holds more than RSP_DEPTH beats, and in a running draw REM and DELIVERED add up
to the count. -/
def Obligations.EveryStepKeepsTheInvariantAndNeverStops : Prop :=
  ∀ s : State, Inv s → ∃ s', step s = .next s' ∧ Inv s'

/-- R8, R26, R27: no step changes a constant, a window register or a policy parameter. -/
def Obligations.ConfigurationNeverChanges : Prop :=
  ∀ s s' : State, step s = .next s' → s'.cfg = s.cfg

/-- R21, R25: SV and IDX are written only by seeding and by the advance.  In any step either SV, IDX
and SPILL stay, or SV is seeded and IDX is 0 (a seeding command, or the reset seeding), or the
running command is NEXT or a draw in its attempt steps and SV, IDX and SPILL become what its ADVANCE
makes them, which moves IDX by one and changes at most the entry after the cursor. -/
def Obligations.OnlySeedingAndAdvanceWriteTheStorage : Prop :=
  ∀ s s' : State, StorageOk s → step s = .next s' →
    (s'.sv = s.sv ∧ s'.idx = s.idx ∧ s'.spill = s.spill) ∨
    (s.seq = .resetting ∧ s'.sv = seedWords s.cfg s.cfg.defaultSeed ∧ s'.idx = 0) ∨
    (s.seq = .exec ∧ s'.spill = s.spill ∧ s'.idx = 0 ∧
      ((∃ v, decode s.cur = .ok (.seed v) ∧ s'.sv = seedWords s.cfg v) ∨
        (decode s.cur = .ok .seeddef ∧ s'.sv = seedWords s.cfg s.cfg.defaultSeed))) ∨
    (s.seq = .exec ∧
      (∃ i, decode s.cur = .ok i ∧
        (i = .next ∨ ((drawCountOf i).isSome = true ∧ s.attempting = true))) ∧
      (∃ z t, s.advance = .ok (z, t) ∧ s'.sv = t.sv ∧ s'.idx = t.idx ∧ s'.spill = t.spill) ∧
      s'.idx = (s.idx + 1) % s.cfg.n ∧ s'.sv.length = s.sv.length ∧
      (∀ i, i ≠ (s.idx + 1) % s.cfg.n → s'.sv[i]? = s.sv[i]?) ∧
      (s.idx + 1 < s.cfg.n → s'.spill = s.spill) ∧
      (s.idx + 1 = s.cfg.n → s.cfg.writeAhead = .spill → s'.sv = s.sv) ∧
      (s.cfg.writeAhead = .wrap → s'.spill = s.spill))

/-- R52, R82: a step that is no reset produces at most one beat, at the tail; it produces one only
while a command runs, and the beat has `last` = 1 exactly when the command ends in that step; no
command ends without its last beat. -/
def Obligations.LastBeatExactlyWhenTheCommandEnds : Prop :=
  ∀ s s' : State, Inv s → step s = .next s' → s.turns.head? ≠ some .reset →
    (s'.produced = s.produced ∧ (s.seq = .exec → s'.seq = .exec)) ∨
    (s.seq = .exec ∧ ∃ b, s'.produced = s.produced ++ [b] ∧
      (b.last = true ↔ s'.seq = .idle) ∧ (b.last = false ↔ s'.seq = .exec))

/-- R23, R29, R35, R213: two states that differ only in SPILL, and in CUR and the counters where
these have no meaning, take the same step for every host: the same stop, or next states that again
differ in nothing else. -/
def Obligations.SpillAndStaleRegistersAreNeverObserved : Prop :=
  ∀ s t : State, SameToHost s t → OutcomesSame (step s) (step t)

/-- R105: two MTCOREs seeded with the same value and then given the same commands in the same order
produce the same beats, beat for beat, whatever state they held before, whenever the commands are
presented and whenever the beats are taken: after any two runs the beats of one, from the seeding on,
begin with those of the other. -/
def Obligations.SameSeedAndCommandsGiveTheSameBeats : Prop :=
  ∀ (s t s1 t1 : State) (v : Word), s.cfg = t.cfg → s.pending = t.pending →
    s.hasRoom = true → t.hasRoom = true → (∀ turn ∈ s.turns ++ t.turns, turn ≠ .reset) →
    exec (.seed v) s = .next s1 → exec (.seed v) t = .next t1 →
    ∀ (k l : Nat) (s2 t2 : State), Sys2Proof.core.run k s1 = .next s2 →
      Sys2Proof.core.run l t1 = .next t2 →
      ∃ a b : List Beat, s2.produced = s.produced ++ a ∧ t2.produced = t.produced ++ b ∧
        (a <+: b ∨ b <+: a)

/-- R232: the state after reset equals the state after SEEDDEF in everything the host can observe,
once the host has taken SEEDDEF's beat: the same SV and IDX, no difference a host could tell, and so
the same later beats for the same commands. -/
def Obligations.ResetEqualsSeeddefToTheHost : Prop :=
  ∀ s t : State, s.cfg.wf = true → s.rspq = [] → exec .seeddef s = .next t →
    t.sv = s.resetSeeding.sv ∧ t.idx = s.resetSeeding.idx ∧
    SameToHost { t with rspq := [] } s.resetSeeding ∧
    ∀ (k : Nat) (u u' : State), Sys2Proof.core.run k { t with rspq := [] } = .next u →
      Sys2Proof.core.run k s.resetSeeding = .next u' → u.taken = u'.taken ∧ u.rspq = u'.rspq

/-! ### Seeding -/

/-- R100, R102: SEED writes every entry of SV by the recurrence, whose shift is 62, sets IDX to 0,
gives one DONE beat and ends; SPILL, CUR, the counters and the rest stay.  SEEDING itself writes SV
and IDX only. -/
def Obligations.SeedWritesSVByTheRecurrence : Prop :=
  ∀ (s : State) (v : Word), s.cfg.wf = true → s.rspq.length < s.cfg.rspDepth →
    ∃ t, exec (.seed v) s = .next t ∧
      t = { s with sv := t.sv, idx := 0, rspq := s.rspq ++ [⟨.done, 0#64, true⟩], seq := .idle } ∧
      t.sv.length = s.cfg.n ∧ t.sv[0]? = some v ∧
      (∀ (i : Nat) (p : Word), i + 1 < s.cfg.n → t.sv[i]? = some p →
        t.sv[i + 1]? =
          some (s.cfg.f * (p ^^^ (p >>> 62)) + BitVec.ofNat 64 (i + 1))) ∧
      s.seeding v = { s with sv := t.sv, idx := 0 }

/-- R103: SEEDDEF is SEED with DEFAULT_SEED, 19650218 in the hardware of R8, and it completes
wherever RSPQ has a free entry. -/
def Obligations.SeeddefSeedsWithTheDefaultSeed : Prop :=
  (∀ s : State, exec .seeddef s = exec (.seed s.cfg.defaultSeed) s) ∧
  (∀ s : State, s.rspq.length < s.cfg.rspDepth → ∃ t, exec .seeddef s = .next t ∧
    t = { s with sv := t.sv, idx := 0, rspq := s.rspq ++ [⟨.done, 0#64, true⟩], seq := .idle } ∧
    t.sv[0]? = some s.cfg.defaultSeed) ∧
  (∀ s : State, s.cfg = Config.default → exec .seeddef s = exec (.seed 19650218#64) s)

/-- R104: SEEDING gives one SV and IDX = 0 from every state, and they depend on the seed alone,
whatever state MTCORE held before; so do SV and IDX after SEED. -/
def Obligations.SeedingDependsOnTheSeedAlone : Prop :=
  ∀ (s t : State) (v : Word), s.cfg = t.cfg →
    (s.seeding v).sv = (t.seeding v).sv ∧ (s.seeding v).idx = 0 ∧ (t.seeding v).idx = 0 ∧
    (s.rspq.length < s.cfg.rspDepth → t.rspq.length < t.cfg.rspDepth →
      ∃ s' t', exec (.seed v) s = .next s' ∧ exec (.seed v) t = .next t' ∧ s'.sv = t'.sv ∧
        s'.idx = 0 ∧ t'.idx = 0)

/-! ### The advance -/

/-- R13: `(e) mod N` is the one value in 0..N-1 congruent to e, also when e is negative. -/
def Obligations.ModNIsTheResidue : Prop :=
  ∀ (e : Int) (n : Nat), 0 < n →
    modN e n < n ∧ (∃ q : Int, e = (modN e n : Int) + q * n) ∧
    ∀ r : Nat, r < n → (∃ q : Int, e = (r : Int) + q * n) → r = modN e n

/-- R121, R123: the indexes j and j2 of the advance in each range of the cursor, and with the
defaults of R8. -/
def Obligations.AdvanceIndexesInEachRange : Prop :=
  (∀ k n m : Nat, k < n → 1 ≤ m → m < n →
    modN ((k : Int) - ((n : Int) - 1)) n = (if k + 1 < n then k + 1 else 0) ∧
    modN ((k : Int) - ((n : Int) - (m : Int))) n = (if k < n - m then k + m else k + m - n)) ∧
  (∀ k : Nat, k < 624 → modN ((k : Int) - ((624 : Int) - 397)) 624 =
    (if k ≤ 226 then k + 397 else k - 227))

/-- R121: bit i of the mixing word is bit i of `SV[j]` below R and bit i of `SV[k]` from R on. -/
def Obligations.MixingWordJoinsTheTwoWords : Prop :=
  ∀ (cfg : Config) (svk svj : Word), cfg.wf = true → ∀ i : Nat, i < 64 →
    (mixWord cfg svk svj).getLsbD i = if i < cfg.r then svj.getLsbD i else svk.getLsbD i

/-- R122: the twist shifts right by one and XORs A in exactly when the discarded bit is 1; bit 63 of
the shifted word is 0, so bit 63 of xA is bit 63 of A when x is odd. -/
def Obligations.TwistXorsAWhenTheDiscardedBitIsOne : Prop :=
  ∀ (cfg : Config) (x : Word),
    (x.getLsbD 0 = false → twist cfg x = x >>> 1) ∧
    (x.getLsbD 0 = true → twist cfg x = (x >>> 1) ^^^ cfg.a) ∧
    (x >>> 1).getLsbD 63 = false ∧
    (x.getLsbD 0 = true → (twist cfg x).getLsbD 63 = cfg.a.getLsbD 63)

/-- R120 (R121 to R127), R130: NEXT returns the tempered mixing word in one DATA beat, writes the new
state value ahead of the cursor (to `SV[k+1]`; at the last entry to SPILL or, under WRAP, `SV[0]`),
moves IDX on and ends; nothing else changes, and the three reads see the state from before. -/
def Obligations.NextAdvancesOnceAndReturnsTheRawWord : Prop :=
  ∀ (s : State) (svk svj svj2 x v y1 y2 y3 y4 : Word), StorageOk s →
    s.rspq.length < s.cfg.rspDepth →
    s.sv[s.idx]? = some svk → s.sv[(s.idx + 1) % s.cfg.n]? = some svj →
    s.sv[(s.idx + s.cfg.m) % s.cfg.n]? = some svj2 →
    x = (svk &&& ~~~((1#64 <<< s.cfg.r) - 1#64)) ||| (svj &&& ((1#64 <<< s.cfg.r) - 1#64)) →
    v = svj2 ^^^ (if x.getLsbD 0 then (x >>> 1) ^^^ s.cfg.a else x >>> 1) →
    y1 = x ^^^ ((x >>> s.cfg.u) &&& s.cfg.d) →
    y2 = y1 ^^^ ((y1 <<< s.cfg.s) &&& s.cfg.b) →
    y3 = y2 ^^^ ((y2 <<< s.cfg.t) &&& s.cfg.c) →
    y4 = y3 ^^^ (y3 >>> s.cfg.l) →
    exec .next s = .next { s with
      sv := if s.idx + 1 < s.cfg.n then s.sv.set (s.idx + 1) v
        else if s.cfg.writeAhead = .wrap then s.sv.set 0 v else s.sv
      spill := if s.idx + 1 < s.cfg.n then s.spill
        else if s.cfg.writeAhead = .wrap then s.spill else v
      idx := if s.idx + 1 = s.cfg.n then 0 else s.idx + 1
      rspq := s.rspq ++ [⟨.data, y4, true⟩]
      seq := .idle }

/-- R120, R202: ADVANCE never fails where the storage is sound, and changes nothing but SV, SPILL and
IDX. -/
def Obligations.AdvanceNeverFailsAndKeepsTheRest : Prop :=
  ∀ s : State, StorageOk s → ∃ z s', s.advance = .ok (z, s') ∧ StorageOk s' ∧
    s' = { s with sv := s'.sv, spill := s'.spill, idx := s'.idx }

/-- R240: the word one advance stores ahead supplies the upper bits of the next mixing word, also
across the wrap under WRAP; under SPILL the advance with k = 0 reads the seeded `SV[0]`, not SPILL. -/
def Obligations.NextAdvanceReadsTheWordWrittenAhead : Prop :=
  ∀ (s s1 s2 : State) (z1 z2 svk svj svj2 : Word), StorageOk s →
    s.advance = .ok (z1, s1) → s1.advance = .ok (z2, s2) →
    s.sv[s.idx]? = some svk → s.sv[(s.idx + 1) % s.cfg.n]? = some svj →
    s.sv[(s.idx + s.cfg.m) % s.cfg.n]? = some svj2 →
    (s.idx + 1 < s.cfg.n → ∀ svj', s.sv[(s.idx + 2) % s.cfg.n]? = some svj' →
      z2 = temper s.cfg (mixWord s.cfg (svj2 ^^^ twist s.cfg (mixWord s.cfg svk svj)) svj')) ∧
    (s.idx + 1 = s.cfg.n → s.cfg.writeAhead = .wrap → ∀ svj', s.sv[1]? = some svj' →
      z2 = temper s.cfg (mixWord s.cfg (svj2 ^^^ twist s.cfg (mixWord s.cfg svk svj)) svj')) ∧
    (s.idx + 1 = s.cfg.n → s.cfg.writeAhead = .spill → ∀ sv0 sv1, s.sv[0]? = some sv0 →
      s.sv[1]? = some sv1 → z2 = temper s.cfg (mixWord s.cfg sv0 sv1))

/-- R128: TEMPER is a bijection on 64-bit words and keeps 0, for every configuration that satisfies
R9. -/
def Obligations.TemperIsABijection : Prop :=
  ∀ cfg : Config, cfg.wf = true → Function.Bijective (temper cfg) ∧ temper cfg 0#64 = 0#64

/-- R125: an advance moves IDX on by one, N-1 to 0, and IDX stays in 0..N-1; so after any number of
advances following a SEEDING, IDX is that number modulo N. -/
def Obligations.IdxCountsAdvancesModuloN : Prop :=
  (∀ (s s' : State) (z : Word), StorageOk s → s.advance = .ok (z, s') →
    s'.idx = (if s.idx + 1 < s.cfg.n then s.idx + 1 else 0) ∧ s'.idx < s'.cfg.n) ∧
  (∀ (s : State) (v : Word) (count : Nat), s.cfg.wf = true →
    ∃ t, advances count (s.seeding v) = .ok t ∧ t.idx = count % s.cfg.n)

/-! ### Draws -/

/-- R152, R172 to R174: the start step of a draw sets REM to its count (1 for the typed commands),
DELIVERED and REJ to 0, and emits nothing, also while RSPQ is full; DRAW 0 gives one DONE beat and
ends, and advances nothing.  (`attempting` is the model's field, log entry 2.) -/
def Obligations.DrawStartSetsTheCounters : Prop :=
  ∀ s : State, s.attempting = false →
    (∀ count : Word, count ≠ 0#64 → exec (.draw count) s = .next
      { s with rem := count, delivered := 0#64, rej := 0#64, attempting := true }) ∧
    (s.rspq.length < s.cfg.rspDepth → exec (.draw 0#64) s = .next
      { s with rspq := s.rspq ++ [⟨.done, 0#64, true⟩], seq := .idle }) ∧
    (∀ r : Word, exec (.rdbl r) s = .next
      { s with rem := 1#64, delivered := 0#64, rej := 0#64, attempting := true }) ∧
    (∀ r : Word32, exec (.rflt r) s = .next
      { s with rem := 1#64, delivered := 0#64, rej := 0#64, attempting := true }) ∧
    (∀ r : Word32, exec (.rint r) s = .next
      { s with rem := 1#64, delivered := 0#64, rej := 0#64, attempting := true })

/-- R153, R154: an attempt of DRAW whose raw word is accepted delivers that word, unchanged, in one
DATA beat; at the last word the beat has `last` = 1 and the command ends. -/
def Obligations.DrawDeliversTheAcceptedWord : Prop :=
  ∀ (s s1 : State) (count z : Word), s.attempting = true → s.rspq.length < s.cfg.rspDepth →
    s.advance = .ok (z, s1) → accept s.cfg z = true →
    exec (.draw count) s = .next { s1 with
      rem := s.rem - 1#64, delivered := s.delivered + 1#64, rej := 0#64
      rspq := s.rspq ++ [⟨.data, z, decide (s.rem = 1#64)⟩]
      seq := if s.rem = 1#64 then .idle else s.seq }

/-- R153, R154, R172 to R174, R81: an attempt of RDBL, RFLT or RINT whose raw word is accepted
delivers the normalized word in one DATA beat with `last` = 1 and ends: `bits64(t *. range)`,
`zext_64(bits32(f32(t *. f64(range))))`, and `trunc_i64(t *. (f64(range) +. 1.0))`, with t =
NORMFRAC(z). -/
def Obligations.TypedDrawsDeliverTheNormalizedWord : Prop :=
  ∀ (s s1 : State) (z : Word), s.attempting = true → s.rem = 1#64 →
    s.rspq.length < s.cfg.rspDepth → s.advance = .ok (z, s1) → accept s.cfg z = true →
    (∀ range : Word, exec (.rdbl range) s = .next { s1 with
      rem := 0#64, delivered := s.delivered + 1#64, rej := 0#64
      rspq := s.rspq ++ [⟨.data,
        ((normFrac s.cfg z).mul (ofBits64 range)).bits64 s.cfg.nan64, true⟩]
      seq := .idle }) ∧
    (∀ range : Word32, exec (.rflt range) s = .next { s1 with
      rem := 0#64, delivered := s.delivered + 1#64, rej := 0#64
      rspq := s.rspq ++ [⟨.data,
        (((normFrac s.cfg z).mul (ofBits32 range)).narrow32.bits32 s.cfg.nan32).setWidth 64, true⟩]
      seq := .idle }) ∧
    (∀ range : Word32, exec (.rint range) s = .next { s1 with
      rem := 0#64, delivered := s.delivered + 1#64, rej := 0#64
      rspq := s.rspq ++ [⟨.data,
        ((normFrac s.cfg z).mul ((f64OfInt range.toInt).add (f64OfInt 1))).truncI64, true⟩]
      seq := .idle })

/-- R151, R153, R155, R201: a rejected raw word reaches no beat; it still advanced the state and REJ
counts it.  In the attempt that makes REJ equal to a finite RETRY_CAP the draw stops with one UNSAT
beat that carries DELIVERED. -/
def Obligations.RejectedAttemptAdvancesAndDeliversNothing : Prop :=
  ∀ (s s1 : State) (z : Word) (i : Instr), s.attempting = true →
    s.rspq.length < s.cfg.rspDepth → s.advance = .ok (z, s1) → accept s.cfg z = false →
    ((∃ count, i = .draw count) ∨ (∃ r, i = .rdbl r) ∨ (∃ r, i = .rflt r) ∨ (∃ r, i = .rint r)) →
    (s.cfg.retryCap ≠ some (s.rej + 1#64) →
      exec i s = .next { s1 with rej := s.rej + 1#64 }) ∧
    (s.cfg.retryCap = some (s.rej + 1#64) →
      exec i s = .next { s1 with
        rej := s.rej + 1#64, rspq := s.rspq ++ [⟨.unsat, s.delivered, true⟩], seq := .idle })

/-- R156: with RETRY_CAP = INF a draw whose raw words are all rejected keeps running: after any
number of steps short of a reset MTCORE is still busy with it, has produced no beat and accepted no
command, whatever commands hosts present and however they take beats. -/
def Obligations.RejectedWordsNeverEndAnUncappedDraw : Prop :=
  ∀ (k : Nat) (s : State), Inv s → s.seq = .exec → s.attempting = true →
    (∀ turn ∈ s.turns, turn ≠ .reset) →
    s.cfg.retryCap = none → s.rspq.length < s.cfg.rspDepth →
    (∀ (j : Nat) (u u' : State) (z : Word), j < k → advances j s = .ok u →
      u.advance = .ok (z, u') → accept s.cfg z = false) →
    ∃ t : State, Sys2Proof.core.run k s = .next t ∧ t.busy = true ∧ t.seq = .exec ∧
      t.produced = s.produced ∧ t.pending = s.pending ∧ t.cur = s.cur

/-- R82, R152 to R155: the beats of a draw in its attempt steps, whatever turns MTCORE and the taking
host have, with no other command and no reset.  While it runs it has produced only DATA beats with
`last` = 0, one per word DELIVERED counts.  When it has ended, its beats are that many more: DATA
beats up to the last word, the last one alone with `last` = 1; or, under a finite RETRY_CAP, DATA
beats with `last` = 0 and then one UNSAT beat that carries the number of words delivered. -/
def Obligations.DrawProducesTheBeatsOfItsCount : Prop :=
  ∀ (k : Nat) (s t : State), Inv s → s.seq = .exec → s.attempting = true → s.chan = [] →
    (∀ turn ∈ s.turns, turn = .core ∨ turn = .take) → Sys2Proof.core.run k s = .next t →
    ∃ init : List Beat, (∀ b ∈ init, b.status = .data ∧ b.last = false) ∧
      ((t.seq = .exec ∧ t.produced = s.produced ++ init ∧
          t.delivered.toNat = s.delivered.toNat + init.length) ∨
        (t.seq = .idle ∧ ∃ data, t.produced = s.produced ++ init ++ [⟨.data, data, true⟩] ∧
          s.rem.toNat = init.length + 1) ∨
        (t.seq = .idle ∧ s.cfg.retryCap ≠ none ∧ ∃ data,
          t.produced = s.produced ++ init ++ [⟨.unsat, data, true⟩] ∧
          data.toNat = s.delivered.toNat + init.length))

/-- R150, R151: every DATA beat a DRAW produces carries an accepted word, with EXACT one from LB to
UB. -/
def Obligations.DrawNeverDeliversAWordOutsideTheWindow : Prop :=
  ∀ (s t : State) (count : Word) (b : Beat), exec (.draw count) s = .next t →
    t.rspq = s.rspq ++ [b] → b.status = .data →
    accept s.cfg b.data = true ∧
    (s.cfg.windowCompare = .exact →
      s.cfg.lb.toNat ≤ b.data.toNat ∧ b.data.toNat ≤ s.cfg.ub.toNat)

/-- R150: the window is closed at both ends.  EXACT compares unsigned integers; BINARY64 compares
after conversion to binary64, which with the defaults accepts from 10^18 - 64 to 10^19 + 1024. -/
def Obligations.AcceptanceWindowIsClosedAtBothEnds : Prop :=
  (∀ (cfg : Config) (z : Word), cfg.windowCompare = .exact →
    (accept cfg z = true ↔ cfg.lb.toNat ≤ z.toNat ∧ z.toNat ≤ cfg.ub.toNat)) ∧
  (∀ (cfg : Config) (z : Word), cfg.windowCompare = .binary64 →
    (accept cfg z = true ↔
      (f64OfWord cfg.lb).le (f64OfWord z) = true ∧ (f64OfWord z).le (f64OfWord cfg.ub) = true)) ∧
  (∀ z : Word, accept Config.default z = true ↔ 10 ^ 18 ≤ z.toNat ∧ z.toNat ≤ 10 ^ 19) ∧
  (∀ z : Word, accept { Config.default with windowCompare := .binary64 } z = true ↔
    10 ^ 18 - 64 ≤ z.toNat ∧ z.toNat ≤ 10 ^ 19 + 1024)

/-- R202: SEED, SEEDDEF and NEXT report no error for any argument, and with RETRY_CAP = INF no command
does: whatever beat a step of one adds is DATA or DONE. -/
def Obligations.NoErrorBeatWithoutARetryCap : Prop :=
  ∀ (i : Instr) (s t : State), exec i s = .next t →
    (s.cfg.retryCap = none ∨ (∃ v, i = .seed v) ∨ i = .seeddef ∨ i = .next) →
    t.rspq = s.rspq ∨
      ∃ b, t.rspq = s.rspq ++ [b] ∧ (b.status = .data ∨ b.status = .done)

/-! ### Floating point and the normalizer -/

/-- R15: in both formats the exact ratio is rounded to the nearest value of the format, a tie to the
one with an even pattern.  That the sign is kept, and that the result becomes an infinity exactly
when the ratio reaches the largest finite value and half a spacing, R15 does not say: the model takes
it from IEEE 754 (log entry 16, PRESUMED). -/
def Obligations.RoundingIsToNearestTiesToEven : Prop :=
  ∀ (fmt : FpFormat), fmt = binary64 ∨ fmt = binary32 → ∀ (neg : Bool) (num den : Nat), 0 < den →
    ((∃ mag, fmt.round neg num den = .fin neg mag) ∨ fmt.round neg num den = .inf neg) ∧
    (fmt.round neg num den = .inf neg ↔
      (2 ^ (fmt.fracBits + 2) - 1) * 2 ^ (fmt.maxExp - 3) * fmt.scale * den ≤ num) ∧
    (∀ mag, fmt.round neg num den = .fin neg mag →
      fmt.Representable mag ∧
      ∀ mag', fmt.Representable mag' → fpDistance num den mag ≤ fpDistance num den mag' ∧
        (fpDistance num den mag = fpDistance num den mag' → mag' ≠ mag →
          fmt.pack 0 (.fin false mag) % 2 = 0))

/-- R15, R80, R81: a pattern that is no NaN is the pattern of its value, in both formats. -/
def Obligations.PatternOfTheValueOfAPattern : Prop :=
  (∀ v nan : Word, ofBits64 v ≠ .nan → (ofBits64 v).bits64 nan = v) ∧
  (∀ v nan : Word32, ofBits32 v ≠ .nan → (ofBits32 v).bits32 nan = v)

/-- R171: for every accepted z the fraction t is between 0 and 1; with EXACT it is 0 exactly for
z = LB; with the defaults it is 1 exactly for z >= UB - 512; it is monotone in z. -/
def Obligations.FractionLiesInTheUnitInterval : Prop :=
  (∀ (cfg : Config) (z : Word), cfg.wf = true → accept cfg z = true →
    ∃ mag, normFrac cfg z = .fin false mag ∧ mag ≤ fpOne ∧
      (cfg.windowCompare = .exact → (mag = 0 ↔ z = cfg.lb))) ∧
  (∀ z : Word, accept Config.default z = true →
    (normFrac Config.default z = .fin false fpOne ↔ 10 ^ 19 - 512 ≤ z.toNat)) ∧
  (∀ (cfg : Config) (z z' : Word) (mag mag' : Nat), cfg.wf = true → accept cfg z = true →
    accept cfg z' = true → z.toNat ≤ z'.toNat → normFrac cfg z = .fin false mag →
    normFrac cfg z' = .fin false mag' → mag ≤ mag')

/-- R178: a one-word window makes the fraction +0.0. -/
def Obligations.OneWordWindowGivesZero : Prop :=
  ∀ (cfg : Config) (z : Word), cfg.lb = cfg.ub → normFrac cfg z = .fin false 0

/-- R179, R177: with the defaults and a finite range, RDBL and RFLT give a value between 0 and range,
on range's side and with range's sign; z = LB gives the zero of range's sign and z = UB gives
range. -/
def Obligations.RangeIsMappedFromZeroToRange : Prop :=
  (∀ (range : Word) (neg : Bool) (mag : Nat), ofBits64 range = .fin neg mag →
    (∀ z, accept Config.default z = true → ∃ m, m ≤ mag ∧
      (normFrac Config.default z).mul (ofBits64 range) = .fin neg m) ∧
    resultRdbl Config.default range Config.default.lb = (if neg then 1#64 <<< 63 else 0#64) ∧
    resultRdbl Config.default range Config.default.ub = range) ∧
  (∀ (range : Word32) (neg : Bool) (mag : Nat), ofBits32 range = .fin neg mag →
    (∀ z, accept Config.default z = true → ∃ m, m ≤ mag ∧
      ((normFrac Config.default z).mul (ofBits32 range)).narrow32 = .fin neg m) ∧
    resultRflt Config.default range Config.default.lb = (if neg then 1#64 <<< 31 else 0#64) ∧
    resultRflt Config.default range Config.default.ub = range.setWidth 64)

/-- R176: a NaN range gives NAN_RESULT, the canonical quiet NaN; an infinite range gives the infinity
of its sign for t > 0 and NAN_RESULT for t = 0; RINT's product is finite for every accepted word. -/
def Obligations.NanAndInfiniteRanges : Prop :=
  ∀ (cfg : Config) (z : Word) (mag : Nat), normFrac cfg z = .fin false mag →
    (∀ range : Word, ofBits64 range = .nan → resultRdbl cfg range z = cfg.nan64) ∧
    (∀ range : Word32, ofBits32 range = .nan →
      resultRflt cfg range z = cfg.nan32.setWidth 64) ∧
    (0 < mag → resultRdbl cfg 0x7FF0000000000000#64 z = 0x7FF0000000000000#64 ∧
      resultRdbl cfg 0xFFF0000000000000#64 z = 0xFFF0000000000000#64 ∧
      resultRflt cfg 0x7F800000#32 z = 0x7F800000#64 ∧
      resultRflt cfg 0xFF800000#32 z = 0xFF800000#64) ∧
    (mag = 0 → resultRdbl cfg 0x7FF0000000000000#64 z = cfg.nan64 ∧
      resultRdbl cfg 0xFFF0000000000000#64 z = cfg.nan64 ∧
      resultRflt cfg 0x7F800000#32 z = cfg.nan32.setWidth 64 ∧
      resultRflt cfg 0xFF800000#32 z = cfg.nan32.setWidth 64) ∧
    Config.default.nan64 = 0x7FF8000000000000#64 ∧ Config.default.nan32 = 0x7FC00000#32 ∧
    (accept cfg z = true → ∀ range : Word32, ∃ neg m,
      (normFrac cfg z).mul ((f64OfInt range.toInt).add (f64OfInt 1)) = .fin neg m)

/-- R174: RINT's result is between 0 and range+1, on the side of 0 where range+1 lies; range = -1
gives 0; for range >= 0 it is range+1 exactly when t = 1. -/
def Obligations.RintStaysBetweenZeroAndRangePlusOne : Prop :=
  ∀ (cfg : Config) (range : Word32) (z : Word), cfg.wf = true → accept cfg z = true →
    (0 ≤ range.toInt → 0 ≤ (resultRint cfg range z).toInt ∧
      (resultRint cfg range z).toInt ≤ range.toInt + 1) ∧
    (range.toInt = -1 → resultRint cfg range z = 0#64) ∧
    (range.toInt < -1 → range.toInt + 1 ≤ (resultRint cfg range z).toInt ∧
      (resultRint cfg range z).toInt ≤ 0) ∧
    (0 ≤ range.toInt →
      ((resultRint cfg range z).toInt = range.toInt + 1 ↔ normFrac cfg z = .fin false fpOne))

/-- R175: RINT gives range+1, unclamped, for every accepted word whose fraction is 1; with the
defaults these are the 513 words from UB - 512 to UB, and for range >= 0 no other accepted word gives
range+1. -/
def Obligations.RintGivesRangePlusOneForTheTopWords : Prop :=
  (∀ (cfg : Config) (range : Word32) (z : Word), accept cfg z = true →
    normFrac cfg z = .fin false fpOne →
    (resultRint cfg range z).toInt = range.toInt + 1) ∧
  (∀ (range : Word32) (z : Word), accept Config.default z = true →
    (normFrac Config.default z = .fin false fpOne ↔ 10 ^ 19 - 512 ≤ z.toNat) ∧
    (10 ^ 19 - 512 ≤ z.toNat → (resultRint Config.default range z).toInt = range.toInt + 1) ∧
    (0 ≤ range.toInt → z.toNat < 10 ^ 19 - 512 →
      (resultRint Config.default range z).toInt ≤ range.toInt))

/-! ### Status and the host's tools -/

/-- R32, R80: BUSY is 1 exactly while SEQ is not `IDLE`, and the 2-bit codes of a beat's status. -/
def Obligations.BusyAndStatusCodes : Prop :=
  (∀ s : State, s.busy = true ↔ s.seq = .resetting ∨ s.seq = .exec) ∧
  Status.code .data = 0b00#2 ∧ Status.code .done = 0b01#2 ∧ Status.code .illegal = 0b10#2 ∧
  Status.code .unsat = 0b11#2

/-- R87: each pseudo-command is the MTCORE command of its row, for operands R86 admits. -/
def Obligations.PseudoCommandsAreTheirExpansions : Prop :=
  assembleLine .construct = .ok (encode .seeddef) ∧
  assembleLine .nextWord = .ok (encode .next) ∧
  (∀ v : Word, assembleLine (.constructWith v.toNat) = .ok (encode (.seed v)) ∧
    assembleLine (.seedTime v.toNat) = .ok (encode (.seed v)) ∧
    assembleLine (.drawAcceptedWords v.toNat) = .ok (encode (.draw v))) ∧
  (∀ l, assembleLine (.randomDouble l) = assembleLine (.rdbl l)) ∧
  (∀ l, assembleLine (.randomFloat l) = assembleLine (.rflt l)) ∧
  (∀ l, assembleLine (.randomInt l) = assembleLine (.rint l))

/-- R86: an integer literal or an exact pattern out of range is an assembly error, not a command; in
range it is the operand. -/
def Obligations.LiteralOutOfRangeIsRefused : Prop :=
  (∀ v : Nat, 2 ^ 64 ≤ v → assembleLine (.seed v) = .error .outOfRange ∧
    assembleLine (.draw v) = .error .outOfRange ∧
    assembleLine (.rdbl (.bits v)) = .error .outOfRange) ∧
  (∀ v : Nat, 2 ^ 32 ≤ v → assembleLine (.rflt (.bits v)) = .error .outOfRange ∧
    assembleLine (.rint (.hex v)) = .error .outOfRange) ∧
  (∀ i : Int, (i < -2 ^ 31 ∨ 2 ^ 31 - 1 < i) →
    assembleLine (.rint (.dec i)) = .error .outOfRange) ∧
  (∀ v : Word, assembleLine (.seed v.toNat) = .ok (encode (.seed v)) ∧
    assembleLine (.draw v.toNat) = .ok (encode (.draw v)) ∧
    assembleLine (.rdbl (.bits v.toNat)) = .ok (encode (.rdbl v))) ∧
  (∀ v : Word32, assembleLine (.rflt (.bits v.toNat)) = .ok (encode (.rflt v)) ∧
    assembleLine (.rint (.hex v.toNat)) = .ok (encode (.rint v)) ∧
    assembleLine (.rint (.dec v.toInt)) = .ok (encode (.rint v)))

/-- R88: the batch helper expands to `count` typed commands of its precision with the same operand,
and to none for count 0 or, with the host's InvalidPrecisionSelector, for any other selector.  (A
count of 0 with an unknown selector is the model's choice, log entry 10.) -/
def Obligations.BatchHelperExpandsToTypedCommands : Prop :=
  ∀ (count : Nat) (range : Word),
    writeBatch count range 'd' = .ok (List.replicate count (.rdbl range)) ∧
    writeBatch count range 'f' = .ok (List.replicate count (.rflt (range.setWidth 32))) ∧
    writeBatch count range 'i' = .ok (List.replicate count (.rint (range.setWidth 32))) ∧
    (∀ selector, selector ≠ 'd' → selector ≠ 'f' → selector ≠ 'i' →
      writeBatch count range selector = .error .invalidPrecisionSelector) ∧
    writeBatch 0 range 'd' = .ok [] ∧ writeBatch 0 range 'f' = .ok [] ∧
    writeBatch 0 range 'i' = .ok []
end

