-- ==== Sys2Proof/Laws/Datapath.lean ====
section
/-! SUPPORT. Lemmas about the datapath functions: the seeding chain and index arithmetic. -/

namespace Sys2Proof.Machine

@[simp] theorem seedChain_length (cfg : Config) (p : Word) (count i : Nat) :
    (seedChain cfg p count i).length = count := by
  induction count generalizing p i with
  | zero => rfl
  | succ count ih => simp [seedChain, ih]

theorem seedWords_length (cfg : Config) (s : Word) (hn : 1 ≤ cfg.n) :
    (seedWords cfg s).length = cfg.n := by
  simp [seedWords]; omega

@[simp] theorem seedWords_getElem?_zero (cfg : Config) (s : Word) :
    (seedWords cfg s)[0]? = some s := rfl

/-- Each word of the chain comes from the one before it, at its own index. -/
theorem seedChain_getElem?_succ (cfg : Config) (p : Word) (count i at' : Nat) (v : Word)
    (hlt : at' < count) (hv : (p :: seedChain cfg p count i)[at']? = some v) :
    (p :: seedChain cfg p count i)[at' + 1]? = some (seedNext cfg v (i + at')) := by
  induction count generalizing p i at' with
  | zero => omega
  | succ count ih =>
    cases at' with
    | zero => simp_all [seedChain]
    | succ at' =>
      have h := ih (seedNext cfg p i) (i + 1) at' (by omega) (by simpa [seedChain] using hv)
      simpa [seedChain, Nat.add_assoc, Nat.add_comm 1] using h

/-- The seeding recurrence (R100): `SV[i+1]` from `SV[i]`. -/
theorem seedWords_getElem?_succ (cfg : Config) (s v : Word) (i : Nat) (hlt : i + 1 < cfg.n)
    (hv : (seedWords cfg s)[i]? = some v) :
    (seedWords cfg s)[i + 1]? = some (seedNext cfg v (i + 1)) := by
  have h := seedChain_getElem?_succ cfg s (cfg.n - 1) 1 i v (by omega) hv
  simpa [seedWords, Nat.add_comm 1] using h

theorem modN_lt (e : Int) {n : Nat} (hn : 0 < n) : modN e n < n := by
  have h0 := Int.emod_nonneg e (b := (n : Int)) (by omega)
  have h1 := Int.emod_lt_of_pos e (b := (n : Int)) (by omega)
  unfold modN; omega

/-- A reduction of `k - (N - d)` is one of `k + d` (R121, R123). -/
theorem modN_sub (k n d : Nat) :
    modN ((k : Int) - ((n : Int) - (d : Int))) n = (k + d) % n := by
  have h : (k : Int) - ((n : Int) - (d : Int)) = ((k + d : Nat) : Int) - (n : Int) := by
    push_cast; ring
  unfold modN
  rw [h, Int.sub_emod_right, ← Int.natCast_mod, Int.toNat_natCast]

theorem modN_pred (k n : Nat) : modN ((k : Int) - ((n : Int) - 1)) n = (k + 1) % n := by
  simpa using modN_sub k n 1

end Sys2Proof.Machine
end

