-- ==== Sys2Proof/Laws/Decode.lean ====
section
/-! SUPPORT. Lemmas about the decoder: the fields of a command word as numbers, and when and to what
a command decodes. -/

namespace Sys2Proof

theorem Command.op_toNat (c : Command) : c.op.toNat = c.cw.toNat % 256 := by
  simp [Command.op]

theorem Command.rsvd_eq_zero_iff (c : Command) : c.rsvd = 0#24 ↔ c.cw.toNat < 256 := by
  have hcw := c.cw.isLt
  rw [← BitVec.toNat_inj]
  simp only [Command.rsvd, BitVec.extractLsb'_toNat, BitVec.toNat_ofNat, Nat.shiftRight_eq_div_pow]
  omega

/-- With RSVD zero the command word is its opcode. -/
theorem Command.cw_toNat_of_rsvd {c : Command} (h : c.rsvd = 0#24) : c.cw.toNat = c.op.toNat := by
  rw [Command.rsvd_eq_zero_iff] at h
  rw [Command.op_toNat]; omega

theorem Command.cw_eq_of_op {c : Command} {k : Nat} (h : c.rsvd = 0#24) (hk : k < 256)
    (ho : c.op.toNat = k) : c.cw = BitVec.ofNat 32 k := by
  apply BitVec.eq_of_toNat_eq
  rw [Command.cw_toNat_of_rsvd h, ho, BitVec.toNat_ofNat, Nat.mod_eq_of_lt (by omega)]

/-- A command decodes to an instruction exactly when RSVD is zero and its opcode has one. -/
theorem decode_ok_iff {c : Command} {i : Instr} :
    decode c = .ok i ↔ c.rsvd = 0#24 ∧ decodeOp c.op c.arg = some i := by
  unfold decode
  split
  · split <;> simp_all
  · simp_all

theorem decodeOp_isSome {op : BitVec 8} {arg : Word} :
    (decodeOp op arg).isSome = true ↔ 1 ≤ op.toNat ∧ op.toNat ≤ 7 := by
  unfold decodeOp
  split <;> simp_all
  omega

/-- The low half of an argument word, read as an operand. -/
theorem extractLow_eq_setWidth (arg : Word) : arg.extractLsb' 0 32 = arg.setWidth 32 := by
  apply BitVec.eq_of_toNat_eq; simp

/-- The low half of a word extended from 32 bits. -/
theorem extractLow_setWidth (v : Word32) : (v.setWidth 64).extractLsb' 0 32 = v := by
  apply BitVec.eq_of_toNat_eq
  have := v.isLt
  simp [BitVec.extractLsb'_toNat]
  omega

end Sys2Proof
end

