-- ==== Sys2Proof/Laws/State.lean ====
section
/-! SUPPORT. One lemma per field per update of the state: what each named update writes and what it
leaves.  Later proofs cite these through `simp` and never unfold a record update. -/

namespace Sys2Proof.Machine

/-! ### `seeding` -/

@[simp] theorem State.seeding_cfg (s : State) (v : Word) : (s.seeding v).cfg = s.cfg := rfl
@[simp] theorem State.seeding_sv (s : State) (v : Word) : (s.seeding v).sv = seedWords s.cfg v := rfl
@[simp] theorem State.seeding_idx (s : State) (v : Word) : (s.seeding v).idx = 0 := rfl
@[simp] theorem State.seeding_spill (s : State) (v : Word) : (s.seeding v).spill = s.spill := rfl
@[simp] theorem State.seeding_seq (s : State) (v : Word) : (s.seeding v).seq = s.seq := rfl
@[simp] theorem State.seeding_cur (s : State) (v : Word) : (s.seeding v).cur = s.cur := rfl
@[simp] theorem State.seeding_attempting (s : State) (v : Word) : (s.seeding v).attempting = s.attempting := rfl
@[simp] theorem State.seeding_rem (s : State) (v : Word) : (s.seeding v).rem = s.rem := rfl
@[simp] theorem State.seeding_delivered (s : State) (v : Word) : (s.seeding v).delivered = s.delivered := rfl
@[simp] theorem State.seeding_rej (s : State) (v : Word) : (s.seeding v).rej = s.rej := rfl
@[simp] theorem State.seeding_rspq (s : State) (v : Word) : (s.seeding v).rspq = s.rspq := rfl
@[simp] theorem State.seeding_chan (s : State) (v : Word) : (s.seeding v).chan = s.chan := rfl
@[simp] theorem State.seeding_turns (s : State) (v : Word) : (s.seeding v).turns = s.turns := rfl
@[simp] theorem State.seeding_taken (s : State) (v : Word) : (s.seeding v).taken = s.taken := rfl

/-! ### `bumpIdx` -/

@[simp] theorem State.bumpIdx_cfg (s : State) (k : Nat) : (s.bumpIdx k).cfg = s.cfg := rfl
@[simp] theorem State.bumpIdx_sv (s : State) (k : Nat) : (s.bumpIdx k).sv = s.sv := rfl
@[simp] theorem State.bumpIdx_idx (s : State) (k : Nat) : (s.bumpIdx k).idx = if k + 1 = s.cfg.n then 0 else k + 1 := rfl
@[simp] theorem State.bumpIdx_spill (s : State) (k : Nat) : (s.bumpIdx k).spill = s.spill := rfl
@[simp] theorem State.bumpIdx_seq (s : State) (k : Nat) : (s.bumpIdx k).seq = s.seq := rfl
@[simp] theorem State.bumpIdx_cur (s : State) (k : Nat) : (s.bumpIdx k).cur = s.cur := rfl
@[simp] theorem State.bumpIdx_attempting (s : State) (k : Nat) : (s.bumpIdx k).attempting = s.attempting := rfl
@[simp] theorem State.bumpIdx_rem (s : State) (k : Nat) : (s.bumpIdx k).rem = s.rem := rfl
@[simp] theorem State.bumpIdx_delivered (s : State) (k : Nat) : (s.bumpIdx k).delivered = s.delivered := rfl
@[simp] theorem State.bumpIdx_rej (s : State) (k : Nat) : (s.bumpIdx k).rej = s.rej := rfl
@[simp] theorem State.bumpIdx_rspq (s : State) (k : Nat) : (s.bumpIdx k).rspq = s.rspq := rfl
@[simp] theorem State.bumpIdx_chan (s : State) (k : Nat) : (s.bumpIdx k).chan = s.chan := rfl
@[simp] theorem State.bumpIdx_turns (s : State) (k : Nat) : (s.bumpIdx k).turns = s.turns := rfl
@[simp] theorem State.bumpIdx_taken (s : State) (k : Nat) : (s.bumpIdx k).taken = s.taken := rfl

/-! ### `emit` -/

@[simp] theorem State.emit_cfg (s : State) (c : Status) (d : Word) (l : Bool) : (s.emit c d l).cfg = s.cfg := rfl
@[simp] theorem State.emit_sv (s : State) (c : Status) (d : Word) (l : Bool) : (s.emit c d l).sv = s.sv := rfl
@[simp] theorem State.emit_idx (s : State) (c : Status) (d : Word) (l : Bool) : (s.emit c d l).idx = s.idx := rfl
@[simp] theorem State.emit_spill (s : State) (c : Status) (d : Word) (l : Bool) : (s.emit c d l).spill = s.spill := rfl
@[simp] theorem State.emit_seq (s : State) (c : Status) (d : Word) (l : Bool) : (s.emit c d l).seq = s.seq := rfl
@[simp] theorem State.emit_cur (s : State) (c : Status) (d : Word) (l : Bool) : (s.emit c d l).cur = s.cur := rfl
@[simp] theorem State.emit_attempting (s : State) (c : Status) (d : Word) (l : Bool) : (s.emit c d l).attempting = s.attempting := rfl
@[simp] theorem State.emit_rem (s : State) (c : Status) (d : Word) (l : Bool) : (s.emit c d l).rem = s.rem := rfl
@[simp] theorem State.emit_delivered (s : State) (c : Status) (d : Word) (l : Bool) : (s.emit c d l).delivered = s.delivered := rfl
@[simp] theorem State.emit_rej (s : State) (c : Status) (d : Word) (l : Bool) : (s.emit c d l).rej = s.rej := rfl
@[simp] theorem State.emit_rspq (s : State) (c : Status) (d : Word) (l : Bool) : (s.emit c d l).rspq = s.rspq ++ [⟨c, d, l⟩] := rfl
@[simp] theorem State.emit_chan (s : State) (c : Status) (d : Word) (l : Bool) : (s.emit c d l).chan = s.chan := rfl
@[simp] theorem State.emit_turns (s : State) (c : Status) (d : Word) (l : Bool) : (s.emit c d l).turns = s.turns := rfl
@[simp] theorem State.emit_taken (s : State) (c : Status) (d : Word) (l : Bool) : (s.emit c d l).taken = s.taken := rfl

/-! ### `finish` -/

@[simp] theorem State.finish_cfg (s : State) : (s.finish).cfg = s.cfg := rfl
@[simp] theorem State.finish_sv (s : State) : (s.finish).sv = s.sv := rfl
@[simp] theorem State.finish_idx (s : State) : (s.finish).idx = s.idx := rfl
@[simp] theorem State.finish_spill (s : State) : (s.finish).spill = s.spill := rfl
@[simp] theorem State.finish_seq (s : State) : (s.finish).seq = .idle := rfl
@[simp] theorem State.finish_cur (s : State) : (s.finish).cur = s.cur := rfl
@[simp] theorem State.finish_attempting (s : State) : (s.finish).attempting = s.attempting := rfl
@[simp] theorem State.finish_rem (s : State) : (s.finish).rem = s.rem := rfl
@[simp] theorem State.finish_delivered (s : State) : (s.finish).delivered = s.delivered := rfl
@[simp] theorem State.finish_rej (s : State) : (s.finish).rej = s.rej := rfl
@[simp] theorem State.finish_rspq (s : State) : (s.finish).rspq = s.rspq := rfl
@[simp] theorem State.finish_chan (s : State) : (s.finish).chan = s.chan := rfl
@[simp] theorem State.finish_turns (s : State) : (s.finish).turns = s.turns := rfl
@[simp] theorem State.finish_taken (s : State) : (s.finish).taken = s.taken := rfl

/-! ### `raiseUnsat` -/

@[simp] theorem State.raiseUnsat_cfg (s : State) : (s.raiseUnsat).cfg = s.cfg := rfl
@[simp] theorem State.raiseUnsat_sv (s : State) : (s.raiseUnsat).sv = s.sv := rfl
@[simp] theorem State.raiseUnsat_idx (s : State) : (s.raiseUnsat).idx = s.idx := rfl
@[simp] theorem State.raiseUnsat_spill (s : State) : (s.raiseUnsat).spill = s.spill := rfl
@[simp] theorem State.raiseUnsat_seq (s : State) : (s.raiseUnsat).seq = .idle := rfl
@[simp] theorem State.raiseUnsat_cur (s : State) : (s.raiseUnsat).cur = s.cur := rfl
@[simp] theorem State.raiseUnsat_attempting (s : State) : (s.raiseUnsat).attempting = s.attempting := rfl
@[simp] theorem State.raiseUnsat_rem (s : State) : (s.raiseUnsat).rem = s.rem := rfl
@[simp] theorem State.raiseUnsat_delivered (s : State) : (s.raiseUnsat).delivered = s.delivered := rfl
@[simp] theorem State.raiseUnsat_rej (s : State) : (s.raiseUnsat).rej = s.rej := rfl
@[simp] theorem State.raiseUnsat_rspq (s : State) : (s.raiseUnsat).rspq = s.rspq ++ [⟨.unsat, s.delivered, true⟩] := rfl
@[simp] theorem State.raiseUnsat_chan (s : State) : (s.raiseUnsat).chan = s.chan := rfl
@[simp] theorem State.raiseUnsat_turns (s : State) : (s.raiseUnsat).turns = s.turns := rfl
@[simp] theorem State.raiseUnsat_taken (s : State) : (s.raiseUnsat).taken = s.taken := rfl

/-! ### `startDraw` -/

@[simp] theorem State.startDraw_cfg (s : State) (c : Word) : (s.startDraw c).cfg = s.cfg := rfl
@[simp] theorem State.startDraw_sv (s : State) (c : Word) : (s.startDraw c).sv = s.sv := rfl
@[simp] theorem State.startDraw_idx (s : State) (c : Word) : (s.startDraw c).idx = s.idx := rfl
@[simp] theorem State.startDraw_spill (s : State) (c : Word) : (s.startDraw c).spill = s.spill := rfl
@[simp] theorem State.startDraw_seq (s : State) (c : Word) : (s.startDraw c).seq = s.seq := rfl
@[simp] theorem State.startDraw_cur (s : State) (c : Word) : (s.startDraw c).cur = s.cur := rfl
@[simp] theorem State.startDraw_attempting (s : State) (c : Word) : (s.startDraw c).attempting = true := rfl
@[simp] theorem State.startDraw_rem (s : State) (c : Word) : (s.startDraw c).rem = c := rfl
@[simp] theorem State.startDraw_delivered (s : State) (c : Word) : (s.startDraw c).delivered = 0#64 := rfl
@[simp] theorem State.startDraw_rej (s : State) (c : Word) : (s.startDraw c).rej = 0#64 := rfl
@[simp] theorem State.startDraw_rspq (s : State) (c : Word) : (s.startDraw c).rspq = s.rspq := rfl
@[simp] theorem State.startDraw_chan (s : State) (c : Word) : (s.startDraw c).chan = s.chan := rfl
@[simp] theorem State.startDraw_turns (s : State) (c : Word) : (s.startDraw c).turns = s.turns := rfl
@[simp] theorem State.startDraw_taken (s : State) (c : Word) : (s.startDraw c).taken = s.taken := rfl

/-! ### `deliver` -/

@[simp] theorem State.deliver_cfg (s : State) (d : Word) : (s.deliver d).cfg = s.cfg := by
  unfold State.deliver; dsimp only; split <;> rfl
@[simp] theorem State.deliver_sv (s : State) (d : Word) : (s.deliver d).sv = s.sv := by
  unfold State.deliver; dsimp only; split <;> rfl
@[simp] theorem State.deliver_idx (s : State) (d : Word) : (s.deliver d).idx = s.idx := by
  unfold State.deliver; dsimp only; split <;> rfl
@[simp] theorem State.deliver_spill (s : State) (d : Word) : (s.deliver d).spill = s.spill := by
  unfold State.deliver; dsimp only; split <;> rfl
@[simp] theorem State.deliver_seq (s : State) (d : Word) : (s.deliver d).seq = if s.rem - 1#64 = 0#64 then .idle else s.seq := by
  unfold State.deliver; dsimp only; split <;> rfl
@[simp] theorem State.deliver_cur (s : State) (d : Word) : (s.deliver d).cur = s.cur := by
  unfold State.deliver; dsimp only; split <;> rfl
@[simp] theorem State.deliver_attempting (s : State) (d : Word) : (s.deliver d).attempting = s.attempting := by
  unfold State.deliver; dsimp only; split <;> rfl
@[simp] theorem State.deliver_rem (s : State) (d : Word) : (s.deliver d).rem = s.rem - 1#64 := by
  unfold State.deliver; dsimp only; split <;> rfl
@[simp] theorem State.deliver_delivered (s : State) (d : Word) : (s.deliver d).delivered = s.delivered + 1#64 := by
  unfold State.deliver; dsimp only; split <;> rfl
@[simp] theorem State.deliver_rej (s : State) (d : Word) : (s.deliver d).rej = 0#64 := by
  unfold State.deliver; dsimp only; split <;> rfl
@[simp] theorem State.deliver_rspq (s : State) (d : Word) : (s.deliver d).rspq = s.rspq ++ [⟨.data, d, decide (s.rem - 1#64 = 0#64)⟩] := by
  unfold State.deliver; dsimp only; split <;> rfl
@[simp] theorem State.deliver_chan (s : State) (d : Word) : (s.deliver d).chan = s.chan := by
  unfold State.deliver; dsimp only; split <;> rfl
@[simp] theorem State.deliver_turns (s : State) (d : Word) : (s.deliver d).turns = s.turns := by
  unfold State.deliver; dsimp only; split <;> rfl
@[simp] theorem State.deliver_taken (s : State) (d : Word) : (s.deliver d).taken = s.taken := by
  unfold State.deliver; dsimp only; split <;> rfl

/-! ### `reject` -/

@[simp] theorem State.reject_cfg (s : State) : (s.reject).cfg = s.cfg := by
  unfold State.reject; dsimp only; split <;> rfl
@[simp] theorem State.reject_sv (s : State) : (s.reject).sv = s.sv := by
  unfold State.reject; dsimp only; split <;> rfl
@[simp] theorem State.reject_idx (s : State) : (s.reject).idx = s.idx := by
  unfold State.reject; dsimp only; split <;> rfl
@[simp] theorem State.reject_spill (s : State) : (s.reject).spill = s.spill := by
  unfold State.reject; dsimp only; split <;> rfl
@[simp] theorem State.reject_seq (s : State) : (s.reject).seq = if s.cfg.retryCap = some (s.rej + 1#64) then .idle else s.seq := by
  unfold State.reject; dsimp only; split <;> rfl
@[simp] theorem State.reject_cur (s : State) : (s.reject).cur = s.cur := by
  unfold State.reject; dsimp only; split <;> rfl
@[simp] theorem State.reject_attempting (s : State) : (s.reject).attempting = s.attempting := by
  unfold State.reject; dsimp only; split <;> rfl
@[simp] theorem State.reject_rem (s : State) : (s.reject).rem = s.rem := by
  unfold State.reject; dsimp only; split <;> rfl
@[simp] theorem State.reject_delivered (s : State) : (s.reject).delivered = s.delivered := by
  unfold State.reject; dsimp only; split <;> rfl
@[simp] theorem State.reject_rej (s : State) : (s.reject).rej = s.rej + 1#64 := by
  unfold State.reject; dsimp only; split <;> rfl
@[simp] theorem State.reject_rspq (s : State) : (s.reject).rspq = if s.cfg.retryCap = some (s.rej + 1#64)
      then s.rspq ++ [⟨.unsat, s.delivered, true⟩] else s.rspq := by
  unfold State.reject; dsimp only; split <;> rfl
@[simp] theorem State.reject_chan (s : State) : (s.reject).chan = s.chan := by
  unfold State.reject; dsimp only; split <;> rfl
@[simp] theorem State.reject_turns (s : State) : (s.reject).turns = s.turns := by
  unfold State.reject; dsimp only; split <;> rfl
@[simp] theorem State.reject_taken (s : State) : (s.reject).taken = s.taken := by
  unfold State.reject; dsimp only; split <;> rfl

/-! ### `assertReset` -/

@[simp] theorem State.assertReset_cfg (s : State) : (s.assertReset).cfg = s.cfg := rfl
@[simp] theorem State.assertReset_sv (s : State) : (s.assertReset).sv = s.sv := rfl
@[simp] theorem State.assertReset_idx (s : State) : (s.assertReset).idx = s.idx := rfl
@[simp] theorem State.assertReset_spill (s : State) : (s.assertReset).spill = s.spill := rfl
@[simp] theorem State.assertReset_seq (s : State) : (s.assertReset).seq = .resetting := rfl
@[simp] theorem State.assertReset_cur (s : State) : (s.assertReset).cur = s.cur := rfl
@[simp] theorem State.assertReset_attempting (s : State) : (s.assertReset).attempting = s.attempting := rfl
@[simp] theorem State.assertReset_rem (s : State) : (s.assertReset).rem = s.rem := rfl
@[simp] theorem State.assertReset_delivered (s : State) : (s.assertReset).delivered = s.delivered := rfl
@[simp] theorem State.assertReset_rej (s : State) : (s.assertReset).rej = s.rej := rfl
@[simp] theorem State.assertReset_rspq (s : State) : (s.assertReset).rspq = [] := rfl
@[simp] theorem State.assertReset_chan (s : State) : (s.assertReset).chan = s.chan := rfl
@[simp] theorem State.assertReset_turns (s : State) : (s.assertReset).turns = s.turns := rfl
@[simp] theorem State.assertReset_taken (s : State) : (s.assertReset).taken = s.taken := rfl

/-! ### `resetSeeding` -/

@[simp] theorem State.resetSeeding_cfg (s : State) : (s.resetSeeding).cfg = s.cfg := rfl
@[simp] theorem State.resetSeeding_sv (s : State) : (s.resetSeeding).sv = seedWords s.cfg s.cfg.defaultSeed := rfl
@[simp] theorem State.resetSeeding_idx (s : State) : (s.resetSeeding).idx = 0 := rfl
@[simp] theorem State.resetSeeding_spill (s : State) : (s.resetSeeding).spill = 0#64 := rfl
@[simp] theorem State.resetSeeding_seq (s : State) : (s.resetSeeding).seq = .idle := rfl
@[simp] theorem State.resetSeeding_cur (s : State) : (s.resetSeeding).cur = ⟨0#32, 0#64⟩ := rfl
@[simp] theorem State.resetSeeding_attempting (s : State) : (s.resetSeeding).attempting = false := rfl
@[simp] theorem State.resetSeeding_rem (s : State) : (s.resetSeeding).rem = 0#64 := rfl
@[simp] theorem State.resetSeeding_delivered (s : State) : (s.resetSeeding).delivered = 0#64 := rfl
@[simp] theorem State.resetSeeding_rej (s : State) : (s.resetSeeding).rej = 0#64 := rfl
@[simp] theorem State.resetSeeding_rspq (s : State) : (s.resetSeeding).rspq = [] := rfl
@[simp] theorem State.resetSeeding_chan (s : State) : (s.resetSeeding).chan = s.chan := rfl
@[simp] theorem State.resetSeeding_turns (s : State) : (s.resetSeeding).turns = s.turns := rfl
@[simp] theorem State.resetSeeding_taken (s : State) : (s.resetSeeding).taken = s.taken := rfl

/-! ### `presentCommand` -/

@[simp] theorem State.presentCommand_cfg (s : State) (c : Command) : (s.presentCommand c).cfg = s.cfg := rfl
@[simp] theorem State.presentCommand_sv (s : State) (c : Command) : (s.presentCommand c).sv = s.sv := rfl
@[simp] theorem State.presentCommand_idx (s : State) (c : Command) : (s.presentCommand c).idx = s.idx := rfl
@[simp] theorem State.presentCommand_spill (s : State) (c : Command) : (s.presentCommand c).spill = s.spill := rfl
@[simp] theorem State.presentCommand_seq (s : State) (c : Command) : (s.presentCommand c).seq = s.seq := rfl
@[simp] theorem State.presentCommand_cur (s : State) (c : Command) : (s.presentCommand c).cur = s.cur := rfl
@[simp] theorem State.presentCommand_attempting (s : State) (c : Command) : (s.presentCommand c).attempting = s.attempting := rfl
@[simp] theorem State.presentCommand_rem (s : State) (c : Command) : (s.presentCommand c).rem = s.rem := rfl
@[simp] theorem State.presentCommand_delivered (s : State) (c : Command) : (s.presentCommand c).delivered = s.delivered := rfl
@[simp] theorem State.presentCommand_rej (s : State) (c : Command) : (s.presentCommand c).rej = s.rej := rfl
@[simp] theorem State.presentCommand_rspq (s : State) (c : Command) : (s.presentCommand c).rspq = s.rspq := rfl
@[simp] theorem State.presentCommand_chan (s : State) (c : Command) : (s.presentCommand c).chan = s.chan ++ [c] := rfl
@[simp] theorem State.presentCommand_turns (s : State) (c : Command) : (s.presentCommand c).turns = s.turns := rfl
@[simp] theorem State.presentCommand_taken (s : State) (c : Command) : (s.presentCommand c).taken = s.taken := rfl

/-! ### `withRunning` -/

@[simp] theorem State.withRunning_cfg (s : State) (c : Command) : (s.withRunning c).cfg = s.cfg := rfl
@[simp] theorem State.withRunning_sv (s : State) (c : Command) : (s.withRunning c).sv = s.sv := rfl
@[simp] theorem State.withRunning_idx (s : State) (c : Command) : (s.withRunning c).idx = s.idx := rfl
@[simp] theorem State.withRunning_spill (s : State) (c : Command) : (s.withRunning c).spill = s.spill := rfl
@[simp] theorem State.withRunning_seq (s : State) (c : Command) : (s.withRunning c).seq = .exec := rfl
@[simp] theorem State.withRunning_cur (s : State) (c : Command) : (s.withRunning c).cur = c := rfl
@[simp] theorem State.withRunning_attempting (s : State) (c : Command) : (s.withRunning c).attempting = false := rfl
@[simp] theorem State.withRunning_rem (s : State) (c : Command) : (s.withRunning c).rem = s.rem := rfl
@[simp] theorem State.withRunning_delivered (s : State) (c : Command) : (s.withRunning c).delivered = s.delivered := rfl
@[simp] theorem State.withRunning_rej (s : State) (c : Command) : (s.withRunning c).rej = s.rej := rfl
@[simp] theorem State.withRunning_rspq (s : State) (c : Command) : (s.withRunning c).rspq = s.rspq := rfl
@[simp] theorem State.withRunning_chan (s : State) (c : Command) : (s.withRunning c).chan = s.chan := rfl
@[simp] theorem State.withRunning_turns (s : State) (c : Command) : (s.withRunning c).turns = if s.turns = [] then [] else .core :: s.turns := rfl
@[simp] theorem State.withRunning_taken (s : State) (c : Command) : (s.withRunning c).taken = s.taken := rfl

/-! ### `popTurn` -/

@[simp] theorem State.popTurn_cfg (s : State) : (s.popTurn).cfg = s.cfg := rfl
@[simp] theorem State.popTurn_sv (s : State) : (s.popTurn).sv = s.sv := rfl
@[simp] theorem State.popTurn_idx (s : State) : (s.popTurn).idx = s.idx := rfl
@[simp] theorem State.popTurn_spill (s : State) : (s.popTurn).spill = s.spill := rfl
@[simp] theorem State.popTurn_seq (s : State) : (s.popTurn).seq = s.seq := rfl
@[simp] theorem State.popTurn_cur (s : State) : (s.popTurn).cur = s.cur := rfl
@[simp] theorem State.popTurn_attempting (s : State) : (s.popTurn).attempting = s.attempting := rfl
@[simp] theorem State.popTurn_rem (s : State) : (s.popTurn).rem = s.rem := rfl
@[simp] theorem State.popTurn_delivered (s : State) : (s.popTurn).delivered = s.delivered := rfl
@[simp] theorem State.popTurn_rej (s : State) : (s.popTurn).rej = s.rej := rfl
@[simp] theorem State.popTurn_rspq (s : State) : (s.popTurn).rspq = s.rspq := rfl
@[simp] theorem State.popTurn_chan (s : State) : (s.popTurn).chan = s.chan := rfl
@[simp] theorem State.popTurn_turns (s : State) : (s.popTurn).turns = s.turns.tail := rfl
@[simp] theorem State.popTurn_taken (s : State) : (s.popTurn).taken = s.taken := rfl

/-! ### `takeBeat` -/

@[simp] theorem State.takeBeat_cfg (s : State) : (s.takeBeat).cfg = s.cfg := by
  unfold State.takeBeat; split <;> simp_all
@[simp] theorem State.takeBeat_sv (s : State) : (s.takeBeat).sv = s.sv := by
  unfold State.takeBeat; split <;> simp_all
@[simp] theorem State.takeBeat_idx (s : State) : (s.takeBeat).idx = s.idx := by
  unfold State.takeBeat; split <;> simp_all
@[simp] theorem State.takeBeat_spill (s : State) : (s.takeBeat).spill = s.spill := by
  unfold State.takeBeat; split <;> simp_all
@[simp] theorem State.takeBeat_seq (s : State) : (s.takeBeat).seq = s.seq := by
  unfold State.takeBeat; split <;> simp_all
@[simp] theorem State.takeBeat_cur (s : State) : (s.takeBeat).cur = s.cur := by
  unfold State.takeBeat; split <;> simp_all
@[simp] theorem State.takeBeat_attempting (s : State) : (s.takeBeat).attempting = s.attempting := by
  unfold State.takeBeat; split <;> simp_all
@[simp] theorem State.takeBeat_rem (s : State) : (s.takeBeat).rem = s.rem := by
  unfold State.takeBeat; split <;> simp_all
@[simp] theorem State.takeBeat_delivered (s : State) : (s.takeBeat).delivered = s.delivered := by
  unfold State.takeBeat; split <;> simp_all
@[simp] theorem State.takeBeat_rej (s : State) : (s.takeBeat).rej = s.rej := by
  unfold State.takeBeat; split <;> simp_all
@[simp] theorem State.takeBeat_rspq (s : State) : (s.takeBeat).rspq = s.rspq.tail := by
  unfold State.takeBeat; split <;> simp_all
@[simp] theorem State.takeBeat_chan (s : State) : (s.takeBeat).chan = s.chan := by
  unfold State.takeBeat; split <;> simp_all
@[simp] theorem State.takeBeat_turns (s : State) : (s.takeBeat).turns = s.turns := by
  unfold State.takeBeat; split <;> simp_all
@[simp] theorem State.takeBeat_taken (s : State) : (s.takeBeat).taken = s.taken ++ s.rspq.take 1 := by
  unfold State.takeBeat; split <;> simp_all

/-! ### `resetOf` -/

@[simp] theorem State.resetOf_cfg (cfg : Config) : (State.resetOf cfg).cfg = cfg := rfl
@[simp] theorem State.resetOf_sv (cfg : Config) : (State.resetOf cfg).sv = seedWords cfg cfg.defaultSeed := rfl
@[simp] theorem State.resetOf_idx (cfg : Config) : (State.resetOf cfg).idx = 0 := rfl
@[simp] theorem State.resetOf_spill (cfg : Config) : (State.resetOf cfg).spill = 0#64 := rfl
@[simp] theorem State.resetOf_seq (cfg : Config) : (State.resetOf cfg).seq = .idle := rfl
@[simp] theorem State.resetOf_cur (cfg : Config) : (State.resetOf cfg).cur = ⟨0#32, 0#64⟩ := rfl
@[simp] theorem State.resetOf_attempting (cfg : Config) : (State.resetOf cfg).attempting = false := rfl
@[simp] theorem State.resetOf_rem (cfg : Config) : (State.resetOf cfg).rem = 0#64 := rfl
@[simp] theorem State.resetOf_delivered (cfg : Config) : (State.resetOf cfg).delivered = 0#64 := rfl
@[simp] theorem State.resetOf_rej (cfg : Config) : (State.resetOf cfg).rej = 0#64 := rfl
@[simp] theorem State.resetOf_rspq (cfg : Config) : (State.resetOf cfg).rspq = [] := rfl
@[simp] theorem State.resetOf_chan (cfg : Config) : (State.resetOf cfg).chan = [] := rfl
@[simp] theorem State.resetOf_turns (cfg : Config) : (State.resetOf cfg).turns = [] := rfl
@[simp] theorem State.resetOf_taken (cfg : Config) : (State.resetOf cfg).taken = [] := rfl

/-! ### `acceptCommand`, by what the channel holds -/

theorem State.acceptCommand_nil {s : State} (h : s.chan = []) : s.acceptCommand = s := by
  simp [State.acceptCommand, h]

theorem State.acceptCommand_cons {s : State} {c : Command} {rest : List Command}
    (h : s.chan = c :: rest) :
    s.acceptCommand = { s with cur := c, seq := .exec, attempting := false, chan := rest } := by
  simp [State.acceptCommand, h]

@[simp] theorem State.acceptCommand_cfg (s : State) : s.acceptCommand.cfg = s.cfg := by
  unfold State.acceptCommand; split <;> rfl
@[simp] theorem State.acceptCommand_sv (s : State) : s.acceptCommand.sv = s.sv := by
  unfold State.acceptCommand; split <;> rfl
@[simp] theorem State.acceptCommand_idx (s : State) : s.acceptCommand.idx = s.idx := by
  unfold State.acceptCommand; split <;> rfl
@[simp] theorem State.acceptCommand_spill (s : State) : s.acceptCommand.spill = s.spill := by
  unfold State.acceptCommand; split <;> rfl
@[simp] theorem State.acceptCommand_rem (s : State) : s.acceptCommand.rem = s.rem := by
  unfold State.acceptCommand; split <;> rfl
@[simp] theorem State.acceptCommand_delivered (s : State) : s.acceptCommand.delivered = s.delivered := by
  unfold State.acceptCommand; split <;> rfl
@[simp] theorem State.acceptCommand_rej (s : State) : s.acceptCommand.rej = s.rej := by
  unfold State.acceptCommand; split <;> rfl
@[simp] theorem State.acceptCommand_rspq (s : State) : s.acceptCommand.rspq = s.rspq := by
  unfold State.acceptCommand; split <;> rfl
@[simp] theorem State.acceptCommand_turns (s : State) : s.acceptCommand.turns = s.turns := by
  unfold State.acceptCommand; split <;> rfl
@[simp] theorem State.acceptCommand_taken (s : State) : s.acceptCommand.taken = s.taken := by
  unfold State.acceptCommand; split <;> rfl

/-! ### Readings -/

@[simp] theorem State.hasRoom_iff (s : State) :
    s.hasRoom = true ↔ s.rspq.length < s.cfg.rspDepth := by
  simp [State.hasRoom]

@[simp] theorem State.hasRoom_popTurn (s : State) : s.popTurn.hasRoom = s.hasRoom := rfl

@[simp] theorem State.busy_iff (s : State) : s.busy = true ↔ s.seq ≠ .idle := by
  cases h : s.seq <;> simp [State.busy, h]

end Sys2Proof.Machine
end

