-- ==== Sys2Proof/Laws/Ops.lean ====
section
/-! SUPPORT. What each shared operation of the machine can do, said once: an equation where the
storage is sound, and an inversion where it answers.  Later proofs cite these and do not unfold. -/

namespace Sys2Proof.Machine

/-! ### Well-formed configurations -/

theorem Config.wf_sizes {cfg : Config} (h : cfg.wf = true) : 1 ≤ cfg.m ∧ cfg.m < cfg.n := by
  simp [Config.wf, Config.okSizes] at h; exact h.1.1.1.1.1.1

theorem Config.wf_width {cfg : Config} (h : cfg.wf = true) :
    cfg.w = 64 ∧ 0 < cfg.r ∧ cfg.r < cfg.w := by
  simp [Config.wf, Config.okWidth, Config.okLowerMask] at h; omega

theorem Config.wf_shifts {cfg : Config} (h : cfg.wf = true) :
    (1 ≤ cfg.u ∧ cfg.u ≤ 63) ∧ (1 ≤ cfg.s ∧ cfg.s ≤ 63) ∧ (1 ≤ cfg.t ∧ cfg.t ≤ 63) ∧
      (1 ≤ cfg.l ∧ cfg.l ≤ 63) := by
  simp [Config.wf, Config.okShifts, okShift] at h
  exact ⟨h.1.1.1.2.1.1.1, h.1.1.1.2.1.1.2, h.1.1.1.2.1.2, h.1.1.1.2.2⟩

theorem Config.wf_window {cfg : Config} (h : cfg.wf = true) : cfg.lb.toNat ≤ cfg.ub.toNat := by
  simp [Config.wf, Config.okWindow] at h; exact h.1.1.2

theorem Config.wf_depth {cfg : Config} (h : cfg.wf = true) : 1 ≤ cfg.rspDepth := by
  simp [Config.wf, Config.okDepth] at h; exact h.1.2

theorem Config.wf_cap {cfg : Config} (h : cfg.wf = true) : cfg.retryCap ≠ some 0#64 := by
  simp [Config.wf, Config.okCap] at h; exact h.2

/-! ### Sound storage -/

/-- Sound storage is a matter of the configuration, SV and IDX alone. -/
theorem StorageOk.congr {s t : State} (h : StorageOk s) (hcfg : t.cfg = s.cfg) (hsv : t.sv = s.sv)
    (hidx : t.idx = s.idx) : StorageOk t :=
  ⟨hcfg ▸ h.cfg_wf, by rw [hcfg, hsv]; exact h.sv_length, by rw [hcfg, hidx]; exact h.idx_lt⟩

/-! ### SV accesses -/

theorem State.readSV_ok_iff {s : State} {i : Nat} {v : Word} :
    s.readSV i = .ok v ↔ s.sv[i]? = some v := by
  unfold State.readSV; split <;> simp_all

theorem State.writeSV_ok_iff {s s' : State} {i : Nat} {v : Word} :
    s.writeSV i v = .ok s' ↔ i < s.sv.length ∧ s' = { s with sv := s.sv.set i v } := by
  unfold State.writeSV; split <;> simp_all [eq_comm]

/-! ### The write-ahead -/

/-- SV after the write-ahead of `v` at the cursor `k` (R124). -/
def State.svAhead (s : State) (k : Nat) (v : Word) : List Word :=
  if k + 1 < s.cfg.n then s.sv.set (k + 1) v
  else if s.cfg.writeAhead = .wrap then s.sv.set 0 v
  else s.sv

/-- SPILL after the write-ahead of `v` at the cursor `k` (R124). -/
def State.spillAhead (s : State) (k : Nat) (v : Word) : Word :=
  if k + 1 < s.cfg.n then s.spill
  else if s.cfg.writeAhead = .wrap then s.spill
  else v

@[simp] theorem State.svAhead_length (s : State) (k : Nat) (v : Word) :
    (s.svAhead k v).length = s.sv.length := by
  unfold State.svAhead; split
  · simp
  · split <;> simp

theorem State.writeAhead_ok {s s' : State} {k : Nat} {v : Word} (h : s.writeAhead k v = .ok s') :
    s' = { s with sv := s.svAhead k v, spill := s.spillAhead k v } := by
  unfold State.writeAhead at h
  unfold State.svAhead State.spillAhead
  by_cases hk : k + 1 < s.cfg.n
  · rw [if_pos hk, State.writeSV_ok_iff] at h
    simp [hk, h.2]
  · cases hw : s.cfg.writeAhead with
    | spill => simpa [hk, hw, eq_comm] using h
    | wrap =>
      rw [if_neg hk, hw] at h
      simp [hk, (State.writeSV_ok_iff.1 h).2]

theorem State.writeAhead_of_length {s : State} {k : Nat} (v : Word)
    (hlen : s.sv.length = s.cfg.n) (hk : k < s.cfg.n) :
    s.writeAhead k v = .ok { s with sv := s.svAhead k v, spill := s.spillAhead k v } := by
  unfold State.writeAhead State.svAhead State.spillAhead State.writeSV
  split
  · simp_all
  · split
    · simp_all
    · have : 0 < s.sv.length := by omega
      simp_all

/-! ### ADVANCE -/

/-- What ADVANCE can do when it answers: the words it read, the word it wrote, and its frame. -/
theorem State.advance_ok {s s' : State} {z : Word} (h : s.advance = .ok (z, s')) :
    ∃ svk svj svj2 : Word,
      s.sv[s.idx]? = some svk ∧
      s.sv[(s.idx + 1) % s.cfg.n]? = some svj ∧
      s.sv[(s.idx + s.cfg.m) % s.cfg.n]? = some svj2 ∧
      z = temper s.cfg (mixWord s.cfg svk svj) ∧
      s' = { s with
        sv := s.svAhead s.idx (svj2 ^^^ twist s.cfg (mixWord s.cfg svk svj))
        spill := s.spillAhead s.idx (svj2 ^^^ twist s.cfg (mixWord s.cfg svk svj))
        idx := if s.idx + 1 = s.cfg.n then 0 else s.idx + 1 } := by
  unfold State.advance at h
  simp only [bind, Except.bind, modN_pred, modN_sub] at h
  split at h
  · cases h
  rename_i svk hk
  split at h
  · cases h
  rename_i svj hj
  split at h
  · cases h
  rename_i svj2 hj2
  split at h
  · cases h
  rename_i t ht
  obtain rfl := State.writeAhead_ok ht
  simp only [pure, Except.pure, Except.ok.injEq, Prod.mk.injEq] at h
  obtain ⟨rfl, rfl⟩ := h
  exact ⟨svk, svj, svj2, State.readSV_ok_iff.1 hk, State.readSV_ok_iff.1 hj,
    State.readSV_ok_iff.1 hj2, rfl, rfl⟩

/-- ADVANCE answers wherever the storage is sound. -/
theorem State.advance_of_storage {s : State} (hs : StorageOk s) :
    ∃ z s', s.advance = .ok (z, s') := by
  have hn : 0 < s.cfg.n := by have := hs.idx_lt; omega
  have get : ∀ i, i < s.cfg.n → ∃ v, s.readSV i = .ok v := fun i hi =>
    ⟨s.sv[i]'(by rw [hs.sv_length]; exact hi), by rw [State.readSV_ok_iff]; simp⟩
  obtain ⟨svk, hk⟩ := get s.idx hs.idx_lt
  obtain ⟨svj, hj⟩ := get _ (Nat.mod_lt (s.idx + 1) hn)
  obtain ⟨svj2, hj2⟩ := get _ (Nat.mod_lt (s.idx + s.cfg.m) hn)
  unfold State.advance
  simp only [bind, Except.bind, modN_pred, modN_sub, hk, hj, hj2,
    State.writeAhead_of_length _ hs.sv_length hs.idx_lt]
  exact ⟨_, _, rfl⟩

/-- ADVANCE keeps the storage sound. -/
theorem State.advance_storage {s s' : State} {z : Word} (h : s.advance = .ok (z, s'))
    (hs : StorageOk s) : StorageOk s' := by
  obtain ⟨svk, svj, svj2, -, -, -, -, rfl⟩ := State.advance_ok h
  have := hs.idx_lt
  refine ⟨hs.cfg_wf, ?_, ?_⟩
  · simpa using hs.sv_length
  · dsimp only; split <;> omega

/-- The frame of ADVANCE: everything but SV, SPILL and IDX is as it was. -/
theorem State.advance_frame {s s' : State} {z : Word} (h : s.advance = .ok (z, s')) :
    s' = { s with sv := s'.sv, spill := s'.spill, idx := s'.idx } := by
  obtain ⟨svk, svj, svj2, -, -, -, -, rfl⟩ := State.advance_ok h
  rfl

/-- ADVANCE depends on the configuration, SV and IDX alone. -/
theorem State.advance_congr {s t : State} (hcfg : s.cfg = t.cfg) (hsv : s.sv = t.sv)
    (hidx : s.idx = t.idx) :
    (∃ f, s.advance = .error f ∧ t.advance = .error f) ∨
    (∃ z s' t', s.advance = .ok (z, s') ∧ t.advance = .ok (z, t') ∧ s'.sv = t'.sv ∧
      s'.idx = t'.idx) := by
  have read : ∀ i, s.readSV i = t.readSV i := fun i => by simp [State.readSV, hsv]
  unfold State.advance
  simp only [bind, Except.bind, read, hcfg, hidx]
  split
  · exact .inl ⟨_, rfl, rfl⟩
  split
  · exact .inl ⟨_, rfl, rfl⟩
  split
  · exact .inl ⟨_, rfl, rfl⟩
  unfold State.writeAhead State.writeSV
  rw [hcfg, hsv]
  by_cases hk : t.idx + 1 < t.cfg.n
  · by_cases hl : t.idx + 1 < t.sv.length
    · simp only [hk, hl, if_true]
      exact .inr ⟨_, _, _, rfl, rfl, by simp, by simp⟩
    · exact .inl ⟨.svIndexOutOfRange, by simp [hk, hl], by simp [hk, hl]⟩
  · simp only [hk, if_false]
    cases t.cfg.writeAhead with
    | spill => exact .inr ⟨_, _, _, rfl, rfl, by simp, by simp⟩
    | wrap =>
      by_cases hl : 0 < t.sv.length
      · simp only [hl, if_true]
        exact .inr ⟨_, _, _, rfl, rfl, by simp, by simp⟩
      · exact .inl ⟨.svIndexOutOfRange, by simp [hl], by simp [hl]⟩

/-- ADVANCE neither reads nor writes the host's schedule: it answers the same raw word and the same
storage whatever turns are to come. -/
theorem State.advance_of_popTurn {s t : State} {z : Word} (h : s.popTurn.advance = .ok (z, t)) :
    ∃ u, s.advance = .ok (z, u) ∧ u.sv = t.sv ∧ u.idx = t.idx ∧ u.spill = t.spill := by
  obtain ⟨svk, svj, svj2, hk, hj, hj2, -, rfl⟩ := State.advance_ok h
  rcases State.advance_congr (s := s.popTurn) (t := s) (by simp) (by simp) (by simp) with
    ⟨f, hf, -⟩ | ⟨z', s', u, h', hu, -, -⟩
  · rw [hf] at h; cases h
  · rw [h'] at h; cases h
    obtain ⟨_, _, _, ek, ej, ej2, -, rfl⟩ := State.advance_ok hu
    rw [State.popTurn_sv, State.popTurn_idx] at hk
    rw [State.popTurn_sv, State.popTurn_idx, State.popTurn_cfg] at hj hj2
    rw [hk] at ek; rw [hj] at ej; rw [hj2] at ej2
    cases ek; cases ej; cases ej2
    exact ⟨_, hu, rfl, rfl, rfl⟩

/-- Which storage one advance can touch: IDX moves on by one modulo N, and no entry of SV but the one
there changes; at the wrap SPILL or `SV[0]` is written, by WRITE_AHEAD. -/
theorem State.advance_touches {s s' : State} {z : Word} (h : s.advance = .ok (z, s'))
    (hidx : s.idx < s.cfg.n) :
    s'.idx = (s.idx + 1) % s.cfg.n ∧ s'.sv.length = s.sv.length ∧
      (∀ i, i ≠ (s.idx + 1) % s.cfg.n → s'.sv[i]? = s.sv[i]?) ∧
      (s.idx + 1 < s.cfg.n → s'.spill = s.spill) ∧
      (s.idx + 1 = s.cfg.n → s.cfg.writeAhead = .spill → s'.sv = s.sv) ∧
      (s.cfg.writeAhead = .wrap → s'.spill = s.spill) := by
  obtain ⟨svk, svj, svj2, -, -, -, -, rfl⟩ := State.advance_ok h
  dsimp only [State.svAhead, State.spillAhead]
  by_cases hk : s.idx + 1 < s.cfg.n
  · rw [Nat.mod_eq_of_lt hk, if_neg (by omega)]
    simp only [hk, if_true]
    exact ⟨trivial, by simp, fun i hi => List.getElem?_set_ne (by omega), fun _ => trivial,
      fun _ => by omega, fun _ => trivial⟩
  · have hn : s.idx + 1 = s.cfg.n := by omega
    rw [hn, Nat.mod_self]
    by_cases hw : s.cfg.writeAhead = .wrap
    · refine ⟨by simp, by simp [hw], fun i hi => ?_, by simp, by simp [hw], by simp [hw]⟩
      simpa [hw] using List.getElem?_set_ne (Ne.symm hi)
    · exact ⟨by simp, by simp [hw], by simp [hw], by simp, by simp [hw], by simp [hw]⟩

/-! ### Seeding -/

theorem State.seeding_storage (s : State) (v : Word) (hwf : s.cfg.wf = true) :
    StorageOk (s.seeding v) := by
  have := Config.wf_sizes hwf
  exact ⟨hwf, seedWords_length _ _ (by omega), by simp; omega⟩

theorem State.resetOf_storage (cfg : Config) (hwf : cfg.wf = true) :
    StorageOk (State.resetOf cfg) := by
  have := Config.wf_sizes hwf
  exact ⟨hwf, seedWords_length _ _ (by omega), by simp; omega⟩

/-! ### Steps that emit -/

theorem State.whenRoom_of_room {s : State} (h : s.hasRoom = true)
    (act : State → Host.Outcome State Fault Refusal) : s.whenRoom act = act s := by
  simp [State.whenRoom, h]

theorem State.whenRoom_of_full {s : State} (h : s.hasRoom = false)
    (act : State → Host.Outcome State Fault Refusal) : s.whenRoom act = .next s := by
  simp [State.whenRoom, h]

/-- What an attempt step can do (R153): hold, fault at a bad index, or advance and deliver or
reject. -/
theorem State.attempt_cases (s : State) (result : Word → Word) :
    (s.hasRoom = false ∧ s.attempt result = .next s) ∨
    (s.hasRoom = true ∧ ∃ f, s.advance = .error f ∧ s.attempt result = .fault f) ∨
    (s.hasRoom = true ∧ ∃ z t, s.advance = .ok (z, t) ∧ accept s.cfg z = true ∧
      s.attempt result = .next (t.deliver (result z))) ∨
    (s.hasRoom = true ∧ ∃ z t, s.advance = .ok (z, t) ∧ accept s.cfg z = false ∧
      s.attempt result = .next t.reject) := by
  cases hroom : s.hasRoom with
  | false => exact .inl ⟨rfl, State.whenRoom_of_full hroom _⟩
  | true =>
    right
    unfold State.attempt
    rw [State.whenRoom_of_room hroom]
    cases hadv : s.advance with
    | error f => exact .inl ⟨rfl, f, rfl, rfl⟩
    | ok zt =>
      obtain ⟨z, t⟩ := zt
      right
      cases hacc : accept s.cfg z with
      | true => exact .inl ⟨rfl, z, t, rfl, hacc, by simp [hacc]⟩
      | false => exact .inr ⟨rfl, z, t, rfl, hacc, by simp [hacc]⟩

end Sys2Proof.Machine
end

