-- ==== Sys2Proof/Laws/Exec.lean ====
section
/-! SUPPORT. What an instruction and a step can do, said once: `exec_case` and `step_case` list every
way they can end, guards included.  Later proofs are case analyses of these. -/

namespace Sys2Proof.Machine

/-- Every way `exec i s` can end. -/
inductive ExecCase (i : Instr) (s : State) : Host.Outcome State Fault Refusal → Prop where
  | held (full : s.hasRoom = false) : ExecCase i s (.next s)
  | badIndex (f : Fault) (room : s.hasRoom = true) (adv : s.advance = .error f) :
      ExecCase i s (.fault f)
  | seeded (v : Word) (which : i = .seed v ∨ i = .seeddef ∧ v = s.cfg.defaultSeed)
      (room : s.hasRoom = true) :
      ExecCase i s (.next ((s.seeding v).emit .done 0#64 true).finish)
  | rawWord (z : Word) (t : State) (which : i = .next) (room : s.hasRoom = true)
      (adv : s.advance = .ok (z, t)) : ExecCase i s (.next (t.emit .data z true).finish)
  | emptyDraw (which : i = .draw 0#64) (room : s.hasRoom = true) (first : s.attempting = false) :
      ExecCase i s (.next (s.emit .done 0#64 true).finish)
  | started (count : Word) (which : drawCountOf i = some count) (ne : count ≠ 0#64)
      (first : s.attempting = false) : ExecCase i s (.next (s.startDraw count))
  | delivered (z data : Word) (t : State) (which : (drawCountOf i).isSome = true)
      (room : s.hasRoom = true) (running : s.attempting = true) (adv : s.advance = .ok (z, t))
      (acc : accept s.cfg z = true) (plain : ∀ count, i = .draw count → data = z) :
      ExecCase i s (.next (t.deliver data))
  | rejected (z : Word) (t : State) (which : (drawCountOf i).isSome = true)
      (room : s.hasRoom = true) (running : s.attempting = true) (adv : s.advance = .ok (z, t))
      (rej : accept s.cfg z = false) : ExecCase i s (.next t.reject)

/-- The attempt step of a draw instruction is one of the cases. -/
theorem attempt_case (i : Instr) (s : State) (result : Word → Word)
    (which : (drawCountOf i).isSome = true) (running : s.attempting = true)
    (plain : ∀ count, i = .draw count → ∀ z, result z = z) :
    ExecCase i s (s.attempt result) := by
  rcases State.attempt_cases s result with ⟨hr, h⟩ | ⟨hr, f, ha, h⟩ | ⟨hr, z, t, ha, hc, h⟩ |
    ⟨hr, z, t, ha, hc, h⟩ <;> rw [h]
  · exact .held hr
  · exact .badIndex f hr ha
  · exact .delivered z _ t which hr running ha hc fun count hi => plain count hi z
  · exact .rejected z t which hr running ha hc

/-- `exec` does one of the cases. -/
theorem exec_case (i : Instr) (s : State) : ExecCase i s (exec i s) := by
  have draws : ∀ (count : Word) (result : Word → Word), drawCountOf i = some count →
      count ≠ 0#64 → (∀ c, i = .draw c → ∀ z, result z = z) →
      ExecCase i s (if s.attempting then s.attempt result else .next (s.startDraw count)) := by
    intro count result hi hc hp
    cases ha : s.attempting with
    | true => exact attempt_case i s result (by simp [hi]) ha hp
    | false => exact .started count hi hc ha
  have emits : ∀ act : State → Host.Outcome State Fault Refusal,
      (s.hasRoom = true → ExecCase i s (act s)) → ExecCase i s (s.whenRoom act) := by
    intro act h
    cases hr : s.hasRoom with
    | true => rw [State.whenRoom_of_room hr]; exact h hr
    | false => rw [State.whenRoom_of_full hr]; exact .held hr
  cases i with
  | seed v =>
    simp only [exec, execSeed]
    exact emits _ fun hr => .seeded v (.inl rfl) hr
  | seeddef =>
    simp only [exec, execSeeddef]
    exact emits _ fun hr => .seeded _ (.inr ⟨rfl, rfl⟩) hr
  | next =>
    simp only [exec, execNext]
    refine emits _ fun hr => ?_
    split
    · exact .badIndex _ hr ‹_›
    · exact .rawWord _ _ rfl hr ‹_›
  | draw count =>
    cases ha : s.attempting with
    | true =>
      simp only [exec, execDraw, ha, if_true]
      exact attempt_case _ s _ rfl ha fun _ _ _ => rfl
    | false =>
      by_cases hc : count = 0#64
      · subst hc
        simp only [exec, execDraw, ha, Bool.false_eq_true, if_false, if_true]
        exact emits _ fun hr => .emptyDraw rfl hr ha
      · simp only [exec, execDraw, ha, Bool.false_eq_true, if_false, hc]
        exact .started count rfl hc ha
  | rdbl r => exact draws _ _ rfl (by decide) (by simp)
  | rflt r => exact draws _ _ rfl (by decide) (by simp)
  | rint r => exact draws _ _ rfl (by decide) (by simp)

/-! ### The meanings as equations, where RSPQ has a free entry -/

theorem exec_seed_of_room {s : State} (h : s.hasRoom = true) (v : Word) :
    exec (.seed v) s = .next ((s.seeding v).emit .done 0#64 true).finish := by
  rw [exec, execSeed, State.whenRoom_of_room h]

theorem exec_seeddef_of_room {s : State} (h : s.hasRoom = true) :
    exec .seeddef s = .next ((s.seeding s.cfg.defaultSeed).emit .done 0#64 true).finish := by
  rw [exec, execSeeddef, State.whenRoom_of_room h]

theorem exec_next_of_advance {s t : State} {z : Word} (h : s.hasRoom = true)
    (adv : s.advance = .ok (z, t)) : exec .next s = .next (t.emit .data z true).finish := by
  rw [exec, execNext, State.whenRoom_of_room h, adv]

theorem attempt_of_accept {s t : State} {z : Word} (result : Word → Word) (h : s.hasRoom = true)
    (adv : s.advance = .ok (z, t)) (acc : accept s.cfg z = true) :
    s.attempt result = .next (t.deliver (result z)) := by
  rw [State.attempt, State.whenRoom_of_room h, adv]; simp [acc]

theorem attempt_of_reject {s t : State} {z : Word} (result : Word → Word) (h : s.hasRoom = true)
    (adv : s.advance = .ok (z, t)) (rej : accept s.cfg z = false) :
    s.attempt result = .next t.reject := by
  rw [State.attempt, State.whenRoom_of_room h, adv]; simp [rej]

/-- In its attempt steps every draw command is an attempt, with the RESULT of its own. -/
theorem exec_of_attempting {s : State} (h : s.attempting = true) :
    (∀ count, exec (.draw count) s = s.attempt fun z => z) ∧
    (∀ r, exec (.rdbl r) s = s.attempt (resultRdbl s.cfg r)) ∧
    (∀ r, exec (.rflt r) s = s.attempt (resultRflt s.cfg r)) ∧
    (∀ r, exec (.rint r) s = s.attempt (resultRint s.cfg r)) := by
  refine ⟨fun c => ?_, fun r => ?_, fun r => ?_, fun r => ?_⟩ <;>
    simp [exec, execDraw, execRdbl, execRflt, execRint, h]

/-! ### Steps -/

/-- Every way `step s` can end, in terms of the state with the schedule moved on. -/
inductive StepCase (s : State) : Host.Outcome State Fault Refusal → Prop where
  | badConfig (h : s.cfg.wf = false) : StepCase s (.refused .invalidConfig)
  | presented (c : Command) (wf : s.cfg.wf = true) (turn : s.turns.head? = some (.present c)) :
      StepCase s (.next (s.popTurn.presentCommand c))
  | taken (wf : s.cfg.wf = true) (turn : s.turns.head? = some .take) :
      StepCase s (.next s.popTurn.takeBeat)
  | reset (wf : s.cfg.wf = true) (turn : s.turns.head? = some .reset) :
      StepCase s (.next s.popTurn.assertReset)
  | reseeded (wf : s.cfg.wf = true) (turn : s.turn = .core) (seq : s.seq = .resetting) :
      StepCase s (.next s.popTurn.resetSeeding)
  | idle (wf : s.cfg.wf = true) (turn : s.turn = .core) (seq : s.seq = .idle) :
      StepCase s (.next s.popTurn.acceptCommand)
  | illegalHeld (r : Reject) (wf : s.cfg.wf = true) (turn : s.turn = .core) (seq : s.seq = .exec)
      (dec : decode s.cur = .error r) (full : s.hasRoom = false) : StepCase s (.next s.popTurn)
  | illegal (r : Reject) (wf : s.cfg.wf = true) (turn : s.turn = .core) (seq : s.seq = .exec)
      (dec : decode s.cur = .error r) (room : s.hasRoom = true) :
      StepCase s (.next (s.popTurn.emit .illegal (zext64 s.cur.cw) true).finish)
  | ran (i : Instr) (o : Host.Outcome State Fault Refusal) (wf : s.cfg.wf = true)
      (turn : s.turn = .core) (seq : s.seq = .exec) (dec : decode s.cur = .ok i)
      (run : exec i s.popTurn = o) (how : ExecCase i s.popTurn o) : StepCase s o

theorem step_of_core {s : State} (wf : s.cfg.wf = true) (turn : s.turn = .core) :
    step s = s.popTurn.coreStep := by
  simp [step, wf, State.playNext, turn, State.playTurn]

theorem State.turn_of_nil {s : State} (h : s.turns = []) : s.turn = .core := by
  simp [State.turn, h]

theorem State.popTurn_of_nil {s : State} (h : s.turns = []) : s.popTurn = s := by
  obtain ⟨⟩ := s; simp_all [State.popTurn]

/-- With no turn scheduled, the step is MTCORE's own. -/
theorem step_of_no_turns {s : State} (wf : s.cfg.wf = true) (h : s.turns = []) :
    step s = s.coreStep := by
  rw [step_of_core wf (State.turn_of_nil h), State.popTurn_of_nil h]

/-- `step` does one of the cases. -/
theorem step_case (s : State) : StepCase s (step s) := by
  cases wf : s.cfg.wf with
  | false => simp only [step, wf, Bool.false_eq_true, if_false]; exact .badConfig wf
  | true =>
    have head : ∀ t, s.turn = t → t ≠ .core → s.turns.head? = some t := by
      intro t ht hne
      cases hs : s.turns with
      | nil => simp [State.turn, hs] at ht; exact absurd ht.symm hne
      | cons a b => simp [State.turn, hs] at ht; simp [ht]
    cases turn : s.turn with
    | present c =>
      simp only [step, wf, if_true, State.playNext, turn]
      exact .presented c wf (head _ turn (by simp))
    | take =>
      simp only [step, wf, if_true, State.playNext, turn]
      exact .taken wf (head _ turn (by simp))
    | reset =>
      simp only [step, wf, if_true, State.playNext, turn]
      exact .reset wf (head _ turn (by simp))
    | core =>
      rw [step_of_core wf turn, State.coreStep, State.popTurn_seq]
      cases seq : s.seq with
      | resetting => exact .reseeded wf turn seq
      | idle => exact .idle wf turn seq
      | exec =>
        simp only [State.runCommand, State.popTurn_cur]
        cases dec : decode s.cur with
        | ok i => exact .ran i _ wf turn seq dec rfl (exec_case i _)
        | error r =>
          simp only [State.raiseIllegal]
          cases room : s.hasRoom with
          | true =>
            rw [State.whenRoom_of_room (by simpa using room)]
            exact .illegal r wf turn seq dec room
          | false =>
            rw [State.whenRoom_of_full (by simpa using room)]
            exact .illegalHeld r wf turn seq dec room

/-! ### Runs -/

@[simp] theorem core_run_zero (s : State) : Sys2Proof.core.run 0 s = .next s := rfl

/-- A run of `k + 1` steps from a state with a next state is a run of `k` from there. -/
theorem core_run_of_next {k : Nat} {s s' : State} (h : step s = .next s') :
    Sys2Proof.core.run (k + 1) s = Sys2Proof.core.run k s' := by
  have general : ∀ (M : Host.Core) (s s' : M.State), M.step s = .next s' →
      M.run (k + 1) s = M.run k s' := by
    intro M s s' h
    simp only [Host.Core.run, h]
  exact general Sys2Proof.core s s' h

/-- A run that answers took its first step. -/
theorem core_run_inv {k : Nat} {s t : State} (h : Sys2Proof.core.run (k + 1) s = .next t) :
    ∃ s', step s = .next s' ∧ Sys2Proof.core.run k s' = .next t := by
  have general : ∀ (M : Host.Core) (s t : M.State), M.run (k + 1) s = .next t →
      ∃ s', M.step s = .next s' ∧ M.run k s' = .next t := by
    intro M s t h
    simp only [Host.Core.run] at h
    split at h
    · exact ⟨_, ‹_›, h⟩
    · cases h
    · cases h
  exact general Sys2Proof.core s t h

/-- What an instruction leaves alone: the configuration, CUR and the host's side. -/
theorem exec_frame {i : Instr} {s s' : State} (h : exec i s = .next s') :
    s'.cfg = s.cfg ∧ s'.cur = s.cur ∧ s'.chan = s.chan ∧ s'.turns = s.turns ∧
      s'.taken = s.taken := by
  have hc := exec_case i s
  rw [h] at hc
  cases hc with
  | held => simp
  | seeded => simp
  | rawWord z t _ _ adv => rw [State.advance_frame adv]; simp
  | emptyDraw => simp
  | started => simp
  | delivered z data t _ _ _ adv => rw [State.advance_frame adv]; simp
  | rejected z t _ _ _ adv => rw [State.advance_frame adv]; simp

end Sys2Proof.Machine
end

