-- ==== Sys2Proof/Laws/Float.lean ====
section
/-! SUPPORT. Lemmas about rounding: how near `roundDiv` is, that it is monotone, where the rounded
significand lies, and the pattern of a rounded value. -/

namespace Sys2Proof.Machine

/-! ### `roundDiv` -/

theorem roundDiv_le (num : Nat) {den : Nat} (hd : 0 < den) :
    2 * (roundDiv num den * den) ≤ 2 * num + den := by
  have h := Nat.div_add_mod num den
  have hr := Nat.mod_lt num hd
  have hq : den * (num / den) = num / den * den := Nat.mul_comm _ _
  unfold roundDiv
  dsimp only
  split
  · omega
  · split
    · rw [Nat.add_mul]; omega
    · have : num / den % 2 = 0 ∨ num / den % 2 = 1 := by omega
      rcases this with h2 | h2 <;> rw [h2, Nat.add_mul] <;> omega

theorem le_roundDiv (num : Nat) {den : Nat} (hd : 0 < den) :
    2 * num ≤ 2 * (roundDiv num den * den) + den := by
  have h := Nat.div_add_mod num den
  have hr := Nat.mod_lt num hd
  have hq : den * (num / den) = num / den * den := Nat.mul_comm _ _
  unfold roundDiv
  dsimp only
  split
  · omega
  · split
    · rw [Nat.add_mul]; omega
    · have : num / den % 2 = 0 ∨ num / den % 2 = 1 := by omega
      rcases this with h2 | h2 <;> rw [h2, Nat.add_mul] <;> omega

/-- A tie is rounded to an even number. -/
theorem roundDiv_tie {num den : Nat} (hd : 0 < den)
    (h : 2 * num = 2 * (roundDiv num den * den) + den ∨
      2 * (roundDiv num den * den) = 2 * num + den) : roundDiv num den % 2 = 0 := by
  have hdm := Nat.div_add_mod num den
  have hr := Nat.mod_lt num hd
  have hq : den * (num / den) = num / den * den := Nat.mul_comm _ _
  revert h
  unfold roundDiv
  dsimp only
  split
  · intro h; omega
  · split
    · rw [Nat.add_mul]; intro h; omega
    · intro _; omega

/-- `roundDiv` is monotone in the ratio. -/
theorem roundDiv_mono {num den num' den' : Nat} (hd : 0 < den) (hd' : 0 < den')
    (h : num * den' ≤ num' * den) : roundDiv num den ≤ roundDiv num' den' := by
  by_contra hlt
  have hlt : roundDiv num' den' + 1 ≤ roundDiv num den := by omega
  have h1 := roundDiv_le num hd
  have h2 := le_roundDiv num' hd'
  have h3 : (roundDiv num' den' + 1) * den ≤ roundDiv num den * den := Nat.mul_le_mul_right _ hlt
  -- everything over the common denominator
  have a1 : 2 * (roundDiv num' den' + 1) * (den * den') ≤ (2 * num + den) * den' := by nlinarith
  have a2 : 2 * num' * den ≤ (2 * roundDiv num' den' + 1) * (den * den') := by nlinarith
  have a3 : 2 * (num * den') = 2 * (num' * den) := by nlinarith
  have pos : 0 < den * den' := Nat.mul_pos hd hd'
  have t1 : 2 * num' = 2 * (roundDiv num' den' * den') + den' := by
    apply Nat.eq_of_mul_eq_mul_right hd; nlinarith
  have e' := roundDiv_tie hd' (.inl t1)
  have up : roundDiv num den ≤ roundDiv num' den' + 1 := by
    by_contra hgt
    have : (roundDiv num' den' + 2) * den ≤ roundDiv num den * den :=
      Nat.mul_le_mul_right _ (by omega)
    nlinarith
  have eq : roundDiv num den = roundDiv num' den' + 1 := by omega
  have t2 : 2 * (roundDiv num den * den) = 2 * num + den := by
    apply Nat.eq_of_mul_eq_mul_right hd'
    rw [eq]; nlinarith
  have e := roundDiv_tie hd (.inr t2)
  omega

/-- A whole ratio is itself. -/
theorem roundDiv_exact (k : Nat) {den : Nat} (hd : 0 < den) : roundDiv (k * den) den = k := by
  have h1 := roundDiv_le (k * den) hd
  have h2 := le_roundDiv (k * den) hd
  by_contra hne
  rcases Nat.lt_or_gt_of_ne hne with h | h
  · have := Nat.mul_le_mul_right den (show roundDiv (k * den) den + 1 ≤ k by omega)
    rw [Nat.add_mul] at this; omega
  · have := Nat.mul_le_mul_right den (show k + 1 ≤ roundDiv (k * den) den by omega)
    rw [Nat.add_mul] at this; omega

/-! ### Binades -/

theorem binade_upper (fmt : FpFormat) (num den : Nat) :
    num / den < 2 ^ (fmt.fracBits + fmt.binade num den + 1) := by
  have h := Nat.lt_log2_self (n := num / den)
  refine lt_of_lt_of_le h (Nat.pow_le_pow_right (by omega) ?_)
  unfold FpFormat.binade; omega

theorem binade_lower {fmt : FpFormat} {num den : Nat} (h : 0 < fmt.binade num den) :
    2 ^ (fmt.fracBits + fmt.binade num den) ≤ num / den := by
  unfold FpFormat.binade at h ⊢
  have hne : num / den ≠ 0 := by
    intro h0; rw [h0] at h; simp at h
  have := Nat.log2_self_le hne
  rwa [show fmt.fracBits + (Nat.log2 (num / den) - fmt.fracBits) = Nat.log2 (num / den) by omega]

theorem binade_mono (fmt : FpFormat) {num den num' den' : Nat} (hd : 0 < den) (hd' : 0 < den')
    (h : num * den' ≤ num' * den) : fmt.binade num den ≤ fmt.binade num' den' := by
  have hle : num / den ≤ num' / den' := by
    rw [Nat.le_div_iff_mul_le hd']
    refine Nat.le_of_mul_le_mul_right ?_ hd
    calc num / den * den' * den = num / den * den * den' := by ring
      _ ≤ num * den' := Nat.mul_le_mul_right _ (Nat.div_mul_le_self _ _)
      _ ≤ num' * den := h
  have : Nat.log2 (num / den) ≤ Nat.log2 (num' / den') := by
    by_cases h0 : num / den = 0
    · rw [h0]; simp
    · rw [Nat.le_log2 (Nat.ne_of_gt (lt_of_lt_of_le (Nat.pos_of_ne_zero h0) hle))]
      exact le_trans (Nat.log2_self_le h0) hle
  unfold FpFormat.binade; omega

/-! ### The rounded significand -/

/-- The significand `round` gives, an integer count of the spacing of its binade. -/
def FpFormat.significand (fmt : FpFormat) (num den : Nat) : Nat :=
  roundDiv num (den * fmt.scale * 2 ^ fmt.binade num (den * fmt.scale))

theorem scale_pos (fmt : FpFormat) : 0 < fmt.scale := Nat.two_pow_pos _

theorem round_eq (fmt : FpFormat) (neg : Bool) (num den : Nat) :
    fmt.round neg num den =
      if fmt.binade num (den * fmt.scale) * 2 ^ fmt.fracBits + fmt.significand num den <
          fmt.maxExp * 2 ^ fmt.fracBits then
        .fin neg (fmt.significand num den * 2 ^ fmt.binade num (den * fmt.scale) * fmt.scale)
      else .inf neg := rfl

/-- The significand has at most fracBits + 1 bits, or is the power of two just past them. -/
theorem significand_upper (fmt : FpFormat) (num : Nat) {den : Nat} (hd : 0 < den) :
    fmt.significand num den ≤ 2 ^ (fmt.fracBits + 1) := by
  have hD : 0 < den * fmt.scale := Nat.mul_pos hd (scale_pos fmt)
  have hD2 : 0 < den * fmt.scale * 2 ^ fmt.binade num (den * fmt.scale) :=
    Nat.mul_pos hD (Nat.two_pow_pos _)
  have hu := binade_upper fmt num (den * fmt.scale)
  rw [Nat.div_lt_iff_lt_mul hD] at hu
  have := roundDiv_mono (num' := 2 ^ (fmt.fracBits + 1)) (num := num) hD2 Nat.one_pos (by
    rw [Nat.mul_one]
    refine le_trans hu.le (le_of_eq ?_)
    rw [show fmt.fracBits + fmt.binade num (den * fmt.scale) + 1 =
      fmt.fracBits + 1 + fmt.binade num (den * fmt.scale) by omega, Nat.pow_add]; ring)
  simpa [FpFormat.significand] using le_trans this
    (le_of_eq (by simpa using roundDiv_exact (2 ^ (fmt.fracBits + 1)) Nat.one_pos))

/-- Past the first binade the significand has all its fracBits + 1 bits. -/
theorem significand_lower {fmt : FpFormat} {num den : Nat} (hd : 0 < den)
    (hk : 0 < fmt.binade num (den * fmt.scale)) :
    2 ^ fmt.fracBits ≤ fmt.significand num den := by
  have hD : 0 < den * fmt.scale := Nat.mul_pos hd (scale_pos fmt)
  have hD2 : 0 < den * fmt.scale * 2 ^ fmt.binade num (den * fmt.scale) :=
    Nat.mul_pos hD (Nat.two_pow_pos _)
  have hl := binade_lower hk
  rw [Nat.le_div_iff_mul_le hD] at hl
  have := roundDiv_mono (num := 2 ^ fmt.fracBits) (num' := num) Nat.one_pos hD2 (by
    rw [Nat.mul_one]
    refine le_trans (le_of_eq ?_) hl
    rw [Nat.pow_add]; ring)
  simpa [FpFormat.significand] using le_trans
    (ge_of_eq (by simpa using roundDiv_exact (2 ^ fmt.fracBits) Nat.one_pos)) this

/-- The rounded magnitude is monotone in the ratio. -/
theorem round_magnitude_mono (fmt : FpFormat) {num den num' den' : Nat} (hd : 0 < den)
    (hd' : 0 < den') (h : num * den' ≤ num' * den) :
    fmt.significand num den * 2 ^ fmt.binade num (den * fmt.scale) ≤
      fmt.significand num' den' * 2 ^ fmt.binade num' (den' * fmt.scale) := by
  have hs := scale_pos fmt
  have hD : 0 < den * fmt.scale := Nat.mul_pos hd hs
  have hD' : 0 < den' * fmt.scale := Nat.mul_pos hd' hs
  have hx : num * (den' * fmt.scale) ≤ num' * (den * fmt.scale) := by
    rw [← Nat.mul_assoc, ← Nat.mul_assoc]; exact Nat.mul_le_mul_right _ h
  have hk := binade_mono fmt hD hD' hx
  rcases Nat.lt_or_eq_of_le hk with hlt | heq
  · calc fmt.significand num den * 2 ^ fmt.binade num (den * fmt.scale)
        ≤ 2 ^ (fmt.fracBits + 1) * 2 ^ fmt.binade num (den * fmt.scale) :=
          Nat.mul_le_mul_right _ (significand_upper fmt num hd)
      _ = 2 ^ fmt.fracBits * 2 ^ (fmt.binade num (den * fmt.scale) + 1) := by
          rw [Nat.pow_succ, Nat.pow_succ]; ring
      _ ≤ 2 ^ fmt.fracBits * 2 ^ fmt.binade num' (den' * fmt.scale) :=
          Nat.mul_le_mul_left _ (Nat.pow_le_pow_right (by omega) hlt)
      _ ≤ _ := Nat.mul_le_mul_right _ (significand_lower hd' (by omega))
  · rw [← heq]
    refine Nat.mul_le_mul_right _ ?_
    unfold FpFormat.significand
    rw [← heq]
    have hp := Nat.two_pow_pos (fmt.binade num (den * fmt.scale))
    refine roundDiv_mono (Nat.mul_pos hD hp) (Nat.mul_pos hD' hp) ?_
    calc num * (den' * fmt.scale * 2 ^ fmt.binade num (den * fmt.scale))
        = num * (den' * fmt.scale) * 2 ^ fmt.binade num (den * fmt.scale) := by ring
      _ ≤ num' * (den * fmt.scale) * 2 ^ fmt.binade num (den * fmt.scale) :=
          Nat.mul_le_mul_right _ hx
      _ = _ := by ring

/-! ### The magnitude `round` gives -/

theorem fpOne_eq : fpOne = 2 ^ 1074 := by unfold fpOne; rfl

theorem fpOne_pos : 0 < fpOne := by rw [fpOne_eq]; positivity

theorem scale_binary64 : binary64.scale = 1 := by decide

/-- The magnitude of a finite rounded value. -/
def FpFormat.magnitude (fmt : FpFormat) (num den : Nat) : Nat :=
  fmt.significand num den * 2 ^ fmt.binade num (den * fmt.scale) * fmt.scale

/-- A finite rounded value keeps the sign and has the magnitude `magnitude` says. -/
theorem round_fin_inv {fmt : FpFormat} {neg neg' : Bool} {num den mag : Nat}
    (h : fmt.round neg num den = .fin neg' mag) : neg' = neg ∧ mag = fmt.magnitude num den := by
  rw [round_eq] at h
  split at h
  · cases h; exact ⟨rfl, rfl⟩
  · cases h

theorem magnitude_mono (fmt : FpFormat) {num den num' den' : Nat} (hd : 0 < den) (hd' : 0 < den')
    (h : num * den' ≤ num' * den) : fmt.magnitude num den ≤ fmt.magnitude num' den' :=
  Nat.mul_le_mul_right _ (round_magnitude_mono fmt hd hd' h)

/-- The pattern of the rounded value, before its sign, is monotone in the ratio. -/
theorem round_pattern_mono (fmt : FpFormat) {num den num' den' : Nat} (hd : 0 < den)
    (hd' : 0 < den') (h : num * den' ≤ num' * den) :
    fmt.binade num (den * fmt.scale) * 2 ^ fmt.fracBits + fmt.significand num den ≤
      fmt.binade num' (den' * fmt.scale) * 2 ^ fmt.fracBits + fmt.significand num' den' := by
  have hs := scale_pos fmt
  have hx : num * (den' * fmt.scale) ≤ num' * (den * fmt.scale) := by
    rw [← Nat.mul_assoc, ← Nat.mul_assoc]; exact Nat.mul_le_mul_right _ h
  have hk := binade_mono fmt (Nat.mul_pos hd hs) (Nat.mul_pos hd' hs) hx
  have hmag := round_magnitude_mono fmt hd hd' h
  rcases Nat.lt_or_eq_of_le hk with hlt | heq
  · have h1 := significand_upper fmt num hd
    have h2 := significand_lower hd' (show 0 < fmt.binade num' (den' * fmt.scale) by omega)
    have h3 := Nat.mul_le_mul_right (2 ^ fmt.fracBits) hlt
    rw [Nat.pow_succ] at h1
    rw [Nat.succ_mul] at h3
    omega
  · rw [← heq] at hmag ⊢
    have := Nat.le_of_mul_le_mul_right hmag (Nat.two_pow_pos _)
    omega

/-- What is at most a ratio that rounds to a finite value rounds to a finite value, no larger. -/
theorem round_fin_of_le {fmt : FpFormat} {neg neg' neg'' : Bool} {num den num' den' mag : Nat}
    (hd : 0 < den) (hd' : 0 < den') (h : num * den' ≤ num' * den)
    (hr : fmt.round neg' num' den' = .fin neg'' mag) :
    fmt.round neg num den = .fin neg (fmt.magnitude num den) ∧ fmt.magnitude num den ≤ mag := by
  obtain ⟨rfl, rfl⟩ := round_fin_inv hr
  refine ⟨?_, magnitude_mono fmt hd hd' h⟩
  rw [round_eq] at hr ⊢
  split at hr
  · rw [if_pos]
    · rfl
    · exact lt_of_le_of_lt (round_pattern_mono fmt hd hd' h) ‹_›
  · cases hr

/-- A value with a significand of the format's width is rounded to itself. -/
theorem magnitude_exact (fmt : FpFormat) (m k : Nat) {den : Nat} (hd : 0 < den)
    (hm : m < 2 ^ (fmt.fracBits + 1)) :
    fmt.magnitude (m * 2 ^ k * fmt.scale * den) den = m * 2 ^ k * fmt.scale := by
  have hD : 0 < den * fmt.scale := Nat.mul_pos hd (scale_pos fmt)
  unfold FpFormat.magnitude
  congr 1
  generalize hb : fmt.binade (m * 2 ^ k * fmt.scale * den) (den * fmt.scale) = b
  have hq : m * 2 ^ k * fmt.scale * den / (den * fmt.scale) = m * 2 ^ k := by
    rw [show m * 2 ^ k * fmt.scale * den = m * 2 ^ k * (den * fmt.scale) by ring]
    exact Nat.mul_div_cancel _ hD
  have hbk : b ≤ k := by
    rw [← hb]; unfold FpFormat.binade; rw [hq]
    by_cases h0 : m = 0
    · rw [h0, Nat.zero_mul, Nat.log2_zero]; omega
    · have : Nat.log2 (m * 2 ^ k) < fmt.fracBits + 1 + k := by
        rw [Nat.log2_lt (by positivity), Nat.pow_add]
        exact Nat.mul_lt_mul_of_pos_right hm (Nat.two_pow_pos _)
      omega
  have hk : (2 : Nat) ^ k = 2 ^ (k - b) * 2 ^ b := by rw [← Nat.pow_add]; congr 1; omega
  unfold FpFormat.significand
  rw [hb, show m * 2 ^ k * fmt.scale * den = m * 2 ^ (k - b) * (den * fmt.scale * 2 ^ b) by
    rw [hk]; ring, roundDiv_exact _ (Nat.mul_pos hD (Nat.two_pow_pos _)), hk]
  ring

/-! ### Patterns -/

/-- The pattern of a magnitude given as significand and binade. -/
theorem pack_fin (fmt : FpFormat) (nanPattern : Nat) (neg : Bool) {m k : Nat}
    (hm : m ≤ 2 ^ (fmt.fracBits + 1)) (hk : 0 < k → 2 ^ fmt.fracBits ≤ m) :
    fmt.pack nanPattern (.fin neg (m * 2 ^ k * fmt.scale)) =
      fmt.signBit neg + k * 2 ^ fmt.fracBits + m := by
  have hunits : m * 2 ^ k * fmt.scale / fmt.scale = m * 2 ^ k :=
    Nat.mul_div_cancel _ (scale_pos fmt)
  simp only [FpFormat.pack, hunits]
  have hp := Nat.two_pow_pos k
  rcases Nat.lt_or_eq_of_le hm with hlt | heq
  · have hlog : Nat.log2 (m * 2 ^ k) - fmt.fracBits = k := by
      by_cases hk0 : k = 0
      · subst hk0
        rw [Nat.pow_zero, Nat.mul_one]
        by_cases hm0 : m = 0
        · subst hm0; simp
        · have := (Nat.log2_lt hm0).2 hlt; omega
      · have hlow := hk (by omega)
        have hm0 : 0 < m := lt_of_lt_of_le (Nat.two_pow_pos _) hlow
        have hne : m * 2 ^ k ≠ 0 := by positivity
        have h1 : Nat.log2 (m * 2 ^ k) < fmt.fracBits + 1 + k := by
          rw [Nat.log2_lt hne, Nat.pow_add]; exact Nat.mul_lt_mul_of_pos_right hlt hp
        have h2 : fmt.fracBits + k ≤ Nat.log2 (m * 2 ^ k) := by
          rw [Nat.le_log2 hne, Nat.pow_add]; exact Nat.mul_le_mul_right _ hlow
        omega
    rw [hlog, Nat.mul_div_cancel _ hp]
  · have hlog : Nat.log2 (m * 2 ^ k) - fmt.fracBits = k + 1 := by
      rw [heq, ← Nat.pow_add, Nat.log2_two_pow]; omega
    rw [hlog, heq, Nat.pow_succ 2 k, Nat.pow_succ 2 fmt.fracBits,
      show 2 ^ fmt.fracBits * 2 * 2 ^ k = 2 ^ fmt.fracBits * (2 ^ k * 2) by ring,
      Nat.mul_div_cancel _ (by positivity)]
    ring

end Sys2Proof.Machine
end

