-- ==== Sys2Proof/Laws/HostTools.lean ====
section
/-! SUPPORT. Lemmas about the host's tools: which literals are in range, and a line out of range. -/

namespace Sys2Proof.Machine

theorem okU64_toNat (v : Word) : okU64 v.toNat = true := by
  unfold okU64; exact decide_eq_true v.isLt

theorem okBits_toNat (v : Word) : (FloatLit.bits v.toNat).okBits 64 = true := by
  unfold FloatLit.okBits; exact decide_eq_true v.isLt

theorem okBits_toNat32 (v : Word32) : (FloatLit.bits v.toNat).okBits 32 = true := by
  unfold FloatLit.okBits; exact decide_eq_true v.isLt

/-- A line whose literals are out of range is an assembly error (R86). -/
theorem assembleLine_of_not_wf {l : AsmLine} (h : l.wf = false) :
    assembleLine l = .error .outOfRange := by
  unfold assembleLine; rw [if_neg (by rw [h]; decide)]

theorem assembleLine_rdbl {l : FloatLit} (h : l.okBits 64 = true) :
    assembleLine (.rdbl l) = assembleRdbl l := by
  unfold assembleLine; rw [if_pos (show (AsmLine.rdbl l).wf = true from h)]

theorem assembleLine_rflt {l : FloatLit} (h : l.okBits 32 = true) :
    assembleLine (.rflt l) = assembleRflt l := by
  unfold assembleLine; rw [if_pos (show (AsmLine.rflt l).wf = true from h)]

theorem assembleRdbl_bits (v : Word) :
    assembleRdbl (.bits v.toNat) = .ok (encode (.rdbl v)) := by
  unfold assembleRdbl FpFormat.literal; simp

theorem assembleRflt_bits (v : Word32) :
    assembleRflt (.bits v.toNat) = .ok (encode (.rflt v)) := by
  unfold assembleRflt FpFormat.literal; simp

end Sys2Proof.Machine
end

