-- ==== Sys2Proof/Laws/PerInstr.lean ====
section
/-! SUPPORT. Statements made of every instruction as syntax, one lemma per constructor. -/

namespace Sys2Proof.Laws.EncodesLegal

/-- R73, R74: the instruction's encoding is a legal command, its command word is `zext_32(OP)`, and
the argument word holds nothing its decoding would ignore. -/
def Statement (i : Instr) : Prop :=
  (encode i).wf = true ∧ (encode i).rsvd = 0#24 ∧ (encode i).op = i.opcode ∧
    (encode i).canonical = encode i

theorem seed (v : Word) : Statement (.seed v) := by
  simp [Statement, Command.wf, Command.okOp, Command.canonical, Command.readArg, Command.rsvd,
    Command.op, encode, Instr.opcode, Instr.argWord]

theorem seeddef : Statement .seeddef := by
  simp [Statement, Command.wf, Command.okOp, Command.canonical, Command.readArg, Command.rsvd,
    Command.op, encode, Instr.opcode, Instr.argWord]

theorem next : Statement .next := by
  simp [Statement, Command.wf, Command.okOp, Command.canonical, Command.readArg, Command.rsvd,
    Command.op, encode, Instr.opcode, Instr.argWord]

theorem draw (v : Word) : Statement (.draw v) := by
  simp [Statement, Command.wf, Command.okOp, Command.canonical, Command.readArg, Command.rsvd,
    Command.op, encode, Instr.opcode, Instr.argWord]

theorem rdbl (v : Word) : Statement (.rdbl v) := by
  simp [Statement, Command.wf, Command.okOp, Command.canonical, Command.readArg, Command.rsvd,
    Command.op, encode, Instr.opcode, Instr.argWord]

theorem rflt (v : Word32) : Statement (.rflt v) := by
  have := extractLow_setWidth v
  simp [Statement, Command.wf, Command.okOp, Command.canonical, Command.readArg, Command.rsvd,
    Command.op, encode, Instr.opcode, Instr.argWord, this]

theorem rint (v : Word32) : Statement (.rint v) := by
  have := extractLow_setWidth v
  simp [Statement, Command.wf, Command.okOp, Command.canonical, Command.readArg, Command.rsvd,
    Command.op, encode, Instr.opcode, Instr.argWord, this]

end Sys2Proof.Laws.EncodesLegal
end

