-- ==== Sys2Proof/Tests/Slice0.lean ====
section
/-! SUPPORT. Tests of the model against words and values written out from the spec
(spec/30_encoding.md, spec/95_test_vectors.md), smoke tests of WellFormed, and a witness that the
hypotheses of each obligation can be met together. -/

namespace Sys2Proof.Tests

set_option Elab.async false

open Sys2Proof.Machine

/-! ### Helpers -/

/-- The next state of an outcome. -/
def nextOf (o : Host.Outcome State Fault Refusal) : Option State :=
  match o with
  | .next s => some s
  | .fault _ => none
  | .refused _ => none

theorem exists_next {o : Host.Outcome State Fault Refusal} (h : (nextOf o).isSome = true) :
    ∃ t, o = .next t := by
  cases o with
  | next t => exact ⟨t, rfl⟩
  | fault f => simp [nextOf] at h
  | refused r => simp [nextOf] at h

/-- `s` with the instruction `i` accepted and about to take its first step. -/
def running (i : Instr) (s : State) : State := { s with cur := encode i, seq := .exec }

/-- `s` with the draw `i` in its attempt steps, `count` words to go. -/
def attempting (i : Instr) (count : Word) (s : State) : State :=
  { running i s with attempting := true, rem := count }

/-- A configuration with four state words, for small states. -/
def tinyCfg : Config := { n := 4, m := 2 }

def tiny : State := State.resetOf tinyCfg

/-- An SV of zeros, whose raw words are all 0, and a window that rejects 0. -/
def barren : State :=
  { tiny with
    cfg := { tinyCfg with lb := 1#64, ub := 1#64 }, sv := [0#64, 0#64, 0#64, 0#64] }

/-- An SV of zeros and a window that accepts 0. -/
def fertile : State :=
  { tiny with cfg := { tinyCfg with lb := 0#64 }, sv := [0#64, 0#64, 0#64, 0#64] }

/-- A beat to fill RSPQ with. -/
def someBeat : Beat := ⟨.done, 0#64, true⟩

/-- The state after SEEDDEF and one advance (spec/95_test_vectors.md V5), a draw of one word
running; its next raw word is 0x45F693890AE5B87E, which is accepted. -/
def secondAttempt : State :=
  { State.reset with
    sv := State.reset.sv.set 1 0x29D058D215A215E9#64, idx := 1, seq := .exec,
    attempting := true, rem := 1#64 }

/-! ### Decoding: words written from R70 and R73 -/

theorem test_decode_legal :
    decode ⟨0b00000000000000000000000000000001#32, 5#64⟩ = .ok (.seed 5#64) ∧
    decode ⟨0b00000000000000000000000000000010#32, 5#64⟩ = .ok .seeddef ∧
    decode ⟨0b00000000000000000000000000000011#32, 5#64⟩ = .ok .next ∧
    decode ⟨0b00000000000000000000000000000100#32, 3#64⟩ = .ok (.draw 3#64) ∧
    decode ⟨0b00000000000000000000000000000101#32, 0x4024000000000000#64⟩ =
      .ok (.rdbl 0x4024000000000000#64) ∧
    decode ⟨0b00000000000000000000000000000110#32, 0xFFFFFFFF42C80000#64⟩ =
      .ok (.rflt 0x42C80000#32) ∧
    decode ⟨0b00000000000000000000000000000111#32, 0x00000000FFFFFFFB#64⟩ =
      .ok (.rint 0xFFFFFFFB#32) := by decide

/-- V17. -/
theorem test_decode_illegal :
    decode ⟨0x00000000#32, 0#64⟩ = .error .reservedOpcode ∧
    decode ⟨0x00000008#32, 0#64⟩ = .error .reservedOpcode ∧
    decode ⟨0x000000FF#32, 0x1234567890ABCDEF#64⟩ = .error .reservedOpcode ∧
    decode ⟨0x00000103#32, 0#64⟩ = .error .reservedBits ∧
    decode ⟨0x80000001#32, 5#64⟩ = .error .reservedBits := by decide

/-- The encodings of V16 and P1. -/
theorem test_encode :
    encode (.seed 5#64) = ⟨0x00000001#32, 0x0000000000000005#64⟩ ∧
    encode .seeddef = ⟨0x00000002#32, 0#64⟩ ∧ encode .next = ⟨0x00000003#32, 0#64⟩ ∧
    encode (.draw 3#64) = ⟨0x00000004#32, 0x0000000000000003#64⟩ ∧
    encode (.rdbl 0x4024000000000000#64) = ⟨0x00000005#32, 0x4024000000000000#64⟩ ∧
    encode (.rflt 0x42C80000#32) = ⟨0x00000006#32, 0x0000000042C80000#64⟩ ∧
    encode (.rint 10#32) = ⟨0x00000007#32, 0x000000000000000A#64⟩ := by decide

/-! ### WellFormed: an ill-formed term for each check -/

theorem test_default_wf : Config.default.wf = true := by decide

theorem test_config_refused :
    ({ m := 0 } : Config).okSizes = false ∧ ({ m := 624 } : Config).okSizes = false ∧
    ({ r := 0 } : Config).okLowerMask = false ∧ ({ r := 64 } : Config).okLowerMask = false ∧
    ({ w := 32 } : Config).okWidth = false ∧ ({ w := 32, xlen := 32 } : Config).okWidth = false ∧
    ({ u := 0 } : Config).okShifts = false ∧ ({ l := 64 } : Config).okShifts = false ∧
    ({ lb := 2#64, ub := 1#64 } : Config).okWindow = false ∧
    ({ rspDepth := 0 } : Config).okDepth = false ∧
    ({ retryCap := some 0#64 } : Config).okCap = false := by decide

theorem test_config_wf_uses_each_check :
    ({ m := 0 } : Config).wf = false ∧ ({ r := 0 } : Config).wf = false ∧
    ({ w := 32 } : Config).wf = false ∧ ({ t := 0 } : Config).wf = false ∧
    ({ lb := 2#64, ub := 1#64 } : Config).wf = false ∧
    ({ rspDepth := 0 } : Config).wf = false ∧
    ({ retryCap := some 0#64 } : Config).wf = false := by decide

theorem test_command_refused :
    Command.wf ⟨0x00000103#32, 0#64⟩ = false ∧ Command.wf ⟨0x00000000#32, 0#64⟩ = false ∧
    Command.wf ⟨0x00000008#32, 0#64⟩ = false ∧ Command.wf ⟨0x00000007#32, 9#64⟩ = true := by decide

theorem test_literal_refused :
    okU64 (2 ^ 64) = false ∧ FloatLit.okBits 32 (.bits (2 ^ 32)) = false ∧
    RintLit.wf (.dec (2 ^ 31)) = false ∧ RintLit.wf (.dec (-2 ^ 31 - 1)) = false ∧
    RintLit.wf (.hex (2 ^ 32)) = false ∧ AsmLine.wf (.seed (2 ^ 64)) = false ∧
    AsmLine.wf (.rdbl (.bits (2 ^ 64))) = false ∧ AsmLine.wf (.rflt (.bits (2 ^ 32))) = false ∧
    AsmLine.wf (.rint (.dec (2 ^ 31))) = false ∧ AsmLine.wf (.word (2 ^ 32) 0) = false ∧
    AsmLine.wf (.word 0 (2 ^ 64)) = false := by decide +kernel

/-- R9: a step with a configuration that breaks a constraint is refused. -/
theorem test_step_refuses_bad_config :
    ∃ r, step { tiny with cfg := { m := 0 } } = .refused r := ⟨.invalidConfig, rfl⟩

/-! ### The datapath (spec/95_test_vectors.md V1 to V4, V10, V14, V15) -/

theorem test_v1_seeding :
    seedWords { n := 4 } 0#64 = [0x0#64, 0x1#64, 0x5851F42D4C957F2F#64, 0xC0B18CCF4E252D19#64] ∧
    seedWords { n := 4 } 0xFFFFFFFFFFFFFFFF#64 = [0xFFFFFFFFFFFFFFFF#64, 0x9EB82F4ACDAA034D#64,
      0x677779FFDF81C5E5#64, 0x655F183788AFE517#64] ∧
    (seedWords Config.default 0x8000000000000000#64)[623]? = some 0xBF4A5DE552C824FD#64 := by
  decide +kernel

theorem test_v2_seedMul : seedMul Config.default 5#64 = 0xB999C4E27EEB7BE1#64 := by decide

theorem test_v3_twist :
    twist Config.default 1#64 = 0xB5026F5AA96619E9#64 ∧ twist Config.default 2#64 = 1#64 ∧
    twist Config.default 0xFFFFFFFFFFFFFFFF#64 = 0xCAFD90A55699E616#64 ∧
    twist Config.default 0x8000000000000000#64 = 0x4000000000000000#64 := by decide

theorem test_v4_temper :
    temper1 Config.default 0xFFFFFFFFFFFFFFFF#64 = 0xFFFFFFFAAAAAAAAA#64 ∧
    temper2 Config.default 0xFFFFFFFAAAAAAAAA#64 = 0x8E2BAAAFEFAEAAAA#64 ∧
    temper3 Config.default 0x8E2BAAAFEFAEAAAA#64 = 0x7BFEEEEFEFAEAAAA#64 ∧
    temper4 Config.default 0x7BFEEEEFEFAEAAAA#64 = 0x7BFEEEEFEFA1D577#64 ∧
    temper Config.default 0x0123456789ABCDEF#64 = 0x2254DA7001198660#64 := by decide

theorem test_v10_accept :
    (([10 ^ 18 - 65, 10 ^ 18 - 64, 10 ^ 18 - 1, 10 ^ 18, 10 ^ 19, 10 ^ 19 + 1024,
        10 ^ 19 + 1025].map fun z => (accept Config.default (BitVec.ofNat 64 z),
          accept { Config.default with windowCompare := .binary64 } (BitVec.ofNat 64 z))) =
      [(false, false), (false, true), (false, true), (true, true), (true, true), (false, true),
        (false, false)]) := by decide +kernel

theorem test_v14_v15_rdbl :
    resultRdbl Config.default 0x4024000000000000#64 (BitVec.ofNat 64 (10 ^ 18 + 1)) =
      0x3C347F12E9228414#64 ∧
    resultRdbl Config.default 0x4024000000000000#64 (BitVec.ofNat 64 (10 ^ 19 - 513)) =
      0x4023FFFFFFFFFFFF#64 ∧
    resultRdbl Config.default 0x7FF8000000000001#64 Config.default.ub = 0x7FF8000000000000#64 ∧
    resultRdbl Config.default 0xFFF0000000000000#64 Config.default.lb = 0x7FF8000000000000#64 ∧
    resultRdbl Config.default 0xC024000000000000#64 Config.default.lb = 0x8000000000000000#64 ∧
    resultRdbl Config.default 1#64 0x45F693890AE5B87E#64 = 0#64 := by decide +kernel

theorem test_v14_v15_rflt :
    resultRflt Config.default 0x42C80000#32 (BitVec.ofNat 64 (10 ^ 18 + 1)) = 0x234CF6BD#64 ∧
    resultRflt Config.default 0x42C80000#32 (BitVec.ofNat 64 (10 ^ 19 - 513)) = 0x42C80000#64 ∧
    resultRflt Config.default 1#32 Config.default.ub = 1#64 ∧
    resultRflt Config.default 0x7FC00001#32 Config.default.lb = 0x7FC00000#64 ∧
    resultRflt Config.default 0xC2C80000#32 0x45F693890AE5B87E#64 = 0xC2339DEA#64 := by
  decide +kernel

theorem test_v14_v15_rint :
    resultRint Config.default 10#32 (BitVec.ofNat 64 (10 ^ 19 - 513)) = 10#64 ∧
    resultRint Config.default 10#32 (BitVec.ofNat 64 (10 ^ 19 - 512)) = 11#64 ∧
    resultRint Config.default 0xFFFFFFFB#32 0x45F693890AE5B87E#64 = 0xFFFFFFFFFFFFFFFF#64 ∧
    resultRint Config.default 0xFFFFFFFF#32 Config.default.ub = 0#64 ∧
    resultRint Config.default 0x7FFFFFFF#32 Config.default.ub = 0x80000000#64 ∧
    resultRint Config.default 0x80000000#32 0x45F693890AE5B87E#64 = 0xFFFFFFFFC685C9B6#64 := by
  decide +kernel

/-! ### One step of each instruction -/

/-- V1, `SEED 5` after reset. -/
theorem test_seed :
    (nextOf (exec (.seed 5#64) (running (.seed 5#64) State.reset))).map
        (fun t => (t.sv[1]?, t.sv[623]?, t.idx, t.rspq, t.seq)) =
      some (some 0xB999C4E27EEB7BE2#64, some 0xE6EA2A6505156B82#64, 0, [⟨.done, 0#64, true⟩],
        .idle) := by decide +kernel

/-- R103, from a state with another SV: `SEEDDEF` read from its table word. -/
theorem test_seeddef :
    (nextOf (step ({ State.reset with sv := List.replicate 624 0#64, idx := 7 }.withFetchWord 32 2))
        ).map (fun t => (t.sv[1]?, t.sv[623]?, t.idx, t.rspq, t.seq)) =
      some (some 0x597276B55D2511E3#64, some 0xED2337E978EC890F#64, 0, [⟨.done, 0#64, true⟩],
        .idle) := by decide +kernel

/-- V5, the first NEXT after reset, read from its table word. -/
theorem test_next :
    (nextOf (step (State.reset.withFetchWord 32 3))).map
        (fun t => (t.sv[0]?, t.sv[1]?, t.idx, t.rspq, t.seq)) =
      some (some 0x12BD6AA#64, some 0x29D058D215A215E9#64, 1, [⟨.data, 0x9462162A7CB19DA1#64, true⟩],
        .idle) := by decide +kernel

/-- V7, the 624th raw word: it needs only `SV[623]` and `SV[0]`; `SV[0]` is not written. -/
theorem test_next_at_wrap :
    (nextOf (exec .next { State.reset with
        sv := State.reset.sv.set 623 0x82390B5C9F283C52#64, idx := 623 })).map
        (fun t => (t.sv[0]?, t.idx, t.rspq)) =
      some (some 0x12BD6AA#64, 0, [⟨.data, 0x2F59E74F9DEA6DD2#64, true⟩]) := by decide +kernel

/-- V5, V11: the first attempt of a draw after SEEDDEF is rejected. -/
theorem test_draw_rejects :
    (nextOf (exec (.draw 3#64) (attempting (.draw 3#64) 3#64 State.reset))).map
        (fun t => (t.idx, t.rem, t.rej, t.rspq, t.seq)) =
      some (1, 3#64, 1#64, [], .exec) := by decide +kernel

/-- V13: RETRY_CAP = 1. -/
theorem test_draw_unsat :
    (nextOf (exec (.draw 3#64) (attempting (.draw 3#64) 3#64
        { State.reset with cfg := { retryCap := some 1#64 } }))).map
        (fun t => (t.idx, t.rspq, t.seq)) =
      some (1, [⟨.unsat, 0#64, true⟩], .idle) := by decide +kernel

/-- V16. -/
theorem test_rdbl :
    (nextOf (exec (.rdbl 0x4024000000000000#64) secondAttempt)).map
        (fun t => (t.idx, t.rspq, t.seq)) =
      some (2, [⟨.data, 0x4011F630F75A7D58#64, true⟩], .idle) := by decide +kernel

/-- V16. -/
theorem test_rflt :
    (nextOf (exec (.rflt 0x42C80000#32) secondAttempt)).map (fun t => (t.idx, t.rspq, t.seq)) =
      some (2, [⟨.data, 0x42339DEA#64, true⟩], .idle) := by decide +kernel

/-- V16. -/
theorem test_rint :
    (nextOf (exec (.rint 10#32) secondAttempt)).map (fun t => (t.idx, t.rspq, t.seq)) =
      some (2, [⟨.data, 4#64, true⟩], .idle) := by decide +kernel

/-- V17: NEXT with RSVD bit 8 set. -/
theorem test_illegal :
    (nextOf (step (tiny.withFetchWord 32 0x103))).map (fun t => (t.sv, t.idx, t.rspq, t.seq)) =
      some (tiny.sv, tiny.idx, [⟨.illegal, 0x103#64, true⟩], .idle) := by decide

/-! ### The host's tools -/

/-- P3, P4: lines of the spec's programs and their encodings. -/
theorem test_assemble :
    assembleText 7#64 "SEED 19650218 ; a comment" = .ok (some ⟨1#32, 0x12BD6AA#64⟩) ∧
    assembleText 7#64 "rdbl 10.0" = .ok (some ⟨5#32, 0x4024000000000000#64⟩) ∧
    assembleText 7#64 "RFLT 100.0" = .ok (some ⟨6#32, 0x42C80000#64⟩) ∧
    assembleText 7#64 "RINT -5" = .ok (some ⟨7#32, 0xFFFFFFFB#64⟩) ∧
    assembleText 7#64 ".word 0x00000103 : 0x0000000000000000" = .ok (some ⟨0x103#32, 0#64⟩) ∧
    assembleText 7#64 "SEEDTIME" = .ok (some ⟨1#32, 7#64⟩) := by decide +kernel

/-- S7, S8: the batch helper with count 0 and with an unknown selector. -/
theorem test_batch :
    writeBatch 3 10#64 'i' = .ok [.rint 10#32, .rint 10#32, .rint 10#32] ∧
    writeBatch 0 10#64 'i' = .ok [] ∧
    writeBatch 5 10#64 'x' = .error .invalidPrecisionSelector := by decide

/-! ### Witnesses: the hypotheses of each obligation, met together -/

/-- `tiny` with the turn `t` first and then MTCORE's. -/
def tinyTurn (t : Turn) : State := { tiny with turns := [t] }

/-- DecodedCommandIsTheEncodingButForIgnoredBits, one command for each of its three cases. -/
theorem witness_decoded_command :
    decode ⟨2#32, 9#64⟩ = .ok .seeddef ∧ decode ⟨3#32, 9#64⟩ = .ok .next ∧
    decode ⟨6#32, 0xFFFFFFFF00000001#64⟩ = .ok (.rflt 1#32) ∧
    decode ⟨7#32, 0xFFFFFFFF00000001#64⟩ = .ok (.rint 1#32) ∧
    decode ⟨1#32, 9#64⟩ = .ok (.seed 9#64) := by decide +kernel

/-- DecoderAcceptsExactlyTheSevenCommandWords, at the ends of its range. -/
theorem witness_decoder_range :
    decode ⟨1#32, 0#64⟩ = .ok (.seed 0#64) ∧ decode ⟨7#32, 0#64⟩ = .ok (.rint 0#32) ∧
    decode ⟨0#32, 0#64⟩ = .error .reservedOpcode ∧ decode ⟨8#32, 0#64⟩ = .error .reservedOpcode := by
  decide +kernel

/-- StepRunsTheDecodedCommand, both clauses. -/
theorem witness_step_runs :
    tiny.cfg.wf = true ∧ (running .next tiny).seq = .exec ∧
    decode (running .next tiny).cur = .ok .next ∧ (running .next tiny).turns = [] ∧
    (running .next (tinyTurn .core)).turns = .core :: [] := by decide +kernel

/-- IllegalCommandGivesOneBeatAndChangesNothing, at both sides of the legal range, with the schedule
empty and with a turn of MTCORE at its head. -/
theorem witness_illegal :
    tiny.cfg.wf = true ∧ tiny.turns = [] ∧ (tinyTurn .core).turns.head? = some .core ∧
    tiny.rspq.length < tiny.cfg.rspDepth ∧
    ¬ (1 ≤ (0#32).toNat ∧ (0#32).toNat ≤ 7) ∧ ¬ (1 ≤ (8#32).toNat ∧ (8#32).toNat ≤ 7) ∧
    ({ tiny with seq := .exec, cur := ⟨8#32, 0#64⟩ } : State).seq = .exec := by decide +kernel

/-- CommandIsAcceptedOnlyWhileIdle: idle with a command waiting, and two steps while BUSY. -/
theorem witness_accept :
    (let s := { tiny with chan := [encode .next] }
     s.cfg.wf = true ∧ s.turns = [] ∧ (tinyTurn .core).turns.head? = some .core ∧
       s.seq = .idle ∧ s.chan = encode .next :: []) ∧
    (running .next tiny).busy = true ∧ (∃ t, step (running .next tiny) = .next t) ∧
    (running .next (tinyTurn (.present (encode .next)))).busy = true ∧
    (∃ t, step (running .next (tinyTurn (.present (encode .next)))) = .next t) :=
  ⟨by decide +kernel, by decide +kernel, exists_next (by decide +kernel), by decide +kernel,
    exists_next (by decide +kernel)⟩

/-- IdleWithoutACommandHoldsAllState. -/
theorem witness_idle :
    tiny.cfg.wf = true ∧ tiny.turns = [] ∧ (tinyTurn .core).turns.head? = some .core ∧
    tiny.seq = .idle ∧ tiny.chan = [] := by decide +kernel

/-- HostTakesTheHeadBeatOnce. -/
theorem witness_take :
    let s := { tinyTurn .take with rspq := [someBeat] }
    s.cfg.wf = true ∧ s.turns = .take :: [] ∧ s.rspq = someBeat :: [] := by decide +kernel

/-- FullQueueHoldsEveryEmittingStep: a full queue with a start step, an attempt step and an illegal
command to come. -/
theorem witness_full :
    let s := { running .next tiny with rspq := [someBeat] }
    s.cfg.rspDepth ≤ s.rspq.length ∧ s.attempting = false ∧
    { s with attempting := true }.attempting = true ∧ s.cfg.wf = true ∧
    (s.turns = [] ∧ (tinyTurn .core).turns.head? = some .core) ∧ s.seq = .exec ∧ (∀ i, decode ({ s with cur := ⟨8#32, 0#64⟩ } : State).cur ≠ .ok i) := by
  refine ⟨by decide +kernel, by decide +kernel, by decide +kernel, by decide +kernel, by decide +kernel, by decide +kernel, fun i h => ?_⟩
  have hd : decode ⟨8#32, 0#64⟩ = .error .reservedOpcode := by decide +kernel
  rw [hd] at h; cases h

/-- R8: the parameters with no default are open in the hardware of R8, and each admits a value. -/
theorem test_open_parameters :
    Config.default.hostByteOrder = none ∧ Config.default.resetSignal = none ∧
    ({ hostByteOrder := some .littleEndian,
       resetSignal := some ⟨"RST", .asynchronous⟩ } : Config).wf = true := by decide +kernel

/-- ResetDiscardsBeatsAndSeedsAgain, both clauses; the indexes of its recurrence at both ends. -/
theorem witness_reset :
    (tinyTurn .reset).cfg.wf = true ∧ (tinyTurn .reset).turns = .reset :: [] ∧
    (let s := { tiny with seq := .resetting }
     s.cfg.wf = true ∧ s.turns = [] ∧ (tinyTurn .core).turns.head? = some .core ∧
      s.seq = .resetting ∧ 0 + 1 < s.cfg.n ∧ 2 + 1 < s.cfg.n ∧
      (nextOf (step s)).map (fun t => (t.sv[0]?.isSome, t.sv[2]?.isSome)) =
        some (true, true)) := by decide +kernel

theorem tiny_inv : Inv tiny :=
  ⟨⟨by decide +kernel, by decide +kernel, by decide +kernel⟩, by decide +kernel, by decide +kernel, fun h => absurd h (by decide +kernel)⟩

theorem running_inv (i : Instr) : Inv (running i tiny) :=
  ⟨⟨tiny_inv.storage.cfg_wf, tiny_inv.storage.sv_length, tiny_inv.storage.idx_lt⟩,
    tiny_inv.rspq_le, fun h => by simp [running] at h, fun _ h => by
      have h2 : tiny.attempting = false := by decide +kernel
      rw [show (running i tiny).attempting = tiny.attempting from rfl, h2] at h; cases h⟩

/-- A draw in its attempt steps, uncapped, from an SV of zeros. -/
theorem barren_inv : Inv (attempting (.draw 3#64) 3#64 barren) :=
  ⟨⟨by decide +kernel, by decide +kernel, by decide +kernel⟩, by decide +kernel, by decide +kernel, fun _ _ =>
    ⟨⟨3#64, by decide +kernel, by decide +kernel⟩, by decide +kernel, fun _ h => by
      have h2 : (attempting (.draw 3#64) 3#64 barren).cfg.retryCap = none := by decide +kernel
      rw [h2] at h; cases h⟩⟩

/-- The same with a cap of 1. -/
def capped : State :=
  { attempting (.draw 3#64) 3#64 barren with
    cfg := { tinyCfg with lb := 1#64, ub := 1#64, retryCap := some 1#64 } }

theorem capped_inv : Inv capped :=
  ⟨⟨by decide +kernel, by decide +kernel, by decide +kernel⟩, by decide +kernel, by decide +kernel, fun _ _ =>
    ⟨⟨3#64, by decide +kernel, by decide +kernel⟩, by decide +kernel, fun cap h => by
      have h2 : capped.cfg.retryCap = some 1#64 := by decide +kernel
      rw [h2] at h; cases h; decide⟩⟩

theorem fertile_inv : Inv (attempting (.draw 3#64) 3#64 fertile) :=
  ⟨⟨by decide +kernel, by decide +kernel, by decide +kernel⟩, by decide +kernel, by decide +kernel, fun _ _ =>
    ⟨⟨3#64, by decide +kernel, by decide +kernel⟩, by decide +kernel, fun _ h => by
      have h2 : (attempting (.draw 3#64) 3#64 fertile).cfg.retryCap = none := by decide +kernel
      rw [h2] at h; cases h⟩⟩

/-- EveryStepKeepsTheInvariantAndNeverStops: an idle state, a running command and a running draw. -/
theorem witness_inv :
    Inv tiny ∧ Inv (running .next tiny) ∧ Inv (attempting (.draw 3#64) 3#64 barren) ∧
      Inv capped := ⟨tiny_inv, running_inv _, barren_inv, capped_inv⟩

/-- ConfigurationNeverChanges. -/
theorem witness_step : ∃ s', step (running (.seed 5#64) tiny) = .next s' := exists_next (by decide +kernel)

/-- OnlySeedingAndAdvanceWriteTheStorage: a step for each of its cases, the last below the wrap and
at it under both settings. -/
theorem witness_storage :
    (∀ s ∈ [tiny, { tiny with seq := .resetting }, running (.seed 5#64) tiny,
        running .seeddef tiny, running .next tiny, running .next { tiny with idx := 3 },
        running .next { tiny with idx := 3, cfg := { tinyCfg with writeAhead := .wrap } }],
      StorageOk s ∧ ∃ s', step s = .next s') := by
  intro s hs
  simp only [List.mem_cons, List.not_mem_nil, or_false] at hs
  rcases hs with rfl | rfl | rfl | rfl | rfl | rfl | rfl <;>
    exact ⟨⟨by decide +kernel, by decide +kernel, by decide +kernel⟩, exists_next (by decide +kernel)⟩

/-- LastBeatExactlyWhenTheCommandEnds: a step that emits the last beat, and one that emits one before
the last. -/
theorem witness_last :
    (Inv (running .next tiny) ∧ (∃ t, step (running .next tiny) = .next t) ∧
      (running .next tiny).turns.head? ≠ some .reset) ∧
    (Inv (attempting (.draw 3#64) 3#64 fertile) ∧
      (∃ t, step (attempting (.draw 3#64) 3#64 fertile) = .next t) ∧
      (attempting (.draw 3#64) 3#64 fertile).turns.head? ≠ some .reset) :=
  ⟨⟨running_inv _, exists_next (by decide +kernel), by decide +kernel⟩,
    ⟨fertile_inv, exists_next (by decide +kernel), by decide +kernel⟩⟩

/-- SpillAndStaleRegistersAreNeverObserved: two different states, alike to the host. -/
theorem witness_same :
    SameToHost tiny { tiny with spill := 1#64, cur := ⟨3#32, 0#64⟩, rem := 9#64 } ∧
      tiny ≠ { tiny with spill := 1#64, cur := ⟨3#32, 0#64⟩, rem := 9#64 } :=
  ⟨⟨rfl, rfl, rfl, rfl, rfl, rfl, rfl, rfl, fun h => absurd h (by decide +kernel),
    fun h => absurd h (by decide +kernel)⟩, by decide +kernel⟩

theorem exists_run {i : Instr} {s : State} {k : Nat}
    (h : ((nextOf (exec i s)).bind fun t => nextOf (Sys2Proof.core.run k t)).isSome = true) :
    ∃ t u, exec i s = .next t ∧ Sys2Proof.core.run k t = .next u := by
  cases he : exec i s with
  | next t =>
    rw [he] at h
    obtain ⟨u, hu⟩ := exists_next (o := Sys2Proof.core.run k t) (by simpa [nextOf] using h)
    exact ⟨t, u, rfl, hu⟩
  | fault f => rw [he] at h; simp [nextOf] at h
  | refused r => rw [he] at h; simp [nextOf] at h

/-- SameSeedAndCommandsGiveTheSameBeats: two states with different storage and different schedules
that give the same commands, and a run of each. -/
theorem witness_same_seed :
    let s := { running (.seed 5#64) tiny with chan := [encode .next], turns := [.take] }
    let t := { running (.seed 5#64) tiny with
      sv := [1#64, 2#64, 3#64, 4#64], idx := 2, turns := [.core, .present (encode .next), .take] }
    s.cfg = t.cfg ∧ s.pending = t.pending ∧ s.hasRoom = true ∧ t.hasRoom = true ∧
    (∀ turn ∈ s.turns ++ t.turns, turn ≠ .reset) ∧ s.sv ≠ t.sv ∧
    (∃ s1 s2, exec (.seed 5#64) s = .next s1 ∧ Sys2Proof.core.run 3 s1 = .next s2) ∧
    (∃ t1 t2, exec (.seed 5#64) t = .next t1 ∧ Sys2Proof.core.run 5 t1 = .next t2) := by
  refine ⟨rfl, by decide +kernel, by decide +kernel, by decide +kernel, by decide +kernel,
    by decide +kernel, ?_, ?_⟩ <;> exact exists_run (by decide +kernel)

/-- ResetEqualsSeeddefToTheHost. -/
theorem witness_reset_seeddef :
    let s := running .seeddef { tiny with idx := 2, spill := 7#64 }
    s.cfg.wf = true ∧ s.rspq = [] ∧ ∃ t, exec .seeddef s = .next t :=
  ⟨by decide +kernel, by decide +kernel, exists_next (by decide +kernel)⟩

/-- SeedWritesSVByTheRecurrence and SeeddefSeedsWithTheDefaultSeed: a free entry, an index at each
end of the recurrence, and the hardware of R8. -/
theorem witness_seed :
    tiny.cfg.wf = true ∧ tiny.rspq.length < tiny.cfg.rspDepth ∧ 0 + 1 < tiny.cfg.n ∧
    2 + 1 < tiny.cfg.n ∧ (seedWords tinyCfg 5#64)[0]?.isSome = true ∧
    (seedWords tinyCfg 5#64)[2]?.isSome = true ∧ State.reset.cfg = Config.default := by decide +kernel

/-- SeedingDependsOnTheSeedAlone. -/
theorem witness_seeding_alone :
    let t := { tiny with sv := [1#64, 2#64, 3#64, 4#64], idx := 3 }
    tiny.cfg = t.cfg ∧ tiny.rspq.length < tiny.cfg.rspDepth ∧ t.rspq.length < t.cfg.rspDepth ∧
    (∃ u, exec (.seed 5#64) tiny = .next u) ∧ (∃ u, exec (.seed 5#64) t = .next u) :=
  ⟨rfl, by decide +kernel, by decide +kernel, exists_next (by decide +kernel), exists_next (by decide +kernel)⟩

/-- ModNIsTheResidue: a negative expression. -/
theorem witness_modN : 0 < 4 ∧ 3 < 4 ∧ (∃ q : Int, -5 = ((3 : Nat) : Int) + q * (4 : Nat)) ∧
    modN (-5) 4 = 3 := ⟨by decide +kernel, by decide +kernel, ⟨-2, by decide +kernel⟩, by decide +kernel⟩

/-- AdvanceIndexesInEachRange, at the ends of each range (the indexes are those R121 and R123 give). -/
theorem witness_indexes :
    1 ≤ 397 ∧ 397 < 624 ∧ modN (0 - (624 - 1)) 624 = 1 ∧ modN (622 - (624 - 1)) 624 = 623 ∧
    modN (623 - (624 - 1)) 624 = 0 ∧ modN (0 - (624 - 397)) 624 = 397 ∧
    modN (226 - (624 - 397)) 624 = 623 ∧ modN (227 - (624 - 397)) 624 = 0 ∧
    modN (623 - (624 - 397)) 624 = 396 := by decide +kernel

/-- MixingWordJoinsTheTwoWords and TwistXorsAWhenTheDiscardedBitIsOne: a bit on each side of R, and a
word of each parity. -/
theorem witness_mixing :
    Config.default.wf = true ∧ 30 < 64 ∧ 30 < Config.default.r ∧ 31 < 64 ∧
    ¬ 31 < Config.default.r ∧ (2#64).getLsbD 0 = false ∧ (1#64).getLsbD 0 = true := by decide +kernel

/-- NextAdvancesOnceAndReturnsTheRawWord (and AdvanceNeverFailsAndKeepsTheRest): sound storage below
the wrap, at it, and at it under WRAP, with the three words read. -/
theorem witness_next :
    ∀ s ∈ [tiny, { tiny with idx := 3 },
        { tiny with idx := 3, cfg := { tinyCfg with writeAhead := .wrap } }],
      StorageOk s ∧ s.rspq.length < s.cfg.rspDepth ∧ s.sv[s.idx]?.isSome = true ∧
      s.sv[(s.idx + 1) % s.cfg.n]?.isSome = true ∧
      s.sv[(s.idx + s.cfg.m) % s.cfg.n]?.isSome = true := by
  intro s hs
  simp only [List.mem_cons, List.not_mem_nil, or_false] at hs
  rcases hs with rfl | rfl | rfl <;>
    exact ⟨⟨by decide +kernel, by decide +kernel, by decide +kernel⟩, by decide +kernel, by decide +kernel, by decide +kernel, by decide +kernel⟩

/-- The state and raw word of an advance that succeeds. -/
theorem exists_advance {s : State} (h : s.advance.toOption.isSome = true) :
    ∃ z t, s.advance = .ok (z, t) := by
  cases hs : s.advance with
  | ok p => exact ⟨p.1, p.2, rfl⟩
  | error f => rw [hs] at h; simp [Except.toOption] at h

/-- NextAdvanceReadsTheWordWrittenAhead: two advances in each of its three cases. -/
theorem witness_write_ahead :
    (tiny.idx + 1 < tiny.cfg.n ∧ tiny.sv[(tiny.idx + 2) % tiny.cfg.n]?.isSome = true ∧
      ((tiny.advance.toOption.map fun p => p.2.advance.toOption.isSome) = some true)) ∧
    (let s := { tiny with idx := 3 }
     s.idx + 1 = s.cfg.n ∧ s.cfg.writeAhead = .spill ∧ s.sv[0]?.isSome = true ∧
      ((s.advance.toOption.map fun p => p.2.advance.toOption.isSome) = some true)) ∧
    (let s := { tiny with idx := 3, cfg := { tinyCfg with writeAhead := .wrap } }
     s.idx + 1 = s.cfg.n ∧ s.cfg.writeAhead = .wrap ∧ s.sv[1]?.isSome = true ∧
      ((s.advance.toOption.map fun p => p.2.advance.toOption.isSome) = some true)) := by decide +kernel

/-- TemperIsABijection and IdxCountsAdvancesModuloN. -/
theorem witness_wf : Config.default.wf = true ∧ tiny.cfg.wf = true := by decide +kernel

/-- DrawStartSetsTheCounters: a start step, a count that is not 0, and a free entry for DRAW 0. -/
theorem witness_start :
    tiny.attempting = false ∧ 1#64 ≠ 0#64 ∧ 0xFFFFFFFFFFFFFFFF#64 ≠ 0#64 ∧
    tiny.rspq.length < tiny.cfg.rspDepth := by decide +kernel

/-- DrawDeliversTheAcceptedWord: an accepted word, before the last and the last; and
TypedDrawsDeliverTheNormalizedWord, with one word to go. -/
theorem witness_deliver :
    (let s := attempting (.draw 3#64) 3#64 fertile
     s.attempting = true ∧ s.rspq.length < s.cfg.rspDepth ∧
     (s.advance.toOption.map fun p => accept s.cfg p.1) = some true) ∧
    (let s := attempting (.rint 3#32) 1#64 fertile
     s.attempting = true ∧ s.rem = 1#64 ∧ s.rspq.length < s.cfg.rspDepth ∧
     (s.advance.toOption.map fun p => accept s.cfg p.1) = some true) := by decide +kernel

/-- RejectedAttemptAdvancesAndDeliversNothing: a rejected word, without a cap and at a cap of 1. -/
theorem witness_reject :
    (let s := attempting (.draw 3#64) 3#64 barren
     s.attempting = true ∧ s.rspq.length < s.cfg.rspDepth ∧
      (s.advance.toOption.map fun p => accept s.cfg p.1) = some false ∧
      s.cfg.retryCap ≠ some (s.rej + 1#64)) ∧
    (capped.attempting = true ∧ capped.rspq.length < capped.cfg.rspDepth ∧
      (capped.advance.toOption.map fun p => accept capped.cfg p.1) = some false ∧
      capped.cfg.retryCap = some (capped.rej + 1#64)) := by decide +kernel

/-- RejectedWordsNeverEndAnUncappedDraw, for two steps, and a schedule with every turn but reset. -/
theorem witness_endless :
    let s := attempting (.draw 3#64) 3#64 barren
    Inv s ∧ s.seq = .exec ∧ s.attempting = true ∧
    ((∀ turn ∈ s.turns, turn ≠ .reset) ∧
      ∀ turn ∈ [Turn.take, .present (encode .next), .core], turn ≠ .reset) ∧
    s.cfg.retryCap = none ∧
    s.rspq.length < s.cfg.rspDepth ∧
    (∀ (j : Nat) (u u' : State) (z : Word), j < 2 → advances j s = .ok u →
      u.advance = .ok (z, u') → accept s.cfg z = false) := by
  refine ⟨barren_inv, by decide +kernel, by decide +kernel, by decide +kernel, by decide +kernel, by decide +kernel, ?_⟩
  intro j u u' z hj hu hz
  have h : ∀ j < 2, ((advances j (attempting (.draw 3#64) 3#64 barren)).toOption.bind fun u =>
      u.advance.toOption.map fun p => p.1) = some 0#64 := by decide +kernel
  have h := h j hj
  rw [hu] at h
  simp only [Except.toOption, Option.bind_some, hz, Option.map_some, Option.some.injEq] at h
  rw [h]; decide

/-- DrawProducesTheBeatsOfItsCount: a draw under way with the host taking its beats, and runs that
end in each of its three cases. -/
theorem witness_beats :
    (let s := { attempting (.draw 1#64) 1#64 fertile with turns := [.core, .take, .core] }
     s.chan = [] ∧ (∀ turn ∈ s.turns, turn = .core ∨ turn = .take) ∧
      (nextOf (Sys2Proof.core.run 3 s)).map (fun t => (t.seq, t.produced)) =
        some (.idle, [⟨.data, 0#64, true⟩])) ∧
    (Inv (attempting (.draw 3#64) 3#64 fertile) ∧
      (nextOf (Sys2Proof.core.run 2 (attempting (.draw 3#64) 3#64 fertile))).map
        (fun t => (t.seq, t.produced)) = some (.exec, [⟨.data, 0#64, false⟩])) ∧
    (Inv capped ∧ (nextOf (Sys2Proof.core.run 2 capped)).map (fun t => (t.seq, t.produced)) =
        some (.idle, [⟨.unsat, 0#64, true⟩])) :=
  ⟨by decide +kernel, ⟨fertile_inv, by decide +kernel⟩, capped_inv, by decide +kernel⟩

/-- DrawNeverDeliversAWordOutsideTheWindow. -/
theorem witness_outside :
    let s := attempting (.draw 3#64) 3#64 fertile
    (∃ t b, exec (.draw 3#64) s = .next t ∧ t.rspq = s.rspq ++ [b] ∧ b.status = .data) ∧
    s.cfg.windowCompare = .exact := by
  refine ⟨?_, by decide +kernel⟩
  obtain ⟨t, ht⟩ := exists_next
    (o := exec (.draw 3#64) (attempting (.draw 3#64) 3#64 fertile)) (by decide +kernel)
  have h : (nextOf (exec (.draw 3#64) (attempting (.draw 3#64) 3#64 fertile))).map (·.rspq) =
    some [⟨.data, 0#64, false⟩] := by decide +kernel
  rw [ht] at h
  simp only [nextOf, Option.map_some, Option.some.injEq] at h
  exact ⟨t, ⟨.data, 0#64, false⟩, ht, h, rfl⟩

/-- AcceptanceWindowIsClosedAtBothEnds: a configuration of each kind. -/
theorem witness_window :
    Config.default.windowCompare = .exact ∧
    ({ windowCompare := .binary64 } : Config).windowCompare = .binary64 := by decide +kernel

/-- NoErrorBeatWithoutARetryCap: an uncapped draw, and a capped machine running each of the commands
that report no error. -/
theorem witness_no_error :
    (∃ t, exec (.draw 3#64) (attempting (.draw 3#64) 3#64 barren) = .next t) ∧
    (attempting (.draw 3#64) 3#64 barren).cfg.retryCap = none ∧ capped.cfg.retryCap ≠ none ∧
    (∃ t, exec (.seed 5#64) capped = .next t) ∧ (∃ t, exec .seeddef capped = .next t) ∧
    (∃ t, exec .next capped = .next t) :=
  ⟨exists_next (by decide +kernel), by decide +kernel, by decide +kernel, exists_next (by decide +kernel), exists_next (by decide +kernel),
    exists_next (by decide +kernel)⟩

/-- RoundingIsToNearestTiesToEven: a ratio that rounds to a finite value, a tie between two
representable values, and the least ratio that rounds to infinity, in binary32. -/
theorem witness_rounding :
    binary64.round false 7 2 = .fin false 4 ∧ binary64.round true 5 2 = .fin true 2 ∧
    fpDistance 5 2 2 = fpDistance 5 2 3 ∧
    binary32.round true ((2 ^ 25 - 1) * 2 ^ 252 * binary32.scale) 1 = .inf true ∧
    binary32.round true ((2 ^ 25 - 1) * 2 ^ 252 * binary32.scale - 1) 1 =
      .fin true ((2 ^ 24 - 1) * 2 ^ 253 * binary32.scale) := by decide +kernel

theorem witness_representable :
    binary64.Representable 2 ∧ binary64.Representable 3 :=
  ⟨⟨2, 0, by decide +kernel, by decide +kernel, by decide +kernel⟩, ⟨3, 0, by decide +kernel, by decide +kernel, by decide +kernel⟩⟩

/-- PatternOfTheValueOfAPattern: an infinity, a negative zero, a subnormal and a normal number. -/
theorem witness_pattern :
    ofBits64 0x7FF0000000000000#64 ≠ .nan ∧ ofBits64 0x8000000000000000#64 ≠ .nan ∧
    ofBits64 1#64 ≠ .nan ∧ ofBits64 0x4024000000000000#64 ≠ .nan ∧
    ofBits32 0xFF7FFFFF#32 ≠ .nan ∧ ofBits32 1#32 ≠ .nan := by decide +kernel

/-- FractionLiesInTheUnitInterval: accepted words at both ends and beside UB - 512, under both
comparisons, and their fractions. -/
theorem witness_fraction :
    Config.default.wf = true ∧ accept Config.default Config.default.lb = true ∧
    accept Config.default Config.default.ub = true ∧
    normFrac Config.default Config.default.lb = .fin false 0 ∧
    normFrac Config.default (BitVec.ofNat 64 (10 ^ 19 - 512)) = .fin false fpOne ∧
    normFrac Config.default (BitVec.ofNat 64 (10 ^ 19 - 513)) = .fin false (fpOne - 2 ^ 1021) ∧
    ({ windowCompare := .binary64 } : Config).wf = true ∧
    accept { windowCompare := .binary64 } (BitVec.ofNat 64 (10 ^ 18 - 64)) = true := by
  decide +kernel

/-- OneWordWindowGivesZero, and R9 admits the window. -/
theorem witness_one_word :
    ({ lb := 7#64, ub := 7#64 } : Config).wf = true ∧
    ({ lb := 7#64, ub := 7#64 } : Config).lb = ({ lb := 7#64, ub := 7#64 } : Config).ub := by decide +kernel

/-- RangeIsMappedFromZeroToRange: finite ranges of each sign in each format. -/
theorem witness_range :
    ofBits64 0x4024000000000000#64 = .fin false (10 * fpOne) ∧
    ofBits64 0xC024000000000000#64 = .fin true (10 * fpOne) ∧
    ofBits32 0x41200000#32 = .fin false (10 * fpOne) ∧
    ofBits32 0x80000001#32 = .fin true binary32.scale := by decide +kernel

/-- NanAndInfiniteRanges: NaN ranges, and a fraction of 0 and one above it. -/
theorem witness_nan :
    ofBits64 0x7FF8000000000001#64 = .nan ∧ ofBits32 0x7FC00001#32 = .nan ∧
    normFrac Config.default Config.default.lb = .fin false 0 ∧
    normFrac Config.default Config.default.ub = .fin false fpOne ∧ 0 < fpOne ∧
    accept Config.default Config.default.ub = true := by decide +kernel

/-- RintStaysBetweenZeroAndRangePlusOne and RintGivesRangePlusOneForTheTopWords: ranges at the ends
of each clause, and words on both sides of UB - 512. -/
theorem witness_rint :
    Config.default.wf = true ∧ accept Config.default (BitVec.ofNat 64 (10 ^ 19 - 512)) = true ∧
    accept Config.default (BitVec.ofNat 64 (10 ^ 19 - 513)) = true ∧
    (0 : Int) ≤ (0#32).toInt ∧ (0x7FFFFFFF#32).toInt = 2 ^ 31 - 1 ∧ (0xFFFFFFFF#32).toInt = -1 ∧
    (0xFFFFFFFE#32).toInt < -1 ∧ (0x80000000#32).toInt < -1 ∧
    10 ^ 19 - 512 ≤ (BitVec.ofNat 64 (10 ^ 19 - 512) : Word).toNat ∧
    (BitVec.ofNat 64 (10 ^ 19 - 513) : Word).toNat < 10 ^ 19 - 512 := by decide +kernel

/-- LiteralOutOfRangeIsRefused, at the first value out of each range. -/
theorem witness_literal :
    2 ^ 64 ≤ 18446744073709551616 ∧ 2 ^ 32 ≤ 4294967296 ∧ (-2147483649 : Int) < -2 ^ 31 ∧
    (2 : Int) ^ 31 - 1 < 2147483648 := by decide +kernel

/-- BatchHelperExpandsToTypedCommands: a selector that is none of the three. -/
theorem witness_selector : 'x' ≠ 'd' ∧ 'x' ≠ 'f' ∧ 'x' ≠ 'i' := by decide +kernel

end Sys2Proof.Tests
end

section
/-! PROOFS. What a step leaves of the configuration, and the state after reset
(spec/00_scope.md R8, R9; spec/10_state.md R22, R24, R26, R27, R36). -/

namespace Sys2Proof.Machine

/-- Settles O16, by the cases of a step: the host's moves and the sequencer's own steps rewrite no
field of the configuration, and an instruction has it in its frame. -/
theorem configurationNeverChanges : Obligations.ConfigurationNeverChanges := by
  intro s s' h
  have how := step_case s
  rw [h] at how
  cases how with
  | presented | taken | reset | reseeded | idle | illegalHeld | illegal => simp
  | ran i o wf turn seq dec run =>
    obtain ⟨hcfg, -⟩ := exec_frame run
    exact hcfg

/-- The word the seeding chain writes at index `i + 1`, from the one it wrote at `i` (R100). -/
theorem reset_sv_getElem?_succ {i : Nat} {v : Word} (hlt : i + 1 < 624)
    (hv : State.reset.sv[i]? = some v) :
    State.reset.sv[i + 1]? = some (seedNext Config.default v (i + 1)) :=
  seedWords_getElem?_succ Config.default _ v i hlt hv

/-- Settles O13: the first words follow the seeding recurrence from DEFAULT_SEED. -/
theorem resetStateHasTheGivenValues : Obligations.ResetStateHasTheGivenValues := by
  have sv0 : State.reset.sv[0]? = some 0x00000000012BD6AA#64 := seedWords_getElem?_zero _ _
  have sv1 : State.reset.sv[1]? = some 0x597276B55D2511E3#64 :=
    reset_sv_getElem?_succ (by decide) sv0
  have sv2 : State.reset.sv[2]? = some 0x7E4A9BB343ED42BC#64 :=
    reset_sv_getElem?_succ (by decide) sv1
  have sv3 : State.reset.sv[3]? = some 0x37FA255698D17E3C#64 :=
    reset_sv_getElem?_succ (by decide) sv2
  have length : State.reset.sv.length = 624 := seedWords_length _ _ (by decide)
  exact ⟨rfl, length, sv0, sv1, sv2, sv3, rfl, rfl, rfl, rfl, by decide, by decide, by decide,
    by decide, by decide, by decide⟩

/-- An MTCORE with a well-formed configuration is reset to a state that meets the invariant. -/
theorem resetOf_inv {cfg : Config} (hwf : cfg.wf = true) : Inv (State.resetOf cfg) where
  storage := State.resetOf_storage cfg hwf
  rspq_le := by simp
  resetting := fun _ => rfl
  draw := by simp

/-- Settles O14: the default configuration is well formed. -/
theorem resetMeetsTheInvariant : Obligations.ResetMeetsTheInvariant :=
  resetOf_inv (by decide)

end Sys2Proof.Machine
end

section
/-! PROOFS. The residue modulo N and the mixing word, bit by bit (spec/00_scope.md R13;
spec/41_advance.md R121). -/

namespace Sys2Proof.Machine

theorem modN_cast (e : Int) {n : Nat} (hn : 0 < n) : (modN e n : Int) = e % n :=
  Int.toNat_of_nonneg (Int.emod_nonneg e (by omega))

/-- Settles O25: `modN` is the Euclidean remainder, whose quotient is the witness. -/
theorem modNIsTheResidue : Obligations.ModNIsTheResidue := by
  intro e n hn
  refine ⟨modN_lt e hn, ⟨e / n, ?_⟩, fun r hr hq => ?_⟩
  · rw [modN_cast e hn, Int.mul_comm, Int.emod_add_mul_ediv]
  · obtain ⟨q, rfl⟩ := hq
    have hmod : ((r : Int) + q * n) % n = r := by
      rw [Int.add_mul_emod_self_right]
      exact Int.emod_eq_of_lt (by omega) (by omega)
    have hcast := modN_cast ((r : Int) + q * n) hn
    omega

/-- LMASK holds the low R bits (R8). -/
theorem Config.lmask_getLsbD {cfg : Config} (hr : cfg.r < 64) (i : Nat) :
    cfg.lmask.getLsbD i = decide (i < cfg.r) := by
  have hmask : cfg.lmask.toNat = 2 ^ cfg.r - 1 := by
    have hlt : 2 ^ cfg.r < 2 ^ 64 := Nat.pow_lt_pow_right (by decide) hr
    have hpos := Nat.two_pow_pos cfg.r
    simp only [Config.lmask, BitVec.toNat_sub, BitVec.toNat_shiftLeft, BitVec.toNat_ofNat,
      Nat.shiftLeft_eq]
    omega
  rw [BitVec.getLsbD, hmask, Nat.testBit_two_pow_sub_one]

/-- UMASK holds every bit LMASK does not (R8). -/
theorem Config.umask_getLsbD {cfg : Config} (hr : cfg.r < 64) {i : Nat} (hi : i < 64) :
    cfg.umask.getLsbD i = !decide (i < cfg.r) := by
  rw [Config.umask, BitVec.getLsbD_not, Config.lmask_getLsbD hr]
  simp [hi]

/-- Settles O27: each bit is masked out of one of the two words and kept of the other. -/
theorem mixingWordJoinsTheTwoWords : Obligations.MixingWordJoinsTheTwoWords := by
  intro cfg svk svj hwf i hi
  obtain ⟨hw, -, hrw⟩ := Config.wf_width hwf
  have hr : cfg.r < 64 := hw ▸ hrw
  rw [mixWord, BitVec.getLsbD_or, BitVec.getLsbD_and, BitVec.getLsbD_and,
    Config.lmask_getLsbD hr, Config.umask_getLsbD hr hi]
  by_cases hlow : i < cfg.r
  · simp [hlow]
  · simp [hlow]

end Sys2Proof.Machine
end

section
/-! PROOFS. Rounding to nearest, and the pattern of the value of a pattern
(spec/00_scope.md R15). -/

namespace Sys2Proof.Machine

/-! ### `roundDiv` is a nearest integer -/

/-- No whole multiple of `den` is nearer to `num` than `roundDiv num den`; if one is as near, there
is a tie and the rounded number is even. -/
theorem roundDiv_nearest (num : Nat) {den : Nat} (hd : 0 < den) (j : Nat) :
    fpDistance num den (roundDiv num den) ≤ fpDistance num den j ∧
      (fpDistance num den (roundDiv num den) = fpDistance num den j → j ≠ roundDiv num den →
        roundDiv num den % 2 = 0) := by
  have hle := roundDiv_le num hd
  have hge := le_roundDiv num hd
  have htie := roundDiv_tie (num := num) hd
  unfold fpDistance
  generalize roundDiv num den = r at *
  rcases Nat.lt_trichotomy j r with hlt | rfl | hgt
  · have hstep := Nat.mul_le_mul_right den (show j + 1 ≤ r from hlt)
    rw [Nat.add_mul, Nat.one_mul] at hstep
    exact ⟨by omega, fun heq _ => htie (by omega)⟩
  · exact ⟨le_rfl, fun _ hne => absurd rfl hne⟩
  · have hstep := Nat.mul_le_mul_right den (show r + 1 ≤ j from hgt)
    rw [Nat.add_mul, Nat.one_mul] at hstep
    exact ⟨by omega, fun heq _ => htie (by omega)⟩

/-- A distance to a count of the spacing `2 ^ k` is a distance in units of that spacing. -/
theorem fpDistance_mul (fmt : FpFormat) (num den j k : Nat) :
    fpDistance num den (j * 2 ^ k * fmt.scale) = fpDistance num (den * fmt.scale * 2 ^ k) j := by
  unfold fpDistance
  congr 2
  push_cast
  ring

/-! ### The rounded magnitude is a nearest representable one -/

/-- A representable magnitude is a whole count of the spacing `2 ^ k`, or it lies below the binade
of that spacing. -/
theorem representable_in_spacing {fmt : FpFormat} {mag : Nat} (h : fmt.Representable mag)
    (k : Nat) :
    (∃ j, mag = j * 2 ^ k * fmt.scale) ∨ (0 < k ∧ mag < 2 ^ fmt.fracBits * 2 ^ k * fmt.scale) := by
  obtain ⟨m, e, hm, -, rfl⟩ := h
  rcases Nat.lt_or_ge e k with hek | hke
  · refine .inr ⟨by omega, Nat.mul_lt_mul_of_pos_right ?_ (scale_pos fmt)⟩
    calc m * 2 ^ e < 2 ^ (fmt.fracBits + 1) * 2 ^ e :=
          Nat.mul_lt_mul_of_pos_right hm (Nat.two_pow_pos e)
      _ = 2 ^ fmt.fracBits * 2 ^ (e + 1) := by ring
      _ ≤ 2 ^ fmt.fracBits * 2 ^ k := Nat.mul_le_mul_left _ (Nat.pow_le_pow_right (by decide) hek)
  · refine .inl ⟨m * 2 ^ (e - k), ?_⟩
    rw [Nat.mul_assoc m (2 ^ (e - k)), ← Nat.pow_add, Nat.sub_add_cancel hke]

/-- The least magnitude of a binade past the first is at most the ratio. -/
theorem binade_start_le {fmt : FpFormat} {num den : Nat} (hd : 0 < den)
    (hk : 0 < fmt.binade num (den * fmt.scale)) :
    2 ^ fmt.fracBits * 2 ^ fmt.binade num (den * fmt.scale) * fmt.scale * den ≤ num := by
  have hlow := binade_lower hk
  rw [Nat.le_div_iff_mul_le (Nat.mul_pos hd (scale_pos fmt)), Nat.pow_add] at hlow
  calc 2 ^ fmt.fracBits * 2 ^ fmt.binade num (den * fmt.scale) * fmt.scale * den
      = 2 ^ fmt.fracBits * 2 ^ fmt.binade num (den * fmt.scale) * (den * fmt.scale) := by ring
    _ ≤ num := hlow

/-- What lies below a magnitude that the ratio reaches is further from the ratio. -/
theorem fpDistance_lt_of_lt_of_le {num den mag mag' : Nat} (hd : 0 < den) (hlt : mag' < mag)
    (hle : mag * den ≤ num) : fpDistance num den mag < fpDistance num den mag' := by
  have := Nat.mul_lt_mul_of_pos_right hlt hd
  unfold fpDistance
  omega

/-- The rounded magnitude is nearest among the representable ones; on a tie its significand is
even. -/
theorem magnitude_nearest {fmt : FpFormat} (num : Nat) {den mag : Nat} (hd : 0 < den)
    (hrep : fmt.Representable mag) :
    fpDistance num den (fmt.magnitude num den) ≤ fpDistance num den mag ∧
      (fpDistance num den (fmt.magnitude num den) = fpDistance num den mag →
        mag ≠ fmt.magnitude num den → fmt.significand num den % 2 = 0) := by
  have hD : 0 < den * fmt.scale * 2 ^ fmt.binade num (den * fmt.scale) :=
    Nat.mul_pos (Nat.mul_pos hd (scale_pos fmt)) (Nat.two_pow_pos _)
  have nearest := roundDiv_nearest num hD
  unfold FpFormat.magnitude
  rw [fpDistance_mul]
  rcases representable_in_spacing hrep (fmt.binade num (den * fmt.scale)) with
    ⟨j, rfl⟩ | ⟨hk, hbelow⟩
  · obtain ⟨hle, htie⟩ := nearest j
    rw [fpDistance_mul]
    exact ⟨hle, fun heq hne => htie heq (by rintro rfl; exact hne rfl)⟩
  · obtain ⟨hle, -⟩ := nearest (2 ^ fmt.fracBits)
    have hfar := fpDistance_lt_of_lt_of_le hd hbelow (binade_start_le hd hk)
    rw [fpDistance_mul] at hfar
    have hlt := lt_of_le_of_lt hle hfar
    exact ⟨hlt.le, fun heq => absurd heq hlt.ne⟩

/-- A ratio whose pattern is below infinity's has a representable magnitude. -/
theorem magnitude_representable {fmt : FpFormat} {num den : Nat} (hd : 0 < den)
    (hexp : 1 < fmt.maxExp)
    (hfin : fmt.binade num (den * fmt.scale) * 2 ^ fmt.fracBits + fmt.significand num den <
      fmt.maxExp * 2 ^ fmt.fracBits) : fmt.Representable (fmt.magnitude num den) := by
  have hlow := significand_lower (fmt := fmt) (num := num) hd
  unfold FpFormat.magnitude
  generalize fmt.binade num (den * fmt.scale) = k at *
  rcases Nat.lt_or_eq_of_le (significand_upper fmt num hd) with hlt | heq
  · refine ⟨_, k, hlt, ?_, rfl⟩
    rcases Nat.eq_zero_or_pos k with rfl | hk
    · simpa using hexp
    · refine Nat.lt_of_mul_lt_mul_right (a := 2 ^ fmt.fracBits) ?_
      have := hlow hk
      rw [Nat.add_mul]
      omega
  · refine ⟨2 ^ fmt.fracBits, k + 1, Nat.pow_lt_pow_right (by decide) (by omega), ?_, ?_⟩
    · refine Nat.lt_of_mul_lt_mul_right (a := 2 ^ fmt.fracBits) ?_
      rw [heq, Nat.pow_succ] at hfin
      linarith
    · rw [heq]; ring

/-- The pattern of the rounded magnitude is even when its significand is. -/
theorem pack_magnitude_even {fmt : FpFormat} {num den : Nat} (hd : 0 < den)
    (hfrac : 0 < fmt.fracBits) (heven : fmt.significand num den % 2 = 0) :
    fmt.pack 0 (.fin false (fmt.magnitude num den)) % 2 = 0 := by
  have hpow : 2 ^ fmt.fracBits % 2 = 0 := by
    obtain ⟨f, hf⟩ := Nat.exists_eq_succ_of_ne_zero hfrac.ne'
    rw [hf, Nat.pow_succ, Nat.mul_mod_left]
  rw [FpFormat.magnitude, pack_fin fmt 0 false (significand_upper fmt num hd)
    (significand_lower hd), Nat.add_mod, Nat.add_mod (fmt.signBit false), Nat.mul_mod, hpow, heven]
  simp [FpFormat.signBit]

/-! ### Where rounding overflows -/

/-- The sum of binade and significand, the pattern before its sign, says whether rounding
overflows. -/
theorem round_eq_inf_iff {fmt : FpFormat} {neg : Bool} {num den : Nat} :
    fmt.round neg num den = .inf neg ↔ fmt.maxExp * 2 ^ fmt.fracBits ≤
      fmt.binade num (den * fmt.scale) * 2 ^ fmt.fracBits + fmt.significand num den := by
  rw [round_eq]
  split
  case isTrue hfin => exact iff_of_false FVal.noConfusion (Nat.not_le.2 hfin)
  case isFalse hinf => exact iff_of_true rfl (Nat.not_lt.1 hinf)

/-- Rounding reaches an even number from half below it on, the tie included. -/
theorem le_roundDiv_iff_of_even {num den a : Nat} (hd : 0 < den) (ha : a % 2 = 0) :
    a ≤ roundDiv num den ↔ 2 * (a * den) ≤ 2 * num + den := by
  have hle := roundDiv_le num hd
  have hge := le_roundDiv num hd
  have htie := roundDiv_tie (num := num) hd
  generalize roundDiv num den = r at *
  constructor
  · intro har
    have := Nat.mul_le_mul_right den har
    omega
  · intro h
    by_contra hlt
    have hstep := Nat.mul_le_mul_right den (show r + 1 ≤ a by omega)
    rw [Nat.add_mul, Nat.one_mul] at hstep
    have heven := htie (.inl (by omega))
    have hnext := Nat.mul_le_mul_right den (show r + 2 ≤ a by omega)
    rw [Nat.add_mul] at hnext
    omega

/-- The largest finite value and half a spacing, without a subtraction: with `u` half the spacing of
the top binade, it is `4 * 2 ^ fracBits * u - u`. -/
theorem overflow_threshold_le_iff (fmt : FpFormat) (num den e : Nat) :
    (2 ^ (fmt.fracBits + 2) - 1) * 2 ^ e * fmt.scale * den ≤ num ↔
      4 * (2 ^ fmt.fracBits * (2 ^ e * (den * fmt.scale))) ≤ num + 2 ^ e * (den * fmt.scale) := by
  have hsplit : (2 ^ (fmt.fracBits + 2) - 1) * 2 ^ e * fmt.scale * den =
      4 * (2 ^ fmt.fracBits * (2 ^ e * (den * fmt.scale))) - 2 ^ e * (den * fmt.scale) := by
    rw [show (2 ^ (fmt.fracBits + 2) - 1) * 2 ^ e * fmt.scale * den =
      (2 ^ (fmt.fracBits + 2) - 1) * (2 ^ e * (den * fmt.scale)) by ring, Nat.sub_mul]
    congr 1 <;> ring
  rw [hsplit]
  exact Nat.sub_le_iff_le_add

/-- The pattern of a ratio reaches infinity's exactly when the ratio reaches the largest finite
value and half a spacing: never below the top binade, always above it, and in it from the tie on. -/
theorem overflow_iff {fmt : FpFormat} {num den e : Nat} (hd : 0 < den) (he : fmt.maxExp = e + 3) :
    fmt.maxExp * 2 ^ fmt.fracBits ≤
        fmt.binade num (den * fmt.scale) * 2 ^ fmt.fracBits + fmt.significand num den ↔
      (2 ^ (fmt.fracBits + 2) - 1) * 2 ^ e * fmt.scale * den ≤ num := by
  have hD : 0 < den * fmt.scale := Nat.mul_pos hd (scale_pos fmt)
  have hupper := significand_upper fmt num hd
  have hlower := significand_lower (fmt := fmt) (num := num) hd
  have hlt := binade_upper fmt num (den * fmt.scale)
  have hge := binade_lower (fmt := fmt) (num := num) (den := den * fmt.scale)
  have hP := Nat.two_pow_pos fmt.fracBits
  have hsig : fmt.significand num den =
    roundDiv num (den * fmt.scale * 2 ^ fmt.binade num (den * fmt.scale)) := rfl
  rw [overflow_threshold_le_iff, he]
  rw [Nat.div_lt_iff_lt_mul hD] at hlt
  rw [Nat.le_div_iff_mul_le hD] at hge
  generalize fmt.binade num (den * fmt.scale) = k at *
  generalize fmt.significand num den = m at *
  generalize den * fmt.scale = D at *
  rw [Nat.pow_succ] at hupper
  rcases Nat.lt_trichotomy k (e + 1) with hk | rfl | hk
  · have hpattern : k * 2 ^ fmt.fracBits ≤ e * 2 ^ fmt.fracBits :=
      Nat.mul_le_mul_right _ (by omega)
    have hratio : num < 2 * (2 ^ fmt.fracBits * (2 ^ e * D)) :=
      calc num < 2 ^ (fmt.fracBits + k + 1) * D := hlt
        _ ≤ 2 ^ (fmt.fracBits + e + 1) * D :=
            Nat.mul_le_mul_right _ (Nat.pow_le_pow_right (by decide) (by omega))
        _ = 2 * (2 ^ fmt.fracBits * (2 ^ e * D)) := by ring
    have : 2 ^ e * D ≤ 2 ^ fmt.fracBits * (2 ^ e * D) := Nat.le_mul_of_pos_left _ hP
    rw [Nat.add_mul]
    exact iff_of_false (by omega) (by omega)
  · have hspacing : 2 ^ (fmt.fracBits + 1) * (D * 2 ^ (e + 1)) =
        4 * (2 ^ fmt.fracBits * (2 ^ e * D)) := by ring
    have heven : 2 ^ (fmt.fracBits + 1) % 2 = 0 := by rw [Nat.pow_succ, Nat.mul_mod_left]
    have hround := le_roundDiv_iff_of_even (num := num)
      (Nat.mul_pos hD (Nat.two_pow_pos (e + 1))) heven
    rw [← hsig, hspacing, show D * 2 ^ (e + 1) = 2 * (2 ^ e * D) by ring, Nat.pow_succ] at hround
    calc (e + 3) * 2 ^ fmt.fracBits ≤ (e + 1) * 2 ^ fmt.fracBits + m
        ↔ 2 ^ fmt.fracBits * 2 ≤ m := by rw [Nat.add_mul, Nat.add_mul]; omega
      _ ↔ 2 * (4 * (2 ^ fmt.fracBits * (2 ^ e * D))) ≤ 2 * num + 2 * (2 ^ e * D) := hround
      _ ↔ 4 * (2 ^ fmt.fracBits * (2 ^ e * D)) ≤ num + 2 ^ e * D := by omega
  · have hpattern : (e + 2) * 2 ^ fmt.fracBits ≤ k * 2 ^ fmt.fracBits :=
      Nat.mul_le_mul_right _ hk
    have hfull := hlower (by omega)
    have hratio : 4 * (2 ^ fmt.fracBits * (2 ^ e * D)) ≤ num :=
      calc 4 * (2 ^ fmt.fracBits * (2 ^ e * D)) = 2 ^ (fmt.fracBits + (e + 2)) * D := by ring
        _ ≤ 2 ^ (fmt.fracBits + k) * D :=
            Nat.mul_le_mul_right _ (Nat.pow_le_pow_right (by decide) (by omega))
        _ ≤ num := hge (by omega)
    rw [Nat.add_mul] at hpattern ⊢
    exact iff_of_true (by omega) (by omega)

/-- Settles O43: within the ratio's binade `roundDiv` is nearest, every representable magnitude
below the binade is further away, and the sum of binade and significand says whether it overflows. -/
theorem roundingIsToNearestTiesToEven : Obligations.RoundingIsToNearestTiesToEven := by
  intro fmt hfmt neg num den hd
  have hfrac : 0 < fmt.fracBits := by rcases hfmt with rfl | rfl <;> decide
  have hexp : 3 ≤ fmt.maxExp := by rcases hfmt with rfl | rfl <;> decide
  have hover := overflow_iff (fmt := fmt) (num := num) hd (Nat.sub_add_cancel hexp).symm
  refine ⟨?_, round_eq_inf_iff.trans hover, fun mag hmag => ?_⟩
  · rw [round_eq]
    split
    · exact .inl ⟨_, rfl⟩
    · exact .inr rfl
  · obtain ⟨-, rfl⟩ := round_fin_inv hmag
    have hfin := mt (round_eq_inf_iff (neg := neg)).2 (by rw [hmag]; exact FVal.noConfusion)
    rw [Nat.not_le] at hfin
    refine ⟨magnitude_representable hd (by omega) hfin, fun mag' hrep => ?_⟩
    obtain ⟨hle, htie⟩ := magnitude_nearest num hd hrep
    exact ⟨hle, fun heq hne => pack_magnitude_even hd hfrac (htie heq hne)⟩

/-! ### The pattern of the value of a pattern -/

/-- A pattern is its sign bit, its exponent and its fraction. -/
theorem pattern_eq_fields {fmt : FpFormat} {p : Nat}
    (hp : p < 2 ^ (fmt.fracBits + fmt.expBits + 1)) :
    fmt.signBit (decide (p / 2 ^ (fmt.fracBits + fmt.expBits) % 2 = 1)) +
      p / 2 ^ fmt.fracBits % 2 ^ fmt.expBits * 2 ^ fmt.fracBits + p % 2 ^ fmt.fracBits = p := by
  have hsign : fmt.signBit (decide (p / 2 ^ (fmt.fracBits + fmt.expBits) % 2 = 1)) =
      p / 2 ^ (fmt.fracBits + fmt.expBits) * 2 ^ (fmt.fracBits + fmt.expBits) := by
    have hbit : p / 2 ^ (fmt.fracBits + fmt.expBits) < 2 := by
      rw [Nat.div_lt_iff_lt_mul (Nat.two_pow_pos _), ← Nat.pow_succ']
      exact hp
    generalize p / 2 ^ (fmt.fracBits + fmt.expBits) = b at *
    obtain rfl | rfl : b = 0 ∨ b = 1 := by omega
    · simp [FpFormat.signBit]
    · simp [FpFormat.signBit]
  calc _ = (p / 2 ^ fmt.fracBits / 2 ^ fmt.expBits * 2 ^ fmt.expBits +
        p / 2 ^ fmt.fracBits % 2 ^ fmt.expBits) * 2 ^ fmt.fracBits + p % 2 ^ fmt.fracBits := by
        rw [hsign, Nat.div_div_eq_div_mul, ← Nat.pow_add, Nat.add_mul, Nat.mul_assoc,
          ← Nat.pow_add, Nat.add_comm fmt.expBits]
    _ = p := by rw [Nat.div_add_mod', Nat.div_add_mod']

/-- A pattern that is no NaN is the pattern of its value. -/
theorem pack_unpack {fmt : FpFormat} (nanPattern : Nat) {p : Nat}
    (hp : p < 2 ^ (fmt.fracBits + fmt.expBits + 1)) (hnan : fmt.unpack p ≠ .nan) :
    fmt.pack nanPattern (fmt.unpack p) = p := by
  have hfields := pattern_eq_fields hp
  have hfrac : p % 2 ^ fmt.fracBits < 2 ^ fmt.fracBits := Nat.mod_lt _ (Nat.two_pow_pos _)
  unfold FpFormat.unpack at hnan ⊢
  dsimp only at hnan ⊢
  generalize p % 2 ^ fmt.fracBits = frac at *
  generalize p / 2 ^ fmt.fracBits % 2 ^ fmt.expBits = exp at *
  generalize decide (p / 2 ^ (fmt.fracBits + fmt.expBits) % 2 = 1) = neg at *
  by_cases hmax : exp = fmt.maxExp
  · rw [if_pos hmax] at hnan ⊢
    by_cases hzero : frac = 0
    · rw [if_pos hzero, FpFormat.pack, ← hmax]
      omega
    · rw [if_neg hzero] at hnan
      exact absurd rfl hnan
  rw [if_neg hmax]
  by_cases hsub : exp = 0
  · have hpack := pack_fin fmt nanPattern neg (m := frac) (k := 0)
      (by rw [Nat.pow_succ]; omega) (by simp)
    rw [Nat.pow_zero, Nat.mul_one] at hpack
    rw [if_pos hsub, hpack, ← hsub, hfields]
  · rw [if_neg hsub, pack_fin fmt nanPattern neg (by rw [Nat.pow_succ]; omega)
      (fun _ => Nat.le_add_right _ _)]
    obtain ⟨k, rfl⟩ := Nat.exists_eq_succ_of_ne_zero hsub
    rw [Nat.succ_mul] at hfields
    rw [Nat.succ_sub_one]
    omega

/-- Settles O44: both formats use every bit of their words. -/
theorem patternOfTheValueOfAPattern : Obligations.PatternOfTheValueOfAPattern := by
  refine ⟨fun v nan hv => ?_, fun v nan hv => ?_⟩
  · rw [FVal.bits64, ofBits64, pack_unpack (fmt := binary64) _ v.isLt hv, BitVec.ofNat_toNat,
      BitVec.setWidth_eq]
  · rw [FVal.bits32, ofBits32, pack_unpack (fmt := binary32) _ v.isLt hv, BitVec.ofNat_toNat,
      BitVec.setWidth_eq]

end Sys2Proof.Machine
end

section
/-! PROOFS. What one step does at the interface: the turn it plays, the command it accepts or runs,
the beat the host takes, and what a full response queue holds (spec/10_state.md R28 to R32;
spec/20_memory.md R51, R53, R57). -/

namespace Sys2Proof.Machine

/-! ### The turn a step plays -/

/-- With a turn scheduled, a step takes it off the schedule and plays it. -/
theorem step_of_turns {s : State} {turn : Turn} {rest : List Turn} (wf : s.cfg.wf = true)
    (h : s.turns = turn :: rest) : step s = State.playTurn { s with turns := rest } turn := by
  simp [step, wf, State.playNext, State.turn, State.popTurn, h]

/-- The turn is MTCORE's where it is the scheduled one and where the schedule is empty. -/
theorem State.turn_eq_core {s : State} (h : s.turns = [] ∨ s.turns.head? = some .core) :
    s.turn = .core := by
  rcases h with h | h
  · exact State.turn_of_nil h
  · simp [State.turn, List.headD_eq_head?_getD, h]

theorem State.coreStep_of_idle {s : State} (h : s.seq = .idle) :
    s.coreStep = .next s.acceptCommand := by
  rw [State.coreStep, h]

theorem State.coreStep_of_decode {s : State} {i : Instr} (h : s.seq = .exec)
    (dec : decode s.cur = .ok i) : s.coreStep = exec i s := by
  simp only [State.coreStep, h, State.runCommand, dec]

theorem State.coreStep_of_illegal {s : State} {r : Reject} (h : s.seq = .exec)
    (dec : decode s.cur = .error r) : s.coreStep = s.raiseIllegal := by
  simp only [State.coreStep, h, State.runCommand, dec]

/-- Settles O6: the empty schedule leaves the turn to MTCORE, and a scheduled turn of MTCORE is
played in the state with the rest of the schedule. -/
theorem stepRunsTheDecodedCommand : Obligations.StepRunsTheDecodedCommand := by
  intro s i wf seq dec
  refine ⟨fun h => ?_, fun rest h => ?_⟩
  · rw [step_of_no_turns wf h, State.coreStep_of_decode seq dec]
  · rw [step_of_turns wf h]
    exact State.coreStep_of_decode seq dec

/-- Settles O8: acceptance is MTCORE's step while idle; of the steps while BUSY only the turn in
which a host presents a command changes the channel. -/
theorem commandIsAcceptedOnlyWhileIdle : Obligations.CommandIsAcceptedOnlyWhileIdle := by
  refine ⟨fun s c rest wf turn seq chan => ?_, fun s s' busy h => ?_⟩
  · rw [step_of_core wf (State.turn_eq_core turn), State.coreStep_of_idle (by simpa using seq),
      State.acceptCommand_cons (by simpa using chan)]
    rfl
  · have how := step_case s
    rw [h] at how
    cases how with
    | presented c wf turn => exact .inr ⟨c, turn, rfl⟩
    | idle wf turn seq => exact absurd seq ((State.busy_iff s).1 busy)
    | taken | reset | reseeded | illegalHeld | illegal => exact .inl (by simp)
    | ran i o wf turn seq dec run =>
      obtain ⟨-, -, hchan, -⟩ := exec_frame run
      exact .inl hchan

theorem State.takeBeat_nil {s : State} (h : s.rspq = []) : s.takeBeat = s := by
  rw [State.takeBeat, h]

theorem State.takeBeat_cons {s : State} {b : Beat} {q : List Beat} (h : s.rspq = b :: q) :
    s.takeBeat = { s with rspq := q, taken := s.taken ++ [b] } := by
  rw [State.takeBeat, h]

/-- Settles O10: the turn is the host's, and the queue has a head to take. -/
theorem hostTakesTheHeadBeatOnce : Obligations.HostTakesTheHeadBeatOnce := by
  intro s b q rest wf turns rspq
  rw [step_of_turns wf turns, State.playTurn,
    State.takeBeat_cons (s := { s with turns := rest }) rspq]

/-! ### The hold while RSPQ is full -/

theorem State.hasRoom_of_full {s : State} (h : s.cfg.rspDepth ≤ s.rspq.length) :
    s.hasRoom = false := by
  simpa [State.hasRoom] using h

theorem State.attempt_of_full {s : State} (h : s.hasRoom = false) (result : Word → Word) :
    s.attempt result = .next s :=
  State.whenRoom_of_full h _

/-- Settles O11: each of these steps runs under `State.whenRoom`, which changes nothing while RSPQ
is full. -/
theorem fullQueueHoldsEveryEmittingStep : Obligations.FullQueueHoldsEveryEmittingStep := by
  intro s hfull
  have full := State.hasRoom_of_full hfull
  refine ⟨fun v => ?_, ?_, ?_, fun first => ?_, fun running v r => ?_,
    fun wf turn seq illegal => ?_⟩
  · rw [exec, execSeed, State.whenRoom_of_full full]
  · rw [exec, execSeeddef, State.whenRoom_of_full full]
  · rw [exec, execNext, State.whenRoom_of_full full]
  · simp [exec, execDraw, first, State.whenRoom_of_full full]
  · obtain ⟨hdraw, hrdbl, hrflt, hrint⟩ := exec_of_attempting running
    rw [hdraw, hrdbl, hrflt, hrint]
    simp only [State.attempt_of_full full, and_self]
  · cases dec : decode s.cur with
    | ok i => exact absurd dec (illegal i)
    | error r =>
      rw [step_of_core wf (State.turn_eq_core turn),
        State.coreStep_of_illegal (by simpa using seq) (by simpa using dec)]
      exact State.whenRoom_of_full (by simpa using full) _

/-! ### The status MTCORE reports -/

/-- Settles O51: SEQ has no value but `RESETTING`, `IDLE` and `EXEC`. -/
theorem busyAndStatusCodes : Obligations.BusyAndStatusCodes := by
  refine ⟨fun s => ?_, rfl, rfl, rfl, rfl⟩
  rw [State.busy_iff]
  cases s.seq <;> simp

end Sys2Proof.Machine
end

section
/-! PROOFS. The invariant: every step from a state that meets it answers a next state that meets it
(spec/10_state.md R22, R24, R29, R30; spec/20_memory.md R56). -/

namespace Sys2Proof.Machine

/-! ### What the parts of the invariant rest on -/

/-- The progress of a draw is a matter of the configuration, CUR and the counters alone. -/
theorem DrawProgress.congr {s t : State} (h : DrawProgress s)
    (same : t.cfg = s.cfg ∧ t.cur = s.cur ∧ t.rem = s.rem ∧ t.delivered = s.delivered ∧
      t.rej = s.rej) : DrawProgress t := by
  obtain ⟨hcfg, hcur, hrem, hdelivered, hrej⟩ := same
  constructor
  · rw [hcur, hrem, hdelivered]; exact h.count_eq
  · rw [hrem]; exact h.rem_ne
  · rw [hcfg, hrej]; exact h.rej_lt

/-- While MTCORE is idle the invariant is about the storage and RSPQ alone. -/
theorem Inv.of_idle {s : State} (storage : StorageOk s)
    (rspq_le : s.rspq.length ≤ s.cfg.rspDepth) (idle : s.seq = .idle) : Inv s where
  storage := storage
  rspq_le := rspq_le
  resetting := fun seq => by rw [idle] at seq; cases seq
  draw := fun seq => by rw [idle] at seq; cases seq

/-- A finite RETRY_CAP is at least 1 (R155). -/
theorem Config.wf_cap_pos {cfg : Config} {cap : Word} (hwf : cfg.wf = true)
    (h : cfg.retryCap = some cap) : 0 < cap.toNat := by
  have hne : cap ≠ 0#64 := fun h0 => Config.wf_cap hwf (by rw [h, h0])
  bv_omega

/-! ### The host's moves and the sequencer's own steps -/

theorem Inv.popTurn {s : State} (h : Inv s) : Inv s.popTurn where
  storage := h.storage.congr rfl rfl rfl
  rspq_le := h.rspq_le
  resetting := h.resetting
  draw := fun seq running => (h.draw seq running).congr (by simp)

theorem Inv.presentCommand {s : State} (h : Inv s) (c : Command) : Inv (s.presentCommand c) where
  storage := h.storage.congr rfl rfl rfl
  rspq_le := h.rspq_le
  resetting := h.resetting
  draw := fun seq running => (h.draw seq running).congr (by simp)

theorem Inv.takeBeat {s : State} (h : Inv s) : Inv s.takeBeat where
  storage := h.storage.congr (by simp) (by simp) (by simp)
  rspq_le := by
    rw [State.takeBeat_rspq, State.takeBeat_cfg, List.length_tail]
    exact (Nat.sub_le _ _).trans h.rspq_le
  resetting := fun seq => by simp [h.resetting (by simpa using seq)]
  draw := fun seq running =>
    (h.draw (by simpa using seq) (by simpa using running)).congr (by simp)

theorem Inv.assertReset {s : State} (h : Inv s) : Inv s.assertReset where
  storage := h.storage.congr rfl rfl rfl
  rspq_le := Nat.zero_le _
  resetting := fun _ => rfl
  draw := nofun

theorem Inv.resetSeeding {s : State} (h : Inv s) : Inv s.resetSeeding :=
  .of_idle ((State.resetOf_storage s.cfg h.storage.cfg_wf).congr rfl rfl rfl) (Nat.zero_le _) rfl

/-- The accepted command has not taken its start step, so no counter has a meaning yet. -/
theorem Inv.acceptCommand {s : State} (h : Inv s) : Inv s.acceptCommand := by
  cases chan : s.chan with
  | nil => rwa [State.acceptCommand_nil chan]
  | cons c rest =>
    rw [State.acceptCommand_cons chan]
    exact ⟨h.storage.congr rfl rfl rfl, h.rspq_le, nofun, nofun⟩

/-! ### The steps of the running command -/

/-- A command that ends with a beat, in a step taken with a free entry of RSPQ. -/
theorem Inv.emit_finish {s : State} (storage : StorageOk s) (room : s.hasRoom = true)
    (status : Status) (data : Word) (last : Bool) : Inv (s.emit status data last).finish := by
  rw [State.hasRoom_iff] at room
  refine .of_idle (storage.congr rfl rfl rfl) ?_ rfl
  simpa using room

/-- The start step of a draw sets REM to the count and clears DELIVERED and REJ (R153). -/
theorem Inv.startDraw {s : State} {count : Word} (h : Inv s) (seq : s.seq = .exec)
    (which : drawCount s.cur = some count) (ne : count ≠ 0#64) : Inv (s.startDraw count) where
  storage := h.storage.congr rfl rfl rfl
  rspq_le := h.rspq_le
  resetting := fun hseq => by simp [seq] at hseq
  draw := fun _ _ =>
    ⟨⟨count, which, rfl⟩, ne, fun _ hcap => Config.wf_cap_pos h.storage.cfg_wf hcap⟩

/-- ADVANCE touches neither the counters nor RSPQ. -/
theorem Inv.advance {s t : State} {z : Word} (h : Inv s) (adv : s.advance = .ok (z, t)) :
    Inv t := by
  have storage := State.advance_storage adv h.storage
  rw [State.advance_frame adv] at storage ⊢
  exact ⟨storage, h.rspq_le, h.resetting, fun seq running => (h.draw seq running).congr (by simp)⟩

theorem State.advance_hasRoom {s t : State} {z : Word} (adv : s.advance = .ok (z, t)) :
    t.hasRoom = s.hasRoom := by
  rw [State.advance_frame adv]
  rfl

/-- An accepted word moves 1 from REM to DELIVERED, so their sum stays the count (R153). -/
theorem DrawProgress.deliver {s : State} (h : DrawProgress s) (hwf : s.cfg.wf = true) (data : Word)
    (more : s.rem - 1#64 ≠ 0#64) : DrawProgress (s.deliver data) := by
  obtain ⟨⟨count, which, sum⟩, rem_ne, -⟩ := h
  refine ⟨⟨count, by simpa using which, ?_⟩, by simpa using more, fun cap hcap => ?_⟩
  · rw [State.deliver_rem, State.deliver_delivered]
    bv_omega
  · rw [State.deliver_rej]
    exact Config.wf_cap_pos hwf (by simpa using hcap)

theorem Inv.deliver {s : State} (h : Inv s) (room : s.hasRoom = true) (seq : s.seq = .exec)
    (running : s.attempting = true) (data : Word) : Inv (s.deliver data) where
  storage := h.storage.congr (by simp) (by simp) (by simp)
  rspq_le := by simpa using room
  resetting := fun hseq => by
    rw [State.deliver_seq, seq] at hseq
    split at hseq <;> cases hseq
  draw := fun hseq _ =>
    (h.draw seq running).deliver h.storage.cfg_wf data fun hlast => by simp [hlast] at hseq

/-- A rejected word that does not reach RETRY_CAP leaves REJ below it (R155). -/
theorem DrawProgress.reject {s : State} (h : DrawProgress s)
    (below : s.cfg.retryCap ≠ some (s.rej + 1#64)) : DrawProgress s.reject := by
  obtain ⟨count_eq, rem_ne, rej_lt⟩ := h
  refine ⟨by simpa using count_eq, by simpa using rem_ne, fun cap hcap => ?_⟩
  rw [State.reject_cfg] at hcap
  have hlt := rej_lt cap hcap
  have hne : cap ≠ s.rej + 1#64 := fun heq => below (by rw [hcap, heq])
  rw [State.reject_rej]
  bv_omega

theorem Inv.reject {s : State} (h : Inv s) (room : s.hasRoom = true) (seq : s.seq = .exec)
    (running : s.attempting = true) : Inv s.reject where
  storage := h.storage.congr (by simp) (by simp) (by simp)
  rspq_le := by
    rw [State.hasRoom_iff] at room
    rw [State.reject_rspq, State.reject_cfg]
    split
    · simpa using room
    · exact h.rspq_le
  resetting := fun hseq => by
    rw [State.reject_seq, seq] at hseq
    split at hseq <;> cases hseq
  draw := fun hseq _ => (h.draw seq running).reject fun hcap => by simp [hcap] at hseq

/-- A step of the running command answers, since ADVANCE does on sound storage, and keeps the
invariant. -/
theorem exec_inv {s : State} {i : Instr} (h : Inv s) (seq : s.seq = .exec)
    (dec : decode s.cur = .ok i) : ∃ s', exec i s = .next s' ∧ Inv s' := by
  have how := exec_case i s
  generalize exec i s = o at how ⊢
  cases how with
  | held => exact ⟨s, rfl, h⟩
  | badIndex f room adv =>
    obtain ⟨z, t, hok⟩ := State.advance_of_storage h.storage
    rw [hok] at adv
    cases adv
  | seeded v which room =>
    exact ⟨_, rfl, .emit_finish (s.seeding_storage v h.storage.cfg_wf) room _ _ _⟩
  | rawWord z t which room adv =>
    exact ⟨_, rfl, .emit_finish (h.advance adv).storage ((State.advance_hasRoom adv).trans room)
      _ _ _⟩
  | emptyDraw which room => exact ⟨_, rfl, .emit_finish h.storage room _ _ _⟩
  | started count which ne =>
    exact ⟨_, rfl, h.startDraw seq (by simpa only [drawCount, dec] using which) ne⟩
  | delivered z data t which room running adv =>
    have frame := State.advance_frame adv
    exact ⟨_, rfl, (h.advance adv).deliver ((State.advance_hasRoom adv).trans room)
      (by rw [frame]; exact seq) (by rw [frame]; exact running) data⟩
  | rejected z t which room running adv =>
    have frame := State.advance_frame adv
    exact ⟨_, rfl, (h.advance adv).reject ((State.advance_hasRoom adv).trans room)
      (by rw [frame]; exact seq) (by rw [frame]; exact running)⟩

/-- Settles O15, by the cases of a step. -/
theorem everyStepKeepsTheInvariantAndNeverStops :
    Obligations.EveryStepKeepsTheInvariantAndNeverStops := by
  intro s hinv
  have h := hinv.popTurn
  have how := step_case s
  generalize step s = o at how ⊢
  cases how with
  | badConfig hwf => rw [hinv.storage.cfg_wf] at hwf; cases hwf
  | presented c => exact ⟨_, rfl, h.presentCommand c⟩
  | taken => exact ⟨_, rfl, h.takeBeat⟩
  | reset => exact ⟨_, rfl, h.assertReset⟩
  | reseeded => exact ⟨_, rfl, h.resetSeeding⟩
  | idle => exact ⟨_, rfl, h.acceptCommand⟩
  | illegalHeld => exact ⟨_, rfl, h⟩
  | illegal r wf turn seq dec room => exact ⟨_, rfl, .emit_finish h.storage room _ _ _⟩
  | ran i o wf turn seq dec run =>
    subst run
    exact exec_inv h seq dec

end Sys2Proof.Machine
end

section
/-! PROOFS. What writes SV, IDX and SPILL (spec/10_state.md R21, R23, R25). -/

namespace Sys2Proof.Machine

/-- What a step that leaves the storage as an ADVANCE made it does to SV, IDX and SPILL (R124, R125),
the ADVANCE being that of the state with the schedule moved on. -/
theorem storage_of_advance {s s' t : State} {z : Word} (hidx : s.idx < s.cfg.n)
    (adv : s.popTurn.advance = .ok (z, t))
    (same : s'.sv = t.sv ∧ s'.idx = t.idx ∧ s'.spill = t.spill) :
    (∃ z t, s.advance = .ok (z, t) ∧ s'.sv = t.sv ∧ s'.idx = t.idx ∧ s'.spill = t.spill) ∧
      s'.idx = (s.idx + 1) % s.cfg.n ∧ s'.sv.length = s.sv.length ∧
      (∀ i, i ≠ (s.idx + 1) % s.cfg.n → s'.sv[i]? = s.sv[i]?) ∧
      (s.idx + 1 < s.cfg.n → s'.spill = s.spill) ∧
      (s.idx + 1 = s.cfg.n → s.cfg.writeAhead = .spill → s'.sv = s.sv) ∧
      (s.cfg.writeAhead = .wrap → s'.spill = s.spill) := by
  obtain ⟨hsv, hidx', hspill⟩ := same
  obtain ⟨u, hu, usv, uidx, uspill⟩ := State.advance_of_popTurn adv
  refine ⟨⟨z, u, hu, hsv.trans usv.symm, hidx'.trans uidx.symm, hspill.trans uspill.symm⟩, ?_⟩
  rw [hsv, hidx', hspill, ← usv, ← uidx, ← uspill]
  exact State.advance_touches hu hidx

/-- Settles O17, by the cases of a step: outside the reset seeding only an instruction writes the
storage, a seeding command by SEEDING, NEXT and an attempt by the ADVANCE they make. -/
theorem onlySeedingAndAdvanceWriteTheStorage :
    Obligations.OnlySeedingAndAdvanceWriteTheStorage := by
  intro s s' hs h
  have how := step_case s
  rw [h] at how
  cases how with
  | presented | taken | reset | idle | illegalHeld | illegal => exact .inl (by simp)
  | reseeded wf turn seq => exact .inr (.inl ⟨seq, rfl, rfl⟩)
  | ran i o wf turn seq dec run how =>
    cases how with
    | held | emptyDraw | started => exact .inl (by simp)
    | seeded v which =>
      refine .inr (.inr (.inl ⟨seq, rfl, rfl, ?_⟩))
      rcases which with rfl | ⟨rfl, rfl⟩
      · exact .inl ⟨v, dec, rfl⟩
      · exact .inr ⟨dec, rfl⟩
    | rawWord z t which room adv =>
      exact .inr (.inr (.inr ⟨seq, ⟨i, dec, .inl which⟩,
        storage_of_advance hs.idx_lt adv (by simp)⟩))
    | delivered z data t which room running adv =>
      exact .inr (.inr (.inr ⟨seq, ⟨i, dec, .inr ⟨which, running⟩⟩,
        storage_of_advance hs.idx_lt adv (by simp)⟩))
    | rejected z t which room running adv =>
      exact .inr (.inr (.inr ⟨seq, ⟨i, dec, .inr ⟨which, running⟩⟩,
        storage_of_advance hs.idx_lt adv (by simp)⟩))

end Sys2Proof.Machine
end

section
/-! PROOFS. States alike to the host step alike (spec/10_state.md R23, R29, R35;
spec/70_reset_and_hazards.md R213). -/

namespace Sys2Proof.Machine

/-! ### Operations on states alike to the host -/

theorem SameToHost.hasRoom {s t : State} (h : SameToHost s t) : s.hasRoom = t.hasRoom := by
  rw [State.hasRoom, State.hasRoom, h.rspq, h.cfg]

theorem SameToHost.popTurn {s t : State} (h : SameToHost s t) : SameToHost s.popTurn t.popTurn :=
  { h with turns := congrArg List.tail h.turns }

theorem SameToHost.presentCommand {s t : State} (h : SameToHost s t) (c : Command) :
    SameToHost (s.presentCommand c) (t.presentCommand c) :=
  { h with chan := congrArg (· ++ [c]) h.chan }

theorem SameToHost.takeBeat {s t : State} (h : SameToHost s t) :
    SameToHost s.takeBeat t.takeBeat := by
  have hrspq := h.rspq
  cases rspq : s.rspq with
  | nil => rwa [State.takeBeat_nil rspq, State.takeBeat_nil (hrspq.symm.trans rspq)]
  | cons b q =>
    rw [State.takeBeat_cons rspq, State.takeBeat_cons (hrspq.symm.trans rspq)]
    exact { h with rspq := rfl, taken := congrArg (· ++ [b]) h.taken }

/-- `RESETTING` gives CUR and the counters no meaning. -/
theorem SameToHost.assertReset {s t : State} (h : SameToHost s t) :
    SameToHost s.assertReset t.assertReset :=
  { h with seq := rfl, rspq := rfl, cur := nofun, counters := nofun }

theorem SameToHost.resetSeeding {s t : State} (h : SameToHost s t) :
    SameToHost s.resetSeeding t.resetSeeding where
  cfg := h.cfg
  sv := by simp [h.cfg]
  idx := rfl
  seq := rfl
  rspq := rfl
  chan := h.chan
  turns := h.turns
  taken := h.taken
  cur := nofun
  counters := nofun

/-- Acceptance writes CUR, and the counters have no meaning before the start step. -/
theorem SameToHost.acceptCommand {s t : State} (h : SameToHost s t) :
    SameToHost s.acceptCommand t.acceptCommand := by
  have hchan := h.chan
  cases chan : s.chan with
  | nil =>
    rwa [State.acceptCommand_nil chan, State.acceptCommand_nil (hchan.symm.trans chan)]
  | cons c rest =>
    rw [State.acceptCommand_cons chan, State.acceptCommand_cons (hchan.symm.trans chan)]
    exact { h with seq := rfl, chan := rfl, cur := fun _ => ⟨rfl, rfl⟩, counters := nofun }

theorem SameToHost.seeding {s t : State} (h : SameToHost s t) (v : Word) :
    SameToHost (s.seeding v) (t.seeding v) :=
  { h with sv := congrArg (seedWords · v) h.cfg, idx := rfl }

theorem SameToHost.emit {s t : State} (h : SameToHost s t) (status : Status) (data : Word)
    (last : Bool) : SameToHost (s.emit status data last) (t.emit status data last) :=
  { h with rspq := congrArg (· ++ [(⟨status, data, last⟩ : Beat)]) h.rspq }

theorem SameToHost.finish {s t : State} (h : SameToHost s t) : SameToHost s.finish t.finish :=
  { h with seq := rfl, cur := nofun, counters := nofun }

theorem SameToHost.startDraw {s t : State} (h : SameToHost s t) (count : Word) :
    SameToHost (s.startDraw count) (t.startDraw count) :=
  { h with
    cur := fun seq => ⟨(h.cur seq).1, rfl⟩
    counters := fun _ _ => ⟨rfl, rfl, rfl⟩ }

theorem SameToHost.deliver {s t : State} (h : SameToHost s t) (seq : s.seq = .exec)
    (running : s.attempting = true) (data : Word) : SameToHost (s.deliver data) (t.deliver data) := by
  obtain ⟨hrem, hdelivered, -⟩ := h.counters seq running
  obtain ⟨hcur, hattempting⟩ := h.cur seq
  constructor <;> simp [h.cfg, h.sv, h.idx, h.seq, h.rspq, h.chan, h.turns, h.taken, hcur,
    hattempting, hrem, hdelivered]

theorem SameToHost.reject {s t : State} (h : SameToHost s t) (seq : s.seq = .exec)
    (running : s.attempting = true) : SameToHost s.reject t.reject := by
  obtain ⟨hrem, hdelivered, hrej⟩ := h.counters seq running
  obtain ⟨hcur, hattempting⟩ := h.cur seq
  constructor <;> simp [h.cfg, h.sv, h.idx, h.seq, h.rspq, h.chan, h.turns, h.taken, hcur,
    hattempting, hrem, hdelivered, hrej]

/-- ADVANCE reads neither SPILL nor the registers without meaning: in both states it faults alike, or
answers the same raw word. -/
theorem SameToHost.advance {s t : State} (h : SameToHost s t) :
    (∃ f, s.advance = .error f ∧ t.advance = .error f) ∨
    (∃ z s' t', s.advance = .ok (z, s') ∧ t.advance = .ok (z, t') ∧ SameToHost s' t') := by
  rcases State.advance_congr h.cfg h.sv h.idx with hf | ⟨z, s', t', hs, ht, hsv, hidx⟩
  · exact .inl hf
  · refine .inr ⟨z, s', t', hs, ht, ?_⟩
    rw [State.advance_frame hs, State.advance_frame ht]
    exact { h with sv := hsv, idx := hidx }

/-! ### Steps that emit, and the running command -/

theorem OutcomesSame.next {s t : State} (h : SameToHost s t) : OutcomesSame (.next s) (.next t) :=
  .inl ⟨s, t, rfl, rfl, h⟩

theorem OutcomesSame.fault (f : Fault) : OutcomesSame (.fault f) (.fault f) :=
  .inr (.inl ⟨f, rfl, rfl⟩)

theorem OutcomesSame.refused (r : Refusal) : OutcomesSame (.refused r) (.refused r) :=
  .inr (.inr ⟨r, rfl, rfl⟩)

/-- States alike hold alike, since RSPQ and its capacity are the same. -/
theorem SameToHost.whenRoom_same {s t : State} (h : SameToHost s t)
    {act act' : State → Host.Outcome State Fault Refusal} (same : OutcomesSame (act s) (act' t)) :
    OutcomesSame (s.whenRoom act) (t.whenRoom act') := by
  rw [State.whenRoom, State.whenRoom, h.hasRoom]
  split
  · exact same
  · exact .next h

theorem SameToHost.raiseIllegal_same {s t : State} (h : SameToHost s t) (seq : s.seq = .exec) :
    OutcomesSame s.raiseIllegal t.raiseIllegal := by
  refine h.whenRoom_same (.next ?_)
  rw [(h.cur seq).1]
  exact (h.emit _ _ _).finish

theorem SameToHost.attempt_same {s t : State} (h : SameToHost s t) (seq : s.seq = .exec)
    (running : s.attempting = true) (result : Word → Word) :
    OutcomesSame (s.attempt result) (t.attempt result) := by
  refine h.whenRoom_same ?_
  rcases h.advance with ⟨f, hs, ht⟩ | ⟨z, s', t', hs, ht, h'⟩
  · simp only [hs, ht]
    exact .fault f
  · have frame := State.advance_frame hs
    have seq' : s'.seq = .exec := by rw [frame]; exact seq
    have running' : s'.attempting = true := by rw [frame]; exact running
    simp only [hs, ht, h.cfg]
    split
    · exact .next (h'.deliver seq' running' _)
    · exact .next (h'.reject seq' running')

theorem SameToHost.execNext_same {s t : State} (h : SameToHost s t) :
    OutcomesSame (execNext s) (execNext t) := by
  refine h.whenRoom_same ?_
  rcases h.advance with ⟨f, hs, ht⟩ | ⟨z, s', t', hs, ht, h'⟩
  · simp only [hs, ht]
    exact .fault f
  · simp only [hs, ht]
    exact .next (h'.emit _ _ _).finish

/-- A draw takes its start step in both states or an attempt in both. -/
theorem SameToHost.draw_same {s t : State} (h : SameToHost s t) (seq : s.seq = .exec)
    (result : Word → Word) {start start' : Host.Outcome State Fault Refusal}
    (same : OutcomesSame start start') :
    OutcomesSame (if s.attempting then s.attempt result else start)
      (if t.attempting then t.attempt result else start') := by
  rw [← (h.cur seq).2]
  split
  case isTrue running => exact h.attempt_same seq running result
  case isFalse => exact same

theorem SameToHost.exec_same {s t : State} (h : SameToHost s t) (seq : s.seq = .exec) (i : Instr) :
    OutcomesSame (exec i s) (exec i t) := by
  cases i with
  | seed v =>
    simp only [exec, execSeed]
    exact h.whenRoom_same (.next ((h.seeding v).emit _ _ _).finish)
  | seeddef =>
    simp only [exec, execSeeddef]
    refine h.whenRoom_same (.next ?_)
    rw [h.cfg]
    exact ((h.seeding _).emit _ _ _).finish
  | next => exact h.execNext_same
  | draw count =>
    simp only [exec, execDraw]
    refine h.draw_same seq _ ?_
    split
    · exact h.whenRoom_same (.next (h.emit _ _ _).finish)
    · exact .next (h.startDraw count)
  | rdbl range =>
    simp only [exec, execRdbl, h.cfg]
    exact h.draw_same seq _ (.next (h.startDraw _))
  | rflt range =>
    simp only [exec, execRflt, h.cfg]
    exact h.draw_same seq _ (.next (h.startDraw _))
  | rint range =>
    simp only [exec, execRint, h.cfg]
    exact h.draw_same seq _ (.next (h.startDraw _))

theorem SameToHost.runCommand_same {s t : State} (h : SameToHost s t) (seq : s.seq = .exec) :
    OutcomesSame s.runCommand t.runCommand := by
  rw [State.runCommand, State.runCommand, ← (h.cur seq).1]
  split
  · exact h.exec_same seq _
  · exact h.raiseIllegal_same seq

theorem SameToHost.coreStep_same {s t : State} (h : SameToHost s t) :
    OutcomesSame s.coreStep t.coreStep := by
  rw [State.coreStep, State.coreStep, ← h.seq]
  cases seq : s.seq with
  | resetting => exact .next h.resetSeeding
  | idle => exact .next h.acceptCommand
  | exec => exact h.runCommand_same seq

theorem SameToHost.playTurn_same {s t : State} (h : SameToHost s t) (turn : Turn) :
    OutcomesSame (s.playTurn turn) (t.playTurn turn) := by
  cases turn with
  | core => exact h.coreStep_same
  | present c => exact .next (h.presentCommand c)
  | take => exact .next h.takeBeat
  | reset => exact .next h.assertReset

/-- Settles O19: both states play the same turn, and each turn keeps states alike. -/
theorem spillAndStaleRegistersAreNeverObserved :
    Obligations.SpillAndStaleRegistersAreNeverObserved := by
  intro s t h
  rw [step, step, ← h.cfg]
  split
  · rw [State.playNext, State.playNext, State.turn, State.turn, ← h.turns]
    exact h.popTurn.playTurn_same _
  · exact .refused _

end Sys2Proof.Machine
end

section
/-! PROOFS. Which beat a step produces and when its command ends (spec/20_memory.md R52;
spec/30_encoding.md R82). -/

namespace Sys2Proof.Machine

/-! ### The beats produced, by operation -/

@[simp] theorem State.produced_popTurn (s : State) : s.popTurn.produced = s.produced := rfl

@[simp] theorem State.produced_presentCommand (s : State) (c : Command) :
    (s.presentCommand c).produced = s.produced := rfl

@[simp] theorem State.produced_acceptCommand (s : State) :
    s.acceptCommand.produced = s.produced := by
  simp [State.produced]

/-- The beat the host takes moves from the head of RSPQ to the end of the taken ones. -/
@[simp] theorem State.produced_takeBeat (s : State) : s.takeBeat.produced = s.produced := by
  cases rspq : s.rspq with
  | nil => rw [State.takeBeat_nil rspq]
  | cons b q => simp [State.takeBeat_cons rspq, State.produced, rspq]

theorem State.produced_resetSeeding {s : State} (h : s.rspq = []) :
    s.resetSeeding.produced = s.produced := by
  simp [State.produced, h]

@[simp] theorem State.produced_startDraw (s : State) (count : Word) :
    (s.startDraw count).produced = s.produced := rfl

@[simp] theorem State.produced_seeding (s : State) (v : Word) :
    (s.seeding v).produced = s.produced := rfl

@[simp] theorem State.produced_finish (s : State) : s.finish.produced = s.produced := rfl

@[simp] theorem State.produced_emit (s : State) (status : Status) (data : Word) (last : Bool) :
    (s.emit status data last).produced = s.produced ++ [⟨status, data, last⟩] := by
  simp [State.produced]

@[simp] theorem State.produced_deliver (s : State) (data : Word) :
    (s.deliver data).produced =
      s.produced ++ [⟨.data, data, decide (s.rem - 1#64 = 0#64)⟩] := by
  simp [State.produced]

theorem State.produced_reject_of_cap {s : State} (h : s.cfg.retryCap = some (s.rej + 1#64)) :
    s.reject.produced = s.produced ++ [⟨.unsat, s.delivered, true⟩] := by
  simp [State.produced, h]

theorem State.produced_reject_of_ne_cap {s : State}
    (h : s.cfg.retryCap ≠ some (s.rej + 1#64)) : s.reject.produced = s.produced := by
  simp [State.produced, h]

/-- ADVANCE reaches neither the beats nor SEQ. -/
theorem State.advance_produced_seq {s t : State} {z : Word} (adv : s.advance = .ok (z, t)) :
    t.produced = s.produced ∧ t.seq = s.seq := by
  rw [State.advance_frame adv]
  exact ⟨rfl, rfl⟩

/-! ### The beat of a step of the running command -/

/-- From `s` to `s'` a running command puts one beat at the tail, and it ends with that beat if the
beat is the last and runs on if it is not. -/
def EmitsOneBeat (s s' : State) : Prop :=
  ∃ b, s'.produced = s.produced ++ [b] ∧ s'.seq = if b.last then .idle else .exec

/-- SEQ tells whether the beat is the last. -/
theorem EmitsOneBeat.last_iff {s s' : State} (h : EmitsOneBeat s s') :
    ∃ b, s'.produced = s.produced ++ [b] ∧
      (b.last = true ↔ s'.seq = .idle) ∧ (b.last = false ↔ s'.seq = .exec) := by
  obtain ⟨b, hproduced, hseq⟩ := h
  refine ⟨b, hproduced, ?_⟩
  rw [hseq]
  cases b.last <;> simp

theorem EmitsOneBeat.emit_finish (s : State) (status : Status) (data : Word) :
    EmitsOneBeat s (s.emit status data true).finish :=
  ⟨⟨status, data, true⟩, by simp, rfl⟩

theorem EmitsOneBeat.deliver {s : State} (seq : s.seq = .exec) (data : Word) :
    EmitsOneBeat s (s.deliver data) :=
  ⟨_, s.produced_deliver data, by simp [seq]⟩

/-- A rejected word emits the UNSAT beat at RETRY_CAP, which ends the command, and no beat below
it. -/
theorem State.reject_beats {s : State} (seq : s.seq = .exec) :
    (s.reject.produced = s.produced ∧ s.reject.seq = .exec) ∨ EmitsOneBeat s s.reject := by
  by_cases hcap : s.cfg.retryCap = some (s.rej + 1#64)
  · exact .inr ⟨_, State.produced_reject_of_cap hcap, by simp [hcap]⟩
  · exact .inl ⟨State.produced_reject_of_ne_cap hcap, by simp [hcap, seq]⟩

/-- The beats are counted from before the ADVANCE of the step. -/
theorem EmitsOneBeat.of_produced_eq {s t s' : State} (h : EmitsOneBeat t s')
    (same : t.produced = s.produced) : EmitsOneBeat s s' := by
  rwa [EmitsOneBeat, ← same]

/-- A step of the running command emits no beat and runs on, or emits one beat, by the cases of
`exec`. -/
theorem exec_beats {i : Instr} {s s' : State} (seq : s.seq = .exec) (run : exec i s = .next s') :
    (s'.produced = s.produced ∧ s'.seq = .exec) ∨ EmitsOneBeat s s' := by
  have how := exec_case i s
  rw [run] at how
  cases how with
  | held => exact .inl ⟨rfl, seq⟩
  | started => exact .inl ⟨by simp, seq⟩
  | seeded v => exact .inr ((EmitsOneBeat.emit_finish _ _ _).of_produced_eq (by simp))
  | emptyDraw => exact .inr (.emit_finish _ _ _)
  | rawWord z t which room adv =>
    obtain ⟨hproduced, -⟩ := State.advance_produced_seq adv
    exact .inr ((EmitsOneBeat.emit_finish _ _ _).of_produced_eq hproduced)
  | delivered z data t which room running adv =>
    obtain ⟨hproduced, hseq⟩ := State.advance_produced_seq adv
    exact .inr ((EmitsOneBeat.deliver (hseq.trans seq) data).of_produced_eq hproduced)
  | rejected z t which room running adv =>
    obtain ⟨hproduced, hseq⟩ := State.advance_produced_seq adv
    rw [← hproduced]
    exact (State.reject_beats (hseq.trans seq)).imp_right (·.of_produced_eq hproduced)

/-- Settles O18, by the cases of a step: the host's moves and the sequencer's own steps produce no
beat (RSPQ is empty before the reset seeding), and a running command emits by `exec_beats` or its
ILLEGAL beat. -/
theorem lastBeatExactlyWhenTheCommandEnds : Obligations.LastBeatExactlyWhenTheCommandEnds := by
  intro s s' hinv h noReset
  have how := step_case s
  rw [h] at how
  cases how with
  | presented c => exact .inl ⟨by simp, id⟩
  | taken => exact .inl ⟨by simp, by simp⟩
  | reset wf turn => exact absurd turn noReset
  | reseeded wf turn seq =>
    exact .inl ⟨State.produced_resetSeeding (hinv.resetting seq), by simp [seq]⟩
  | idle wf turn seq => exact .inl ⟨by simp, by simp [seq]⟩
  | illegalHeld => exact .inl ⟨by simp, id⟩
  | illegal r wf turn seq =>
    exact .inr ⟨seq, (EmitsOneBeat.emit_finish s.popTurn _ _).last_iff⟩
  | ran i o wf turn seq dec run =>
    exact (exec_beats (s := s.popTurn) seq run).imp
      (fun ⟨hproduced, hseq⟩ => ⟨hproduced, fun _ => hseq⟩) (fun hemits => ⟨seq, hemits.last_iff⟩)

end Sys2Proof.Machine
end

section
/-! PROOFS. Reset and the seeding that follows it (spec/70_reset_and_hazards.md R230, R231). -/

namespace Sys2Proof.Machine

theorem State.coreStep_of_resetting {s : State} (h : s.seq = .resetting) :
    s.coreStep = .next s.resetSeeding := by
  rw [State.coreStep, h]

/-- Settles O12: the assertion of reset is the scheduled turn, and MTCORE's own step while
`RESETTING` is the reset seeding, whose words follow the seeding recurrence. -/
theorem resetDiscardsBeatsAndSeedsAgain : Obligations.ResetDiscardsBeatsAndSeedsAgain := by
  refine ⟨fun s rest wf turns => step_of_turns wf turns, fun s wf turn seq => ?_⟩
  obtain ⟨hm, hmn⟩ := Config.wf_sizes wf
  have hstep : step s = .next s.popTurn.resetSeeding := by
    rw [step_of_core wf (State.turn_eq_core turn), State.coreStep_of_resetting (by simpa using seq)]
  exact ⟨_, hstep, rfl, seedWords_length _ _ (by simp; omega), rfl,
    fun i p hlt hp => seedWords_getElem?_succ s.cfg s.cfg.defaultSeed p i hlt hp,
    rfl, rfl, rfl, rfl, rfl, rfl, rfl⟩

end Sys2Proof.Machine
end

section
/-! PROOFS. The start step of a draw (spec/42_draw.md R152; spec/43_normalize.md R172 to R174). -/

namespace Sys2Proof.Machine

/-- The start step of every draw command sets the counters, to 1 word for the typed ones. -/
theorem exec_of_drawCount {i : Instr} {s : State} {count : Word} (first : s.attempting = false)
    (which : drawCountOf i = some count) (ne : count ≠ 0#64) :
    exec i s = .next (s.startDraw count) := by
  cases i with
  | seed | seeddef | next => cases which
  | draw | rdbl | rflt | rint =>
    cases which
    simp [exec, execDraw, execRdbl, execRflt, execRint, first, ne]

/-- DRAW 0 is DONE in its start step. -/
theorem exec_draw_zero_of_room {s : State} (first : s.attempting = false)
    (room : s.hasRoom = true) :
    exec (.draw 0#64) s = .next (s.emit .done 0#64 true).finish := by
  simp [exec, execDraw, first, State.whenRoom_of_room room]

/-- Settles O34: the counters are set without a look at RSPQ, and only DRAW 0 needs a free entry. -/
theorem drawStartSetsTheCounters : Obligations.DrawStartSetsTheCounters := by
  intro s first
  exact ⟨fun count ne => exec_of_drawCount first rfl ne,
    fun room => exec_draw_zero_of_room first (s.hasRoom_iff.2 room),
    fun r => exec_of_drawCount first rfl (by decide),
    fun r => exec_of_drawCount first rfl (by decide),
    fun r => exec_of_drawCount first rfl (by decide)⟩

end Sys2Proof.Machine
end

section
/-! PROOFS. The decoder and the encoder (spec/30_encoding.md R70 to R75). -/

namespace Sys2Proof

/-! ### Decoding an encoding -/

/-- Every instruction's encoding is a legal command in canonical form. -/
theorem encode_legal (i : Instr) : Laws.EncodesLegal.Statement i := by
  cases i with
  | seed v => exact Laws.EncodesLegal.seed v
  | seeddef => exact Laws.EncodesLegal.seeddef
  | next => exact Laws.EncodesLegal.next
  | draw v => exact Laws.EncodesLegal.draw v
  | rdbl v => exact Laws.EncodesLegal.rdbl v
  | rflt v => exact Laws.EncodesLegal.rflt v
  | rint v => exact Laws.EncodesLegal.rint v

/-- An opcode and an argument word give back the instruction they come from; the 32-bit operands are
the low half of the word. -/
theorem decodeOp_opcode_argWord (i : Instr) : decodeOp i.opcode i.argWord = some i := by
  cases i with
  | seed | seeddef | next | draw | rdbl => rfl
  | rflt v => exact congrArg (some ∘ Instr.rflt) (extractLow_setWidth v)
  | rint v => exact congrArg (some ∘ Instr.rint) (extractLow_setWidth v)

/-- Settles O1: an encoding has RSVD zero, its instruction's opcode and its argument word. -/
theorem encodeThenDecodeGivesTheInstruction :
    Obligations.EncodeThenDecodeGivesTheInstruction := by
  intro i
  obtain ⟨-, hrsvd, hop, -⟩ := encode_legal i
  refine decode_ok_iff.2 ⟨hrsvd, ?_⟩
  rw [hop]
  exact decodeOp_opcode_argWord i

/-! ### Encoding what was decoded -/

/-- With RSVD zero the command word is `zext_32(OP)` (R73). -/
theorem Command.cw_eq_setWidth_op {c : Command} (h : c.rsvd = 0#24) :
    c.cw = c.op.setWidth 32 := by
  apply BitVec.eq_of_toNat_eq
  rw [Command.cw_toNat_of_rsvd h, BitVec.toNat_setWidth, Nat.mod_eq_of_lt (by omega)]

/-- The instruction of an opcode has that opcode, and its argument word is the part of ARG the
opcode reads. -/
theorem opcode_argWord_of_decodeOp {c : Command} {i : Instr} (h : decodeOp c.op c.arg = some i) :
    i.opcode = c.op ∧ i.argWord = c.readArg := by
  unfold decodeOp at h
  split at h
  case h_8 => cases h
  all_goals
    rename_i hop
    cases h
    exact ⟨BitVec.eq_of_toNat_eq hop.symm, by simp [Command.readArg, hop, Instr.argWord]⟩

/-- A legal command is, but for the bits of ARG it ignores, the encoding of its instruction. -/
theorem encode_of_decode {c : Command} {i : Instr} (h : decode c = .ok i) :
    encode i = c.canonical := by
  obtain ⟨hrsvd, hop⟩ := decode_ok_iff.1 h
  obtain ⟨hopcode, harg⟩ := opcode_argWord_of_decodeOp hop
  rw [encode, hopcode, harg, ← Command.cw_eq_setWidth_op hrsvd]
  rfl

/-- The part of ARG a command reads, by its command word. -/
theorem Command.readArg_eq {c : Command} (h : c.rsvd = 0#24) :
    c.readArg =
      if c.cw = 2#32 ∨ c.cw = 3#32 then 0#64
      else if c.cw = 6#32 ∨ c.cw = 7#32 then (c.arg.setWidth 32).setWidth 64
      else c.arg := by
  unfold Command.readArg
  rw [← Command.cw_toNat_of_rsvd h, extractLow_eq_setWidth]
  simp only [← BitVec.toNat_inj, BitVec.toNat_ofNat]
  split <;> simp_all

/-- Settles O2: the encoding of a decoded command is the command with its ignored bits zero. -/
theorem decodedCommandIsTheEncodingButForIgnoredBits :
    Obligations.DecodedCommandIsTheEncodingButForIgnoredBits := by
  intro c i h
  obtain ⟨hrsvd, -⟩ := decode_ok_iff.1 h
  rw [encode_of_decode h, Command.canonical, Command.readArg_eq hrsvd]

/-! ### Which commands decode, and to what -/

/-- A command word below 256 is its opcode alone. -/
theorem decode_of_decodeOp {cw : Word32} {arg : Word} {i : Instr} (hcw : cw.toNat < 256)
    (hop : decodeOp (cw.extractLsb' 0 8) arg = some i) : decode ⟨cw, arg⟩ = .ok i :=
  decode_ok_iff.2 ⟨(Command.rsvd_eq_zero_iff _).2 hcw, hop⟩

/-- Settles O3, from the opcode of each command word; sign extension keeps a signed value. -/
theorem operandIsReadFromTheArgumentWord : Obligations.OperandIsReadFromTheArgumentWord := by
  intro arg
  rw [← extractLow_eq_setWidth]
  exact ⟨decode_of_decodeOp (by decide) rfl, decode_of_decodeOp (by decide) rfl,
    decode_of_decodeOp (by decide) rfl, decode_of_decodeOp (by decide) rfl,
    decode_of_decodeOp (by decide) rfl, decode_of_decodeOp (by decide) rfl,
    decode_of_decodeOp (by decide) rfl, BitVec.toInt_signExtend_of_le (by decide)⟩

/-- Settles O4: RSVD zero makes the command word its opcode, and the opcodes are 1 to 7. -/
theorem decoderAcceptsExactlyTheSevenCommandWords :
    Obligations.DecoderAcceptsExactlyTheSevenCommandWords := by
  intro c
  calc (∃ i, decode c = .ok i)
      ↔ c.rsvd = 0#24 ∧ (decodeOp c.op c.arg).isSome = true := by
        simp only [decode_ok_iff, exists_and_left, Option.isSome_iff_exists]
    _ ↔ c.cw.toNat < 256 ∧ 1 ≤ c.cw.toNat % 256 ∧ c.cw.toNat % 256 ≤ 7 := by
        rw [Command.rsvd_eq_zero_iff, decodeOp_isSome, Command.op_toNat]
    _ ↔ 1 ≤ c.cw.toNat ∧ c.cw.toNat ≤ 7 := by omega

/-- Settles O5: the nine table words are literals, which the decoder evaluates. -/
theorem tableWordsDecode : Obligations.TableWordsDecode := by
  unfold Obligations.TableWordsDecode
  decide

end Sys2Proof
end

section
/-! PROOFS. The attempt steps of a draw: the word an accepted attempt delivers, and the beats a
whole draw produces (spec/30_encoding.md R81, R82; spec/42_draw.md R152 to R155; spec/43_normalize.md R172
to R174). -/

namespace Sys2Proof.Machine

/-! ### What an accepted attempt delivers -/

/-- The whole effect of a delivery after an ADVANCE, which leaves the counters, RSPQ and SEQ (R153,
R154). -/
theorem State.deliver_of_advance {s s1 : State} {z : Word} (adv : s.advance = .ok (z, s1))
    (data : Word) :
    s1.deliver data = { s1 with
      rem := s.rem - 1#64, delivered := s.delivered + 1#64, rej := 0#64
      rspq := s.rspq ++ [⟨.data, data, decide (s.rem = 1#64)⟩]
      seq := if s.rem = 1#64 then .idle else s.seq } := by
  have last : s.rem - 1#64 = 0#64 ↔ s.rem = 1#64 := by bv_omega
  rw [State.advance_frame adv]
  unfold State.deliver
  dsimp only
  split <;> simp_all [State.emit, State.finish]

/-- An attempt whose raw word is accepted delivers its RESULT. -/
theorem attempt_delivers {s s1 : State} {z : Word} (result : Word → Word)
    (room : s.rspq.length < s.cfg.rspDepth) (adv : s.advance = .ok (z, s1))
    (acc : accept s.cfg z = true) :
    s.attempt result = .next { s1 with
      rem := s.rem - 1#64, delivered := s.delivered + 1#64, rej := 0#64
      rspq := s.rspq ++ [⟨.data, result z, decide (s.rem = 1#64)⟩]
      seq := if s.rem = 1#64 then .idle else s.seq } := by
  rw [attempt_of_accept result (s.hasRoom_iff.2 room) adv acc, State.deliver_of_advance adv]

/-- Settles O35: the RESULT of DRAW is the raw word itself. -/
theorem drawDeliversTheAcceptedWord : Obligations.DrawDeliversTheAcceptedWord := by
  intro s s1 count z running room adv acc
  obtain ⟨hdraw, -⟩ := exec_of_attempting running
  rw [hdraw, attempt_delivers _ room adv acc]

/-- 1 is a value of binary64, so `f64(1)` is 1.0 exactly. -/
theorem f64OfInt_one : f64OfInt 1 = .fin false fpOne := by
  decide +kernel

/-- RINT's RESULT in the terms of R174: the range keeps its value in 64 bits, and 1.0 is
`f64(1)`. -/
theorem resultRint_eq (cfg : Config) (range : Word32) (z : Word) :
    resultRint cfg range z =
      ((normFrac cfg z).mul ((f64OfInt range.toInt).add (f64OfInt 1))).truncI64 := by
  rw [resultRint, rangeInt, BitVec.toInt_signExtend_of_le (by decide), f64OfInt_one]

/-- Settles O36: with one word left the beat is the last, and each typed draw has its own RESULT. -/
theorem typedDrawsDeliverTheNormalizedWord : Obligations.TypedDrawsDeliverTheNormalizedWord := by
  intro s s1 z running rem room adv acc
  obtain ⟨-, hrdbl, hrflt, hrint⟩ := exec_of_attempting running
  refine ⟨fun range => ?_, fun range => ?_, fun range => ?_⟩
  · rw [hrdbl, attempt_delivers _ room adv acc, rem]
    rfl
  · rw [hrflt, attempt_delivers _ room adv acc, rem]
    rfl
  · rw [hrint, attempt_delivers _ room adv acc, rem, resultRint_eq]
    rfl

/-! ### A schedule without commands and resets -/

/-- No command but the running one, and no reset: what is left of the schedule are turns of MTCORE
and of the host that takes beats. -/
structure Undisturbed (s : State) : Prop where
  chan : s.chan = []
  turns : ∀ turn ∈ s.turns, turn = .core ∨ turn = .take

/-- The turn to come is the taking host's or MTCORE's. -/
theorem Undisturbed.step_eq {s : State} (h : Undisturbed s) (wf : s.cfg.wf = true) :
    step s = .next s.popTurn.takeBeat ∨ step s = s.popTurn.coreStep := by
  cases turns : s.turns with
  | nil => exact .inr (step_of_core wf (State.turn_of_nil turns))
  | cons turn rest =>
    rcases h.turns turn (by simp [turns]) with rfl | rfl
    · exact .inr (step_of_core wf (State.turn_eq_core (by simp [turns])))
    · refine .inl ?_
      rw [step_of_turns wf turns, State.playTurn, State.popTurn, turns, List.tail_cons]

/-- What leaves the channel and the rest of the schedule alone leaves the draw undisturbed. -/
theorem Undisturbed.congr {s t : State} (h : Undisturbed s) (chan : t.chan = s.chan)
    (turns : t.turns = s.turns) : Undisturbed t :=
  ⟨chan.trans h.chan, by rw [turns]; exact h.turns⟩

theorem Undisturbed.popTurn {s : State} (h : Undisturbed s) : Undisturbed s.popTurn :=
  ⟨h.chan, fun turn mem => h.turns turn (List.mem_of_mem_tail mem)⟩

/-- An idle MTCORE that no one disturbs stays idle and produces no beat. -/
theorem Undisturbed.idle_run {k : Nat} {s t : State} (h : Undisturbed s) (wf : s.cfg.wf = true)
    (idle : s.seq = .idle) (run : Sys2Proof.core.run k s = .next t) :
    t.seq = .idle ∧ t.produced = s.produced := by
  induction k generalizing s with
  | zero =>
    cases run
    exact ⟨idle, rfl⟩
  | succ k ih =>
    obtain ⟨s', hstep, hrun⟩ := core_run_inv run
    rcases h.step_eq wf with htake | hcore
    · rw [htake] at hstep
      cases hstep
      simpa using ih (h.popTurn.congr (by simp) (by simp)) (by simpa using wf) (by simpa using idle)
        hrun
    · rw [hcore, State.coreStep_of_idle (by simpa using idle),
        State.acceptCommand_nil h.popTurn.chan] at hstep
      cases hstep
      simpa using ih h.popTurn wf idle hrun

/-! ### One step of a draw -/

/-- In its attempt steps a draw command is an attempt, whichever it is. -/
theorem exec_eq_attempt {i : Instr} {s : State} (running : s.attempting = true)
    (which : (drawCountOf i).isSome = true) : ∃ result, exec i s = s.attempt result := by
  obtain ⟨hdraw, hrdbl, hrflt, hrint⟩ := exec_of_attempting running
  cases i with
  | seed | seeddef | next => cases which
  | draw count => exact ⟨_, hdraw count⟩
  | rdbl r => exact ⟨_, hrdbl r⟩
  | rflt r => exact ⟨_, hrflt r⟩
  | rint r => exact ⟨_, hrint r⟩

/-- MTCORE's own step while a draw is in its attempt steps is an attempt. -/
theorem State.coreStep_eq_attempt {s : State} (h : Inv s) (seq : s.seq = .exec)
    (running : s.attempting = true) : ∃ result, s.coreStep = s.attempt result := by
  obtain ⟨count, hcount, -⟩ := (h.draw seq running).count_eq
  unfold drawCount at hcount
  split at hcount
  · rw [State.coreStep_of_decode seq ‹_›]
    exact exec_eq_attempt running (by rw [hcount]; rfl)
  · cases hcount

/-- A draw in its attempt steps that no one disturbs. -/
structure LoneDraw (s : State) : Prop where
  inv : Inv s
  seq : s.seq = .exec
  running : s.attempting = true
  alone : Undisturbed s

/-- What one step from `s` to `s'` does to a lone draw. -/
inductive DrawStep (s s' : State) : Prop where
  /-- No beat: the host's turn, a hold, or a rejected word below RETRY_CAP. -/
  | quiet (seq : s'.seq = .exec) (produced : s'.produced = s.produced) (rem : s'.rem = s.rem)
      (delivered : s'.delivered = s.delivered)
  /-- An accepted word with more to come. -/
  | more (data : Word) (seq : s'.seq = .exec)
      (produced : s'.produced = s.produced ++ [⟨.data, data, false⟩])
      (rem : s'.rem = s.rem - 1#64) (delivered : s'.delivered = s.delivered + 1#64)
  /-- The last accepted word. -/
  | last (data : Word) (seq : s'.seq = .idle)
      (produced : s'.produced = s.produced ++ [⟨.data, data, true⟩]) (rem : s.rem = 1#64)
  /-- The rejected word that reaches RETRY_CAP. -/
  | unsat (seq : s'.seq = .idle) (cap : s.cfg.retryCap ≠ none)
      (produced : s'.produced = s.produced ++ [⟨.unsat, s.delivered, true⟩])

theorem DrawStep.of_deliver {s : State} (seq : s.seq = .exec) (data : Word) :
    DrawStep s (s.deliver data) := by
  by_cases hlast : s.rem - 1#64 = 0#64
  · exact .last data (by simp [hlast]) (by simp [hlast]) (by bv_omega)
  · exact .more data (by simp [hlast, seq]) (by simp [hlast]) (by simp) (by simp)

theorem DrawStep.of_reject {s : State} (seq : s.seq = .exec) : DrawStep s s.reject := by
  by_cases hcap : s.cfg.retryCap = some (s.rej + 1#64)
  · exact .unsat (by simp [hcap]) (by simp [hcap]) (State.produced_reject_of_cap hcap)
  · exact .quiet (by simp [hcap, seq]) (State.produced_reject_of_ne_cap hcap) (by simp) (by simp)

/-- The state before the step counts only by its beats, its counters and the configuration. -/
theorem DrawStep.congr {s t s' : State} (h : DrawStep t s')
    (same : t.produced = s.produced ∧ t.rem = s.rem ∧ t.delivered = s.delivered ∧
      t.cfg = s.cfg) : DrawStep s s' := by
  obtain ⟨hproduced, hrem, hdelivered, hcfg⟩ := same
  cases h with
  | quiet seq produced rem delivered =>
    exact .quiet seq (produced.trans hproduced) (rem.trans hrem) (delivered.trans hdelivered)
  | more data seq produced rem delivered =>
    rw [hproduced] at produced
    rw [hrem] at rem
    rw [hdelivered] at delivered
    exact .more data seq produced rem delivered
  | last data seq produced rem =>
    rw [hproduced] at produced
    exact .last data seq produced (hrem.symm.trans rem)
  | unsat seq cap produced =>
    rw [hproduced, hdelivered] at produced
    exact .unsat seq (hcfg ▸ cap) produced

/-- An attempt that answers holds, or advances and then delivers or rejects. -/
theorem attempt_next_cases {s s' : State} {result : Word → Word}
    (h : s.attempt result = .next s') :
    s' = s ∨ ∃ z t, s.advance = .ok (z, t) ∧ (s' = t.deliver (result z) ∨ s' = t.reject) := by
  rcases State.attempt_cases s result with ⟨-, ha⟩ | ⟨-, f, -, ha⟩ | ⟨-, z, t, adv, -, ha⟩ |
    ⟨-, z, t, adv, -, ha⟩ <;> rw [ha] at h <;> cases h
  · exact .inl rfl
  · exact .inr ⟨z, t, adv, .inl rfl⟩
  · exact .inr ⟨z, t, adv, .inr rfl⟩

/-- An attempt is one step of the draw, since its ADVANCE reaches neither beats nor counters. -/
theorem attempt_drawStep {s s' : State} {result : Word → Word} (seq : s.seq = .exec)
    (h : s.attempt result = .next s') : DrawStep s s' := by
  rcases attempt_next_cases h with rfl | ⟨z, t, adv, how⟩
  · exact .quiet seq rfl rfl rfl
  · have same : t.produced = s.produced ∧ t.rem = s.rem ∧ t.delivered = s.delivered ∧
        t.cfg = s.cfg := by
      rw [State.advance_frame adv]
      exact ⟨rfl, rfl, rfl, rfl⟩
    obtain ⟨-, hseq⟩ := State.advance_produced_seq adv
    rcases how with rfl | rfl
    · exact (DrawStep.of_deliver (hseq.trans seq) _).congr same
    · exact (DrawStep.of_reject (hseq.trans seq)).congr same

/-- An attempt leaves alone that the draw is attempting, the configuration and the host's side. -/
theorem attempt_frame {s s' : State} {result : Word → Word} (h : s.attempt result = .next s') :
    s'.attempting = s.attempting ∧ s'.cfg = s.cfg ∧ s'.chan = s.chan ∧ s'.turns = s.turns := by
  rcases attempt_next_cases h with rfl | ⟨z, t, adv, how⟩
  · exact ⟨rfl, rfl, rfl, rfl⟩
  · rw [State.advance_frame adv] at how
    rcases how with rfl | rfl <;> simp

/-- A step of a lone draw: what it does to the draw, and that a draw that runs on is again alone. -/
theorem LoneDraw.step {s s' : State} (h : LoneDraw s) (hstep : step s = .next s') :
    DrawStep s s' ∧ s'.cfg = s.cfg ∧ Undisturbed s' ∧ (s'.seq = .exec → LoneDraw s') := by
  obtain ⟨u, hu, hinv⟩ := everyStepKeepsTheInvariantAndNeverStops s h.inv
  rw [hstep] at hu
  cases hu
  suffices hs : DrawStep s s' ∧ s'.attempting = true ∧ s'.cfg = s.cfg ∧ Undisturbed s' by
    obtain ⟨hdraw, hrunning, hcfg, halone⟩ := hs
    exact ⟨hdraw, hcfg, halone, fun seq => ⟨hinv, seq, hrunning, halone⟩⟩
  rcases h.alone.step_eq h.inv.storage.cfg_wf with htake | hcore
  · rw [htake] at hstep
    cases hstep
    exact ⟨.quiet (by simp [h.seq]) (by simp) (by simp) (by simp), by simp [h.running], by simp,
      h.alone.popTurn.congr (by simp) (by simp)⟩
  · obtain ⟨result, hattempt⟩ := State.coreStep_eq_attempt h.inv.popTurn h.seq h.running
    rw [hcore, hattempt] at hstep
    obtain ⟨hrunning, hcfg, hchan, hturns⟩ := attempt_frame hstep
    have hdraw : DrawStep s.popTurn s' := attempt_drawStep h.seq hstep
    exact ⟨hdraw.congr ⟨rfl, rfl, rfl, rfl⟩, hrunning.trans h.running, hcfg,
      h.alone.popTurn.congr hchan hturns⟩

/-! ### The beats of a draw -/

/-- The beats of a draw from `s` to `t` (R82): `init` short of the last one, and, where the draw has
ended, its last DATA beat or the UNSAT beat. -/
def DrawBeats (s t : State) (init : List Beat) : Prop :=
  (∀ b ∈ init, b.status = .data ∧ b.last = false) ∧
  ((t.seq = .exec ∧ t.produced = s.produced ++ init ∧
      t.delivered.toNat = s.delivered.toNat + init.length) ∨
    (t.seq = .idle ∧ ∃ data, t.produced = s.produced ++ init ++ [⟨.data, data, true⟩] ∧
      s.rem.toNat = init.length + 1) ∨
    (t.seq = .idle ∧ s.cfg.retryCap ≠ none ∧ ∃ data,
      t.produced = s.produced ++ init ++ [⟨.unsat, data, true⟩] ∧
      data.toNat = s.delivered.toNat + init.length))

theorem DrawBeats.of_quiet {s u t : State} {init : List Beat} (h : DrawBeats u t init)
    (cfg : u.cfg = s.cfg) (produced : u.produced = s.produced) (rem : u.rem = s.rem)
    (delivered : u.delivered = s.delivered) : DrawBeats s t init := by
  rwa [DrawBeats, ← cfg, ← produced, ← rem, ← delivered]

/-- A delivery that is not the last puts its beat before those to come. -/
theorem DrawBeats.of_more {s u t : State} {init : List Beat} {data : Word} (h : DrawBeats u t init)
    (progress : DrawProgress s) (cfg : u.cfg = s.cfg)
    (produced : u.produced = s.produced ++ [⟨.data, data, false⟩])
    (rem : u.rem = s.rem - 1#64) (delivered : u.delivered = s.delivered + 1#64) :
    DrawBeats s t (⟨.data, data, false⟩ :: init) := by
  obtain ⟨⟨count, -, sum⟩, rem_ne, -⟩ := progress
  have hrem : u.rem.toNat + 1 = s.rem.toNat := by bv_omega
  have hdelivered : u.delivered.toNat = s.delivered.toNat + 1 := by bv_omega
  obtain ⟨hinit, hend⟩ := h
  refine ⟨by simpa using hinit, ?_⟩
  rw [produced, cfg] at hend
  simp only [List.append_assoc, List.length_cons, List.cons_append, List.nil_append] at hend ⊢
  rcases hend with ⟨seq, hbeats, hcount⟩ | ⟨seq, last, hbeats, hcount⟩ |
    ⟨seq, cap, number, hbeats, hcount⟩
  · exact .inl ⟨seq, hbeats, by omega⟩
  · exact .inr (.inl ⟨seq, last, hbeats, by omega⟩)
  · exact .inr (.inr ⟨seq, cap, number, hbeats, by omega⟩)

/-- A run of a lone draw produces its beats. -/
theorem LoneDraw.run_beats {k : Nat} {s t : State} (h : LoneDraw s)
    (run : Sys2Proof.core.run k s = .next t) : ∃ init, DrawBeats s t init := by
  induction k generalizing s with
  | zero =>
    cases run
    exact ⟨[], by simp, .inl ⟨h.seq, by simp, by simp⟩⟩
  | succ k ih =>
    obtain ⟨s', hstep, hrun⟩ := core_run_inv run
    obtain ⟨how, hcfg, halone, hlone⟩ := h.step hstep
    have wf' : s'.cfg.wf = true := hcfg ▸ h.inv.storage.cfg_wf
    cases how with
    | quiet seq produced rem delivered =>
      obtain ⟨init, hbeats⟩ := ih (hlone seq) hrun
      exact ⟨init, hbeats.of_quiet hcfg produced rem delivered⟩
    | more data seq produced rem delivered =>
      obtain ⟨init, hbeats⟩ := ih (hlone seq) hrun
      exact ⟨_, hbeats.of_more (h.inv.draw h.seq h.running) hcfg produced rem delivered⟩
    | last data seq produced rem =>
      obtain ⟨hidle, hsame⟩ := halone.idle_run wf' seq hrun
      exact ⟨[], by simp, .inr (.inl ⟨hidle, data, by simp [hsame, produced], by simp [rem]⟩)⟩
    | unsat seq cap produced =>
      obtain ⟨hidle, hsame⟩ := halone.idle_run wf' seq hrun
      exact ⟨[], by simp,
        .inr (.inr ⟨hidle, cap, s.delivered, by simp [hsame, produced], by simp⟩)⟩

/-- Settles O39, by induction on the steps: a draw that no one disturbs runs on with at most one
beat a step, and once it has ended MTCORE stays idle. -/
theorem drawProducesTheBeatsOfItsCount : Obligations.DrawProducesTheBeatsOfItsCount := by
  intro k s t hinv seq running chan turns run
  exact LoneDraw.run_beats ⟨hinv, seq, running, chan, turns⟩ run

end Sys2Proof.Machine
end

section
/-! PROOFS. The host's tools: the pseudo-commands, literals out of range and the batch helper
(spec/30_encoding.md R86 to R88). -/

namespace Sys2Proof.Machine

/-! ### Lines with literals in range -/

theorem assembleLine_seed (v : Word) :
    assembleLine (.seed v.toNat) = .ok (encode (.seed v)) := by
  simp [assembleLine, AsmLine.wf, okU64_toNat]

theorem assembleLine_draw (v : Word) :
    assembleLine (.draw v.toNat) = .ok (encode (.draw v)) := by
  simp [assembleLine, AsmLine.wf, okU64_toNat]

theorem assembleLine_rint {l : RintLit} (h : l.wf = true) :
    assembleLine (.rint l) = .ok (encode (.rint (rintPattern l))) := by
  simp [assembleLine, AsmLine.wf, h]

/-! ### Pseudo-commands -/

/-- Settles O52: a line with a pseudo-command is checked and assembled as the line of its row. -/
theorem pseudoCommandsAreTheirExpansions : Obligations.PseudoCommandsAreTheirExpansions := by
  refine ⟨rfl, rfl, fun v => ⟨assembleLine_seed v, assembleLine_seed v, assembleLine_draw v⟩,
    fun l => rfl, fun l => rfl, fun l => rfl⟩

/-! ### Ranges of literals -/

theorem okU64_of_le {v : Nat} (h : 2 ^ 64 ≤ v) : okU64 v = false :=
  decide_eq_false (Nat.not_lt.2 h)

theorem okBits_of_le {width v : Nat} (h : 2 ^ width ≤ v) :
    (FloatLit.bits v).okBits width = false :=
  decide_eq_false (Nat.not_lt.2 h)

theorem RintLit.dec_wf_iff {i : Int} :
    (RintLit.dec i).wf = true ↔ -2 ^ 31 ≤ i ∧ i ≤ 2 ^ 31 - 1 := by
  simp [RintLit.wf]

theorem RintLit.hex_wf_iff {p : Nat} : (RintLit.hex p).wf = true ↔ p < 2 ^ 32 := by
  simp [RintLit.wf]

/-- Settles O53: a line is assembled exactly when its literals are in range. -/
theorem literalOutOfRangeIsRefused : Obligations.LiteralOutOfRangeIsRefused := by
  refine ⟨fun v hv => ⟨?_, ?_, ?_⟩, fun v hv => ⟨?_, ?_⟩, fun i hi => ?_,
    fun v => ⟨?_, ?_, ?_⟩, fun v => ⟨?_, ?_, ?_⟩⟩
  · exact assembleLine_of_not_wf (okU64_of_le hv)
  · exact assembleLine_of_not_wf (okU64_of_le hv)
  · exact assembleLine_of_not_wf (okBits_of_le hv)
  · exact assembleLine_of_not_wf (okBits_of_le hv)
  · refine assembleLine_of_not_wf (Bool.eq_false_iff.2 fun h => ?_)
    exact absurd (RintLit.hex_wf_iff.1 h) (by omega)
  · refine assembleLine_of_not_wf (Bool.eq_false_iff.2 fun h => ?_)
    exact absurd (RintLit.dec_wf_iff.1 h) (by omega)
  · exact assembleLine_seed v
  · exact assembleLine_draw v
  · rw [assembleLine_rdbl (okBits_toNat v), assembleRdbl_bits]
  · rw [assembleLine_rflt (okBits_toNat32 v), assembleRflt_bits]
  · rw [assembleLine_rint (RintLit.hex_wf_iff.2 v.isLt), rintPattern, BitVec.ofNat_toNat,
      BitVec.setWidth_eq]
  · have hrange : -2 ^ 31 ≤ v.toInt ∧ v.toInt ≤ 2 ^ 31 - 1 := by
      have hlow := v.le_toInt
      have hhigh := v.toInt_lt
      omega
    rw [assembleLine_rint (RintLit.dec_wf_iff.2 hrange), rintPattern, BitVec.ofInt_toInt]

/-! ### The batch helper -/

theorem writeBatch_of_command {range : Word} {selector : Char} {i : Instr}
    (h : precisionCommand range selector = some i) (count : Nat) :
    writeBatch count range selector = .ok (List.replicate count i) := by
  rw [writeBatch, h]

/-- Only the three selectors name a typed command. -/
theorem precisionCommand_of_ne {selector : Char} (hd : selector ≠ 'd') (hf : selector ≠ 'f')
    (hi : selector ≠ 'i') (range : Word) : precisionCommand range selector = none := by
  unfold precisionCommand
  split
  · exact absurd rfl hd
  · exact absurd rfl hf
  · exact absurd rfl hi
  · rfl

/-- Settles O54: the batch repeats the typed command of its selector, and no command repeated is
none. -/
theorem batchHelperExpandsToTypedCommands : Obligations.BatchHelperExpandsToTypedCommands := by
  intro count range
  refine ⟨writeBatch_of_command rfl count, writeBatch_of_command rfl count,
    writeBatch_of_command rfl count, fun selector hd hf hi => ?_, writeBatch_of_command rfl 0,
    writeBatch_of_command rfl 0, writeBatch_of_command rfl 0⟩
  rw [writeBatch, precisionCommand_of_ne hd hf hi]

end Sys2Proof.Machine
end

section
/-! PROOFS. The seeding commands (spec/40_seeding.md R100 to R104). -/

namespace Sys2Proof.Machine

/-- The whole effect of SEED where RSPQ has a free entry (R102). -/
theorem exec_seed_eq {s : State} (room : s.rspq.length < s.cfg.rspDepth) (v : Word) :
    exec (.seed v) s = .next { s with
      sv := seedWords s.cfg v, idx := 0
      rspq := s.rspq ++ [⟨.done, 0#64, true⟩], seq := .idle } :=
  exec_seed_of_room (s.hasRoom_iff.2 room) v

/-- SEEDDEF and SEED with DEFAULT_SEED are one meaning, held or not (R103). -/
theorem exec_seeddef_eq_exec_seed (s : State) :
    exec .seeddef s = exec (.seed s.cfg.defaultSeed) s := by
  cases room : s.hasRoom with
  | true => rw [exec_seeddef_of_room room, exec_seed_of_room room]
  | false => simp only [exec, execSeeddef, execSeed, State.whenRoom_of_full room]

/-- The recurrence of a well-formed configuration shifts by W - 2 = 62 (R9, R100). -/
theorem seedNext_of_wf {cfg : Config} (hwf : cfg.wf = true) (p : Word) (i : Nat) :
    seedNext cfg p i = cfg.f * (p ^^^ (p >>> 62)) + BitVec.ofNat 64 i := by
  obtain ⟨hw, -⟩ := Config.wf_width hwf
  rw [seedNext, seedMul, hw]

/-- Settles O22: SEED writes the words of the seeding chain, which follow the recurrence. -/
theorem seedWritesSVByTheRecurrence : Obligations.SeedWritesSVByTheRecurrence := by
  intro s v wf room
  obtain ⟨hm, hmn⟩ := Config.wf_sizes wf
  refine ⟨_, exec_seed_eq room v, rfl, seedWords_length _ _ (by omega), rfl,
    fun i p hlt hp => ?_, rfl⟩
  rw [← seedNext_of_wf wf]
  exact seedWords_getElem?_succ s.cfg v p i hlt hp

/-- Settles O23, by SEED's whole effect; DEFAULT_SEED is a field of the configuration. -/
theorem seeddefSeedsWithTheDefaultSeed : Obligations.SeeddefSeedsWithTheDefaultSeed := by
  refine ⟨exec_seeddef_eq_exec_seed, fun s room => ?_, fun s default => ?_⟩
  · rw [exec_seeddef_eq_exec_seed]
    exact ⟨_, exec_seed_eq room _, rfl, rfl⟩
  · rw [exec_seeddef_eq_exec_seed, default]
    rfl

/-- Settles O24: the words of the seeding chain are a function of the configuration and the seed. -/
theorem seedingDependsOnTheSeedAlone : Obligations.SeedingDependsOnTheSeedAlone := by
  intro s t v hcfg
  have same : seedWords s.cfg v = seedWords t.cfg v := by rw [hcfg]
  exact ⟨same, rfl, rfl, fun hs ht =>
    ⟨_, _, exec_seed_eq hs v, exec_seed_eq ht v, same, rfl, rfl⟩⟩

end Sys2Proof.Machine
end

section
/-! PROOFS. The beats after a seeding do not depend on the hosts' timing (spec/40_seeding.md R105).

A state is compared with its eager form, in which all the commands to come already wait on the
channel and every beat has been taken.  A step of MTCORE either changes nothing of the eager form (a
hold, an idle turn, a host's move) or is the one step MTCORE takes in the eager form. -/

namespace Sys2Proof.Machine

/-! ### The eager form of a state, and the beats it produces -/

/-- `s` as hosts leave it that present every command and take every beat at once. -/
def State.eager (s : State) : State :=
  { s with chan := s.pending, turns := [], rspq := [], taken := [] }

/-- The beats of `count` steps of MTCORE, each taken at once. -/
def eagerBeats : Nat → State → List Beat
  | 0, _ => []
  | count + 1, s =>
    match s.coreStep with
    | .next s' => s'.rspq ++ eagerBeats count s'.eager
    | .fault _ => []
    | .refused _ => []

theorem eagerBeats_succ {s s' : State} (h : s.coreStep = .next s') (count : Nat) :
    eagerBeats (count + 1) s = s'.rspq ++ eagerBeats count s'.eager := by
  rw [eagerBeats, h]

/-- More steps only add beats. -/
theorem eagerBeats_prefix {m n : Nat} (h : m ≤ n) (s : State) :
    eagerBeats m s <+: eagerBeats n s := by
  induction m generalizing n s with
  | zero => exact List.nil_prefix
  | succ m ih =>
    obtain ⟨n, rfl⟩ : ∃ k, n = k + 1 := ⟨n - 1, by omega⟩
    rw [eagerBeats, eagerBeats]
    split
    · exact (List.prefix_append_right_inj _).2 (ih (by omega) _)
    · exact List.nil_prefix
    · exact List.nil_prefix

theorem SameToHost.eager {s t : State} (h : SameToHost s t) : SameToHost s.eager t.eager :=
  { h with
    chan := by rw [State.eager, State.eager, State.pending, State.pending, h.chan, h.turns]
    turns := rfl
    rspq := rfl
    taken := rfl }

/-- States alike to the host produce the same beats. -/
theorem SameToHost.eagerBeats_eq {s t : State} (h : SameToHost s t) (count : Nat) :
    eagerBeats count s = eagerBeats count t := by
  induction count generalizing s t with
  | zero => rfl
  | succ count ih =>
    rcases h.coreStep_same with ⟨s', t', hs, ht, h'⟩ | ⟨f, hs, ht⟩ | ⟨r, hs, ht⟩
    · rw [eagerBeats_succ hs, eagerBeats_succ ht, h'.rspq, ih h'.eager]
    · rw [eagerBeats, eagerBeats, hs, ht]
    · rw [eagerBeats, eagerBeats, hs, ht]

/-! ### A running command beside another host -/

/-- `u` with the host's side of `s`, the beats waiting in `s` ahead of its own. -/
def State.withHostOf (u s : State) : State :=
  { u with rspq := s.rspq ++ u.rspq, chan := s.chan, turns := s.turns, taken := s.taken }

@[simp] theorem State.withHostOf_cfg (u s : State) : (u.withHostOf s).cfg = u.cfg := rfl
@[simp] theorem State.withHostOf_idx (u s : State) : (u.withHostOf s).idx = u.idx := rfl
@[simp] theorem State.withHostOf_cur (u s : State) : (u.withHostOf s).cur = u.cur := rfl
@[simp] theorem State.withHostOf_attempting (u s : State) :
    (u.withHostOf s).attempting = u.attempting := rfl
@[simp] theorem State.withHostOf_rspq (u s : State) :
    (u.withHostOf s).rspq = s.rspq ++ u.rspq := rfl
@[simp] theorem State.readSV_withHostOf (u s : State) (i : Nat) :
    (u.withHostOf s).readSV i = u.readSV i := rfl

theorem State.eager_withHostOf (s : State) : s.eager.withHostOf s = s := by
  simp [State.eager, State.withHostOf]

theorem State.produced_withHostOf (u s : State) :
    (u.withHostOf s).produced = s.produced ++ u.rspq := by
  simp [State.withHostOf, State.produced]

/-- `f` on the next state of an outcome. -/
def mapNext (f : State → State) :
    Host.Outcome State Fault Refusal → Host.Outcome State Fault Refusal
  | .next s => .next (f s)
  | .fault r => .fault r
  | .refused r => .refused r

theorem State.emit_withHostOf (u s : State) (status : Status) (data : Word) (last : Bool) :
    (u.withHostOf s).emit status data last = (u.emit status data last).withHostOf s := by
  simp [State.emit, State.withHostOf]

theorem State.deliver_withHostOf (u s : State) (data : Word) :
    (u.withHostOf s).deliver data = (u.deliver data).withHostOf s := by
  unfold State.deliver
  by_cases hlast : u.rem - 1#64 = 0#64 <;>
    simp [State.withHostOf, State.emit, State.finish, hlast]

theorem State.reject_withHostOf (u s : State) :
    (u.withHostOf s).reject = u.reject.withHostOf s := by
  unfold State.reject
  by_cases hcap : u.cfg.retryCap = some (u.rej + 1#64) <;>
    simp [State.withHostOf, State.raiseUnsat, State.emit, State.finish, hcap]

theorem State.writeAhead_withHostOf (u s : State) (k : Nat) (v : Word) :
    (u.withHostOf s).writeAhead k v = (u.writeAhead k v).map (·.withHostOf s) := by
  have write : ∀ i, (u.withHostOf s).writeSV i v = (u.writeSV i v).map (·.withHostOf s) := by
    intro i
    unfold State.writeSV
    by_cases hi : i < u.sv.length <;> simp [State.withHostOf, hi, Except.map]
  unfold State.writeAhead
  rw [write, write, State.withHostOf_cfg]
  split
  · rfl
  · split <;> rfl

/-- ADVANCE does not see the host. -/
theorem State.advance_withHostOf (u s : State) :
    (u.withHostOf s).advance = u.advance.map fun r => (r.1, r.2.withHostOf s) := by
  unfold State.advance
  simp only [bind, Except.bind, State.withHostOf_idx, State.withHostOf_cfg, State.readSV_withHostOf,
    State.writeAhead_withHostOf]
  split
  · rfl
  split
  · rfl
  split
  · rfl
  cases u.writeAhead _ _ <;> rfl

/-- Beside the host of `s`, `act` does what it does beside any other, or it is held. -/
def HeldOrSame (u s : State) (act : State → Host.Outcome State Fault Refusal) : Prop :=
  act (u.withHostOf s) = .next (u.withHostOf s) ∨
    act (u.withHostOf s) = mapNext (·.withHostOf s) (act u)

/-- A step that must emit is held where the beats waiting in `s` fill RSPQ. -/
theorem HeldOrSame.whenRoom {u s : State} {act : State → Host.Outcome State Fault Refusal}
    (same : act (u.withHostOf s) = mapNext (·.withHostOf s) (act u)) :
    HeldOrSame u s (·.whenRoom act) := by
  cases room : (u.withHostOf s).hasRoom with
  | false => exact .inl (State.whenRoom_of_full room _)
  | true =>
    have hu : u.hasRoom = true := by
      rw [State.hasRoom_iff] at room ⊢
      simp only [State.withHostOf_rspq, State.withHostOf_cfg, List.length_append] at room
      omega
    refine .inr ?_
    simp only [State.whenRoom_of_room room, State.whenRoom_of_room hu, same]

/-- A step that emits its one beat and ends the command. -/
theorem HeldOrSame.emit_finish {u s : State} (f : State → State)
    (hf : f (u.withHostOf s) = (f u).withHostOf s) (status : Status) (data : Word) :
    HeldOrSame u s (·.whenRoom fun x => .next ((f x).emit status data true).finish) := by
  refine .whenRoom ?_
  rw [hf, State.emit_withHostOf]
  rfl

theorem HeldOrSame.raiseIllegal (u s : State) : HeldOrSame u s State.raiseIllegal := by
  refine .whenRoom ?_
  rw [State.emit_withHostOf]
  rfl

theorem HeldOrSame.attempt (u s : State) (result : Word → Word) :
    HeldOrSame u s (·.attempt result) := by
  refine .whenRoom ?_
  rw [State.advance_withHostOf]
  cases u.advance with
  | error f => rfl
  | ok r =>
    obtain ⟨z, t⟩ := r
    simp only [Except.map, State.withHostOf_cfg, State.deliver_withHostOf,
      State.reject_withHostOf, mapNext]
    cases accept u.cfg z <;> rfl

theorem HeldOrSame.execNext (u s : State) : HeldOrSame u s execNext := by
  refine .whenRoom ?_
  rw [State.advance_withHostOf]
  cases u.advance with
  | error f => rfl
  | ok r =>
    simp only [Except.map, State.emit_withHostOf]
    rfl

/-- A draw takes its start step beside both hosts or an attempt beside both. -/
theorem HeldOrSame.draw {u s : State} (result : Config → Word → Word)
    {start : State → Host.Outcome State Fault Refusal} (same : HeldOrSame u s start) :
    HeldOrSame u s fun x => if x.attempting then x.attempt (result x.cfg) else start x := by
  cases running : u.attempting with
  | true => simpa [HeldOrSame, running] using HeldOrSame.attempt u s (result u.cfg)
  | false => simpa [HeldOrSame, running] using same

theorem HeldOrSame.exec (u s : State) (i : Instr) : HeldOrSame u s (exec i) := by
  cases i with
  | seed v => exact .emit_finish (·.seeding v) rfl _ _
  | seeddef => exact .emit_finish (fun x => x.seeding x.cfg.defaultSeed) rfl _ _
  | next => exact .execNext u s
  | draw count =>
    refine .draw (fun _ z => z) ?_
    by_cases hc : count = 0#64
    · simpa only [hc, if_true, id] using HeldOrSame.emit_finish id rfl _ _
    · exact .inr (by simp only [hc, if_false]; rfl)
  | rdbl range => exact .draw (resultRdbl · range) (.inr rfl)
  | rflt range => exact .draw (resultRflt · range) (.inr rfl)
  | rint range => exact .draw (resultRint · range) (.inr rfl)

theorem HeldOrSame.runCommand (u s : State) : HeldOrSame u s State.runCommand := by
  unfold HeldOrSame State.runCommand
  rw [State.withHostOf_cur]
  split
  · exact HeldOrSame.exec u s _
  · exact HeldOrSame.raiseIllegal u s

/-! ### A step, seen in the eager form -/

/-- From `s` to `s'` nothing moves in the eager form, or MTCORE takes its step in the eager form. -/
inductive EagerStep (s s' : State) : Prop where
  | quiet (eager : s'.eager = s.eager) (produced : s'.produced = s.produced)
  | ahead (w : State) (step : s.eager.coreStep = .next w) (eager : w.eager = s'.eager)
      (produced : s'.produced = s.produced ++ w.rspq)

/-- An idle MTCORE accepts the same command in the eager form, or no command waits on the channel. -/
theorem State.acceptCommand_eagerStep {s : State} (idle : s.seq = .idle) :
    EagerStep s s.acceptCommand := by
  cases chan : s.chan with
  | nil =>
    rw [State.acceptCommand_nil chan]
    exact .quiet rfl rfl
  | cons c rest =>
    have hchan : s.eager.chan = c :: (rest ++ presentedBy s.turns) := by
      simp [State.eager, State.pending, chan]
    refine .ahead _ (State.coreStep_of_idle idle) ?_ (by simp [State.eager])
    rw [State.acceptCommand_cons chan, State.acceptCommand_cons hchan]
    simp [State.eager, State.pending, presentedBy]

/-- The running command leaves the channel and the schedule alone. -/
theorem State.runCommand_frame {s s' : State} (h : s.runCommand = .next s') :
    s'.chan = s.chan ∧ s'.turns = s.turns := by
  unfold State.runCommand at h
  split at h
  · obtain ⟨-, -, hchan, hturns, -⟩ := exec_frame h
    exact ⟨hchan, hturns⟩
  · unfold State.raiseIllegal State.whenRoom at h
    split at h <;> cases h <;> exact ⟨rfl, rfl⟩

/-- A running command takes the same step in the eager form, or it is held. -/
theorem State.runCommand_eagerStep {s s' : State} (seq : s.seq = .exec)
    (h : s.runCommand = .next s') : EagerStep s s' := by
  have how := HeldOrSame.runCommand s.eager s
  rw [HeldOrSame, s.eager_withHostOf, h] at how
  rcases how with held | same
  · cases held
    exact .quiet rfl rfl
  · have hcore : s.eager.coreStep = s.eager.runCommand := by
      rw [State.coreStep, show s.eager.seq = .exec from seq]
    cases hw : s.eager.runCommand with
    | fault f => rw [hw] at same; cases same
    | refused r => rw [hw] at same; cases same
    | next w =>
      rw [hw] at same
      cases same
      obtain ⟨hchan, hturns⟩ := State.runCommand_frame hw
      refine .ahead w (hcore.trans hw) ?_ (State.produced_withHostOf w s)
      simp [State.eager, State.withHostOf, State.pending, hchan, hturns, presentedBy]

/-! ### Runs without a reset -/

/-- No reset is under way and none is to come. -/
structure ResetFree (s : State) : Prop where
  seq : s.seq ≠ .resetting
  turns : ∀ turn ∈ s.turns, turn ≠ .reset

/-- A step from there leads to another such state. -/
theorem ResetFree.step {s s' : State} (h : ResetFree s) (hstep : step s = .next s') :
    ResetFree s' := by
  suffices hs : s'.seq ≠ .resetting ∧ s'.turns = s.turns.tail by
    obtain ⟨hseq, hturns⟩ := hs
    exact ⟨hseq, fun turn mem => h.turns turn (List.mem_of_mem_tail (hturns ▸ mem))⟩
  have how := step_case s
  rw [hstep] at how
  cases how with
  | presented | illegalHeld => exact ⟨h.seq, rfl⟩
  | taken => exact ⟨by simpa using h.seq, by simp⟩
  | reset wf turn => exact absurd rfl (h.turns _ (List.mem_of_head? turn))
  | reseeded wf turn seq => exact absurd seq h.seq
  | idle wf turn seq =>
    refine ⟨?_, by simp⟩
    cases chan : s.popTurn.chan with
    | nil => rw [State.acceptCommand_nil chan]; exact h.seq
    | cons c rest => rw [State.acceptCommand_cons chan]; nofun
  | illegal => exact ⟨nofun, rfl⟩
  | ran i o wf turn seq dec run =>
    obtain ⟨-, -, -, hturns, -⟩ := exec_frame run
    refine ⟨?_, hturns⟩
    rcases exec_beats (s := s.popTurn) seq run with ⟨-, hseq⟩ | ⟨b, -, hseq⟩
    · rw [hseq]; nofun
    · rw [hseq]; split <;> nofun

/-- A turn of MTCORE presents no command. -/
theorem State.eager_popTurn_of_core {s : State} (turn : s.turn = .core) :
    s.popTurn.eager = s.eager := by
  cases turns : s.turns with
  | nil => rw [State.popTurn_of_nil turns]
  | cons head rest =>
    obtain rfl : head = .core := by simpa [State.turn, turns] using turn
    simp [State.eager, State.pending, State.popTurn, turns, presentedBy]

theorem EagerStep.of_popTurn {s s' : State} (h : EagerStep s.popTurn s') (turn : s.turn = .core) :
    EagerStep s s' := by
  have same := State.eager_popTurn_of_core turn
  cases h with
  | quiet eager produced => exact .quiet (eager.trans same) produced
  | ahead w step eager produced => exact .ahead w (same ▸ step) eager produced

/-- The presented command is among those to come before and after. -/
theorem State.presentCommand_eagerStep {s : State} {c : Command}
    (turn : s.turns.head? = some (.present c)) : EagerStep s (s.popTurn.presentCommand c) := by
  obtain ⟨rest, turns⟩ := List.head?_eq_some_iff.1 turn
  refine .quiet ?_ (by simp)
  simp [State.eager, State.pending, State.presentCommand, State.popTurn, turns, presentedBy]

theorem State.takeBeat_eagerStep {s : State} (turn : s.turns.head? = some .take) :
    EagerStep s s.popTurn.takeBeat := by
  obtain ⟨rest, turns⟩ := List.head?_eq_some_iff.1 turn
  refine .quiet ?_ (by simp)
  unfold State.takeBeat
  split <;> simp [State.eager, State.pending, State.popTurn, turns, presentedBy]

theorem ResetFree.eagerStep {s s' : State} (h : ResetFree s) (hstep : Machine.step s = .next s') :
    EagerStep s s' := by
  have runs (wf : s.cfg.wf = true) (turn : s.turn = .core) (seq : s.seq = .exec) :
      EagerStep s s' := by
    rw [step_of_core wf turn, State.coreStep, State.popTurn_seq, seq] at hstep
    exact (State.runCommand_eagerStep (s := s.popTurn) seq hstep).of_popTurn turn
  have how := step_case s
  rw [hstep] at how
  cases how with
  | presented c wf turn => exact State.presentCommand_eagerStep turn
  | taken wf turn => exact State.takeBeat_eagerStep turn
  | reset wf turn => exact absurd rfl (h.turns _ (List.mem_of_head? turn))
  | reseeded wf turn seq => exact absurd seq h.seq
  | idle wf turn seq =>
    exact (State.acceptCommand_eagerStep (s := s.popTurn) seq).of_popTurn turn
  | illegalHeld r wf turn seq => exact runs wf turn seq
  | illegal r wf turn seq => exact runs wf turn seq
  | ran i o wf turn seq => exact runs wf turn seq

/-- The beats of a run are those of some number of steps in the eager form. -/
theorem ResetFree.run_produced {k : Nat} {s t : State} (h : ResetFree s)
    (run : Sys2Proof.core.run k s = .next t) :
    ∃ count, t.produced = s.produced ++ eagerBeats count s.eager := by
  induction k generalizing s with
  | zero =>
    cases run
    exact ⟨0, by simp [eagerBeats]⟩
  | succ k ih =>
    obtain ⟨s', hstep, hrun⟩ := core_run_inv run
    obtain ⟨count, hbeats⟩ := ih (h.step hstep) hrun
    cases h.eagerStep hstep with
    | quiet eager produced => exact ⟨count, by rw [hbeats, produced, eager]⟩
    | ahead w core eager produced =>
      refine ⟨count + 1, ?_⟩
      rw [hbeats, produced, eagerBeats_succ core, eager, List.append_assoc]

/-! ### Two machines seeded alike -/

/-- `s` after SEED of `v`, where RSPQ has a free entry. -/
def State.seeded (s : State) (v : Word) : State := ((s.seeding v).emit .done 0#64 true).finish

theorem State.seeded_produced (s : State) (v : Word) :
    (s.seeded v).produced = s.produced ++ [⟨.done, 0#64, true⟩] := by
  simp [State.seeded]

/-- SEED overwrites the storage and ends the command, so of the state before it only the
configuration and the commands to come count. -/
theorem State.seeded_eager_same {s t : State} (hcfg : s.cfg = t.cfg)
    (hpending : s.pending = t.pending) (v : Word) :
    SameToHost (s.seeded v).eager (t.seeded v).eager where
  cfg := hcfg
  sv := congrArg (seedWords · v) hcfg
  idx := rfl
  seq := rfl
  rspq := rfl
  chan := hpending
  turns := rfl
  taken := rfl
  cur := nofun
  counters := nofun

/-- The beats of a run without a reset after SEED: its DONE beat, then eager beats. -/
theorem State.run_seeded_produced {k : Nat} {s t : State} {v : Word}
    (noReset : ∀ turn ∈ s.turns, turn ≠ .reset)
    (run : Sys2Proof.core.run k (s.seeded v) = .next t) :
    ∃ count, t.produced =
      s.produced ++ ⟨.done, 0#64, true⟩ :: eagerBeats count (s.seeded v).eager := by
  have free : ResetFree (s.seeded v) := ⟨nofun, noReset⟩
  obtain ⟨count, hbeats⟩ := free.run_produced run
  exact ⟨count, by rw [hbeats, State.seeded_produced]; simp⟩

/-- Settles O20: after SEED both machines have eager forms alike to the host, whose beats agree; each
run has produced the beats of some number of steps of it, and more steps only add beats. -/
theorem sameSeedAndCommandsGiveTheSameBeats : Obligations.SameSeedAndCommandsGiveTheSameBeats := by
  intro s t s1 t1 v hcfg hpending hs ht noReset hs1 ht1 k l s2 t2 runS runT
  rw [exec_seed_of_room hs] at hs1
  rw [exec_seed_of_room ht] at ht1
  cases hs1
  cases ht1
  obtain ⟨m, hm⟩ := State.run_seeded_produced
    (fun turn mem => noReset turn (List.mem_append_left _ mem)) runS
  obtain ⟨n, hn⟩ := State.run_seeded_produced
    (fun turn mem => noReset turn (List.mem_append_right _ mem)) runT
  refine ⟨_, _, hm, hn, ?_⟩
  rw [(State.seeded_eager_same hcfg hpending v).eagerBeats_eq m]
  simp only [List.prefix_cons_inj]
  exact (Nat.le_total m n).imp (eagerBeats_prefix · _) (eagerBeats_prefix · _)

end Sys2Proof.Machine
end

section
/-! PROOFS. TEMPER is a bijection (spec/41_advance.md R126, R128).

A stage XORs a word with a masked shift of itself.  Both are linear over XOR, so two words with the
same image differ by a word that is its own masked shift, and a shift by at least one place leaves
no such word but 0. -/

namespace Sys2Proof.Machine

/-! ### A word that is its own masked shift -/

/-- A right shift at least halves a word. -/
theorem eq_zero_of_eq_ushiftRight_and {k : Nat} (hk : 1 ≤ k) {mask e : Word}
    (h : e = (e >>> k) &&& mask) : e = 0#64 := by
  have hle : e.toNat ≤ e.toNat / 2 ^ k := by
    calc e.toNat = (e >>> k).toNat &&& mask.toNat := congrArg BitVec.toNat h
      _ ≤ (e >>> k).toNat := Nat.and_le_left
      _ = e.toNat / 2 ^ k := by rw [BitVec.toNat_ushiftRight, Nat.shiftRight_eq_div_pow]
  have hpow : 2 ≤ 2 ^ k := Nat.le_self_pow (by omega) 2
  have hhalf : e.toNat / 2 ^ k ≤ e.toNat / 2 := Nat.div_le_div_left hpow (by decide)
  bv_omega

/-- After a left shift bit `i` is one from below `i`, or 0. -/
theorem eq_zero_of_eq_shiftLeft_and {k : Nat} (hk : 1 ≤ k) {mask e : Word}
    (h : e = (e <<< k) &&& mask) : e = 0#64 := by
  have bits : ∀ i, e.getLsbD i = false := by
    intro i
    induction i using Nat.strong_induction_on with
    | _ i ih =>
      rw [h, BitVec.getLsbD_and, BitVec.getLsbD_shiftLeft]
      by_cases hi : i < k
      · simp [hi]
      · simp [ih (i - k) (by omega)]
  exact BitVec.eq_of_getLsbD_eq fun i _ => by rw [bits, BitVec.getLsbD_zero]

/-! ### The stages -/

theorem xor_and_mask (mask y y' : Word) :
    (y ^^^ y') &&& mask = (y &&& mask) ^^^ (y' &&& mask) := by
  ext i
  simp only [BitVec.getElem_and, BitVec.getElem_xor, Bool.and_xor_distrib_right]

/-- XOR with a linear function whose only fixed point is 0 is injective. -/
theorem xor_linear_injective {g : Word → Word} (linear : ∀ y y', g (y ^^^ y') = g y ^^^ g y')
    (fixed : ∀ e, e = g e → e = 0#64) : Function.Injective fun y => y ^^^ g y := by
  intro y y' (h : y ^^^ g y = y' ^^^ g y')
  have hdiff : y ^^^ y' = g (y ^^^ y') := by
    rw [linear, ← BitVec.xor_eq_zero_iff, ← BitVec.xor_eq_zero_iff.2 h]
    ac_rfl
  exact BitVec.xor_eq_zero_iff.1 (fixed _ hdiff)

theorem temper1_injective {cfg : Config} (hu : 1 ≤ cfg.u) : Function.Injective (temper1 cfg) :=
  xor_linear_injective (fun y y' => by rw [BitVec.ushiftRight_xor_distrib, xor_and_mask])
    fun _ => eq_zero_of_eq_ushiftRight_and hu

theorem temper2_injective {cfg : Config} (hs : 1 ≤ cfg.s) : Function.Injective (temper2 cfg) :=
  xor_linear_injective (fun y y' => by rw [BitVec.shiftLeft_xor_distrib, xor_and_mask])
    fun _ => eq_zero_of_eq_shiftLeft_and hs

theorem temper3_injective {cfg : Config} (ht : 1 ≤ cfg.t) : Function.Injective (temper3 cfg) :=
  xor_linear_injective (fun y y' => by rw [BitVec.shiftLeft_xor_distrib, xor_and_mask])
    fun _ => eq_zero_of_eq_shiftLeft_and ht

/-- Stage 4 has no mask, as under a mask of ones. -/
theorem temper4_injective {cfg : Config} (hl : 1 ≤ cfg.l) : Function.Injective (temper4 cfg) :=
  xor_linear_injective (fun y y' => BitVec.ushiftRight_xor_distrib y y' cfg.l)
    fun _ h => eq_zero_of_eq_ushiftRight_and (mask := BitVec.allOnes 64) hl
      (by rwa [BitVec.and_allOnes])

theorem temper_zero (cfg : Config) : temper cfg 0#64 = 0#64 := by
  simp [temper, temper1, temper2, temper3, temper4]

/-- Settles O32: on a finite type the composition of injective stages is a bijection. -/
theorem temperIsABijection : Obligations.TemperIsABijection := by
  intro cfg hwf
  obtain ⟨⟨hu, -⟩, ⟨hs, -⟩, ⟨ht, -⟩, ⟨hl, -⟩⟩ := Config.wf_shifts hwf
  have injective : Function.Injective (temper cfg) :=
    (temper4_injective hl).comp <| (temper3_injective ht).comp <|
      (temper2_injective hs).comp (temper1_injective hu)
  exact ⟨Finite.injective_iff_bijective.1 injective, temper_zero cfg⟩

end Sys2Proof.Machine
end

section
/-! PROOFS. The index arithmetic and the twist of an advance, what one advance does to the storage
and the cursor, and NEXT (spec/41_advance.md R120 to R127, R130; spec/70_reset_and_hazards.md
R240). -/

namespace Sys2Proof.Machine

/-! ### Indexes and the twist -/

/-- The cursor moves on by one and wraps from `n - 1` to 0 (R125). -/
theorem succ_mod_eq_ite {k n : Nat} (hk : k < n) :
    (k + 1) % n = if k + 1 < n then k + 1 else 0 := by
  split
  · exact Nat.mod_eq_of_lt ‹_›
  · rw [show k + 1 = n by omega, Nat.mod_self]

/-- The middle word is `m` entries ahead of the cursor, past the end from the start (R123). -/
theorem add_mod_eq_ite {k n m : Nat} (hk : k < n) (hm : m < n) :
    (k + m) % n = if k < n - m then k + m else k + m - n := by
  split
  · exact Nat.mod_eq_of_lt (by omega)
  · rw [Nat.mod_eq_sub_mod (by omega), Nat.mod_eq_of_lt (by omega)]

/-- Settles O26: the indexes of the spec are sums modulo N, and a sum below 2 N is reduced by one
subtraction. -/
theorem advanceIndexesInEachRange : Obligations.AdvanceIndexesInEachRange := by
  refine ⟨fun k n m hk _ hm => ⟨?_, ?_⟩, fun k hk => ?_⟩
  · rw [modN_pred, succ_mod_eq_ite hk]
  · rw [modN_sub, add_mod_eq_ite hk hm]
  · calc modN ((k : Int) - ((624 : Int) - 397)) 624 = (k + 397) % 624 := modN_sub k 624 397
      _ = if k < 624 - 397 then k + 397 else k + 397 - 624 := add_mod_eq_ite hk (by decide)
      _ = if k ≤ 226 then k + 397 else k - 227 := by split <;> split <;> omega

theorem twist_of_even {x : Word} (cfg : Config) (h : x.getLsbD 0 = false) :
    twist cfg x = x >>> 1 := by
  rw [twist, if_neg (by rw [h]; decide)]

theorem twist_of_odd {x : Word} (cfg : Config) (h : x.getLsbD 0 = true) :
    twist cfg x = (x >>> 1) ^^^ cfg.a := by
  rw [twist, if_pos h]

/-- A right shift fills with zeros. -/
theorem ushiftRight_one_getLsbD_63 (x : Word) : (x >>> 1).getLsbD 63 = false := by
  simp

/-- Settles O28: by the bit the shift discards; XOR with a bit 63 of 0 keeps that of A. -/
theorem twistXorsAWhenTheDiscardedBitIsOne : Obligations.TwistXorsAWhenTheDiscardedBitIsOne := by
  intro cfg x
  refine ⟨twist_of_even cfg, twist_of_odd cfg, ushiftRight_one_getLsbD_63 x, fun odd => ?_⟩
  rw [twist_of_odd cfg odd, BitVec.getLsbD_xor, ushiftRight_one_getLsbD_63, Bool.false_xor]

/-! ### One advance -/

/-- Settles O30, by the laws of ADVANCE. -/
theorem advanceNeverFailsAndKeepsTheRest : Obligations.AdvanceNeverFailsAndKeepsTheRest := by
  intro s hs
  obtain ⟨z, s', adv⟩ := State.advance_of_storage hs
  exact ⟨z, s', adv, State.advance_storage adv hs, State.advance_frame adv⟩

/-- The raw word ADVANCE answers, from the entries at the cursor and after it (R121, R126). -/
theorem State.advance_word {s s' : State} {z svk svj : Word} (adv : s.advance = .ok (z, s'))
    (hk : s.sv[s.idx]? = some svk) (hj : s.sv[(s.idx + 1) % s.cfg.n]? = some svj) :
    z = temper s.cfg (mixWord s.cfg svk svj) := by
  obtain ⟨_, _, _, ek, ej, -, hz, -⟩ := State.advance_ok adv
  rw [hk] at ek
  rw [hj] at ej
  cases ek
  cases ej
  exact hz

/-- The whole effect of ADVANCE on sound storage, from the three entries it reads (R120). -/
theorem State.advance_eq {s : State} {svk svj svj2 : Word} (hs : StorageOk s)
    (hk : s.sv[s.idx]? = some svk) (hj : s.sv[(s.idx + 1) % s.cfg.n]? = some svj)
    (hj2 : s.sv[(s.idx + s.cfg.m) % s.cfg.n]? = some svj2) :
    s.advance = .ok (temper s.cfg (mixWord s.cfg svk svj), { s with
      sv := s.svAhead s.idx (svj2 ^^^ twist s.cfg (mixWord s.cfg svk svj))
      spill := s.spillAhead s.idx (svj2 ^^^ twist s.cfg (mixWord s.cfg svk svj))
      idx := if s.idx + 1 = s.cfg.n then 0 else s.idx + 1 }) := by
  obtain ⟨z, s', adv⟩ := State.advance_of_storage hs
  obtain ⟨_, _, _, ek, ej, ej2, hz, hs'⟩ := State.advance_ok adv
  rw [hk] at ek
  rw [hj] at ej
  rw [hj2] at ej2
  cases ek
  cases ej
  cases ej2
  rw [adv, hz, hs']

/-- Settles O29: the whole effect of ADVANCE, whose raw word NEXT emits in its last beat. -/
theorem nextAdvancesOnceAndReturnsTheRawWord :
    Obligations.NextAdvancesOnceAndReturnsTheRawWord := by
  intro s svk svj svj2 x v y1 y2 y3 y4 hs room hk hj hj2 hx hv hy1 hy2 hy3 hy4
  have hmix : mixWord s.cfg svk svj = x := hx.symm
  have hnew : svj2 ^^^ twist s.cfg x = v := hv.symm
  have hraw : temper s.cfg x = y4 := by subst hy1 hy2 hy3 hy4; rfl
  rw [exec_next_of_advance (s.hasRoom_iff.2 room) (State.advance_eq hs hk hj hj2), hmix, hnew, hraw]
  rfl

/-! ### Two advances in a row -/

/-- The raw word of a second advance: it reads at the cursor the first one moved on, from the SV the
first one wrote. -/
theorem State.second_advance_word {s s1 s2 : State} {z1 z2 svk svj svj2 a b : Word}
    (hs : StorageOk s) (adv1 : s.advance = .ok (z1, s1)) (adv2 : s1.advance = .ok (z2, s2))
    (hk : s.sv[s.idx]? = some svk) (hj : s.sv[(s.idx + 1) % s.cfg.n]? = some svj)
    (hj2 : s.sv[(s.idx + s.cfg.m) % s.cfg.n]? = some svj2)
    (ha : (s.svAhead s.idx (svj2 ^^^ twist s.cfg (mixWord s.cfg svk svj)))[(s.idx + 1) % s.cfg.n]? =
      some a)
    (hb : (s.svAhead s.idx (svj2 ^^^ twist s.cfg (mixWord s.cfg svk svj)))[(s.idx + 2) % s.cfg.n]? =
      some b) :
    z2 = temper s.cfg (mixWord s.cfg a b) := by
  obtain ⟨hidx, -⟩ := State.advance_touches adv1 hs.idx_lt
  rw [State.advance_eq hs hk hj hj2] at adv1
  obtain ⟨hcfg, hsv⟩ : s1.cfg = s.cfg ∧
      s1.sv = s.svAhead s.idx (svj2 ^^^ twist s.cfg (mixWord s.cfg svk svj)) := by
    cases adv1
    exact ⟨rfl, rfl⟩
  rw [← hcfg]
  refine State.advance_word adv2 ?_ ?_
  · rw [hsv, hidx, ha]
  · rw [hsv, hidx, hcfg, Nat.mod_add_mod, hb]

theorem State.svAhead_of_lt {s : State} {k : Nat} (h : k + 1 < s.cfg.n) (v : Word) :
    s.svAhead k v = s.sv.set (k + 1) v := by
  simp [State.svAhead, h]

theorem State.svAhead_of_wrap {s : State} {k : Nat} (h : k + 1 = s.cfg.n)
    (wrap : s.cfg.writeAhead = .wrap) (v : Word) : s.svAhead k v = s.sv.set 0 v := by
  simp [State.svAhead, h, wrap]

theorem State.svAhead_of_spill {s : State} {k : Nat} (h : k + 1 = s.cfg.n)
    (spill : s.cfg.writeAhead = .spill) (v : Word) : s.svAhead k v = s.sv := by
  simp [State.svAhead, h, spill]

/-- The entries at the moved cursor and after it, where the cursor was at the last entry. -/
theorem succ_mod_of_last {k n : Nat} (h : k + 1 = n) (hn : 2 ≤ n) :
    (k + 1) % n = 0 ∧ (k + 2) % n = 1 := by
  subst h
  exact ⟨Nat.mod_self _, Nat.add_mod_left (k + 1) 1 ▸ Nat.mod_eq_of_lt (by omega)⟩

/-- Settles O31: the entry after the moved cursor is not the one written ahead, since N is at least
2. -/
theorem nextAdvanceReadsTheWordWrittenAhead : Obligations.NextAdvanceReadsTheWordWrittenAhead := by
  intro s s1 s2 z1 z2 svk svj svj2 hs adv1 adv2 hk hj hj2
  obtain ⟨hm, hmn⟩ := Config.wf_sizes hs.cfg_wf
  have hlen := hs.sv_length
  have word := fun a b => State.second_advance_word (a := a) (b := b) hs adv1 adv2 hk hj hj2
  refine ⟨fun hlt svj' h => ?_, fun hlast wrap svj' h => ?_, fun hlast spill sv0 sv1 h0 h1 => ?_⟩
  · have other : s.idx + 1 ≠ (s.idx + 2) % s.cfg.n := by
      rw [succ_mod_eq_ite hlt]
      split <;> omega
    rw [State.svAhead_of_lt hlt, Nat.mod_eq_of_lt hlt] at word
    exact word _ _ (List.getElem?_set_self (by omega)) ((List.getElem?_set_ne other).trans h)
  · obtain ⟨hcur, hafter⟩ := succ_mod_of_last hlast (by omega)
    rw [State.svAhead_of_wrap hlast wrap, hcur, hafter] at word
    exact word _ _ (List.getElem?_set_self (by omega))
      ((List.getElem?_set_ne (by decide)).trans h)
  · obtain ⟨hcur, hafter⟩ := succ_mod_of_last hlast (by omega)
    rw [State.svAhead_of_spill hlast spill, hcur, hafter] at word
    exact word _ _ h0 h1

/-! ### Any number of advances -/

/-- On sound storage any number of advances answers, and moves IDX on by it modulo N. -/
theorem advances_idx (count : Nat) {s : State} (hs : StorageOk s) :
    ∃ t, advances count s = .ok t ∧ t.idx = (s.idx + count) % s.cfg.n := by
  induction count generalizing s with
  | zero => exact ⟨s, rfl, (Nat.mod_eq_of_lt hs.idx_lt).symm⟩
  | succ count ih =>
    obtain ⟨z, s', adv⟩ := State.advance_of_storage hs
    obtain ⟨t, ht, hidx⟩ := ih (State.advance_storage adv hs)
    obtain ⟨hmove, -⟩ := State.advance_touches adv hs.idx_lt
    have hcfg : s'.cfg = s.cfg := by rw [State.advance_frame adv]
    refine ⟨t, by rw [advances, adv]; exact ht, ?_⟩
    rw [hidx, hmove, hcfg, Nat.mod_add_mod, Nat.add_assoc, Nat.add_comm 1]

/-- Settles O33: one advance moves IDX on by one modulo N, and SEEDING sets it to 0. -/
theorem idxCountsAdvancesModuloN : Obligations.IdxCountsAdvancesModuloN := by
  refine ⟨fun s s' z hs adv => ?_, fun s v count hwf => ?_⟩
  · obtain ⟨hmove, -⟩ := State.advance_touches adv hs.idx_lt
    exact ⟨hmove.trans (succ_mod_eq_ite hs.idx_lt), (State.advance_storage adv hs).idx_lt⟩
  · simpa using advances_idx count (s.seeding_storage v hwf)

end Sys2Proof.Machine
end

section
/-! PROOFS. A rejected attempt, and a draw whose raw words are all rejected (spec/42_draw.md R151,
R153, R155, R156; spec/60_exceptions.md R201).

The endless draw is followed in the eager form of its states: a host's move and a hold change
nothing there, and a step of MTCORE is one rejected attempt. -/

namespace Sys2Proof.Machine

/-! ### A rejected attempt -/

/-- A rejection after an ADVANCE, below RETRY_CAP: REJ alone changes (R155). -/
theorem State.reject_of_advance {s s1 : State} {z : Word} (adv : s.advance = .ok (z, s1))
    (below : s.cfg.retryCap ≠ some (s.rej + 1#64)) :
    s1.reject = { s1 with rej := s.rej + 1#64 } := by
  rw [State.advance_frame adv]
  exact if_neg below

/-- A rejection after an ADVANCE that reaches RETRY_CAP: the UNSAT beat ends the draw (R155,
R201). -/
theorem State.reject_of_advance_at_cap {s s1 : State} {z : Word} (adv : s.advance = .ok (z, s1))
    (cap : s.cfg.retryCap = some (s.rej + 1#64)) :
    s1.reject = { s1 with
      rej := s.rej + 1#64, rspq := s.rspq ++ [⟨.unsat, s.delivered, true⟩], seq := .idle } := by
  rw [State.advance_frame adv]
  exact if_pos cap

/-- Settles O37: in its attempt steps each draw is an attempt, and a rejected attempt is a
rejection after the ADVANCE. -/
theorem rejectedAttemptAdvancesAndDeliversNothing :
    Obligations.RejectedAttemptAdvancesAndDeliversNothing := by
  intro s s1 z i running room adv rej which
  have draw : (drawCountOf i).isSome = true := by
    rcases which with ⟨_, rfl⟩ | ⟨_, rfl⟩ | ⟨_, rfl⟩ | ⟨_, rfl⟩ <;> rfl
  obtain ⟨result, hattempt⟩ := exec_eq_attempt running draw
  rw [hattempt, attempt_of_reject result (s.hasRoom_iff.2 room) adv rej]
  exact ⟨fun below => by rw [State.reject_of_advance adv below],
    fun cap => by rw [State.reject_of_advance_at_cap adv cap]⟩

/-! ### The storage decides the raw words -/

/-- The same configuration, SV and IDX, which are all that ADVANCE reads. -/
structure SameStorage (s t : State) : Prop where
  cfg : t.cfg = s.cfg
  sv : t.sv = s.sv
  idx : t.idx = s.idx

theorem SameStorage.advance {s t t' : State} {z : Word} (h : SameStorage s t)
    (adv : t.advance = .ok (z, t')) : ∃ s', s.advance = .ok (z, s') ∧ SameStorage s' t' := by
  rcases State.advance_congr h.cfg h.sv h.idx with ⟨f, herr, -⟩ | ⟨z', u, s', ht, hs, hsv, hidx⟩
  · rw [adv] at herr; cases herr
  · rw [adv] at ht
    cases ht
    refine ⟨s', hs, ?_, hsv, hidx⟩
    rw [State.advance_frame adv, State.advance_frame hs]
    exact h.cfg

theorem SameStorage.advances {j : Nat} {s t t' : State} (h : SameStorage s t)
    (adv : Machine.advances j t = .ok t') :
    ∃ s', Machine.advances j s = .ok s' ∧ SameStorage s' t' := by
  induction j generalizing s t with
  | zero => cases adv; exact ⟨s, rfl, h⟩
  | succ j ih =>
    rw [Machine.advances] at adv
    split at adv
    · obtain ⟨u, hu, same⟩ := h.advance ‹_›
      rw [Machine.advances, hu]
      exact ih same adv
    · cases adv

/-! ### A draw whose words are all rejected -/

/-- The next `k` raw words of `s` lie outside the window. -/
def RejectsNext (k : Nat) (s : State) : Prop :=
  ∀ (j : Nat) (u u' : State) (z : Word), j < k → advances j s = .ok u →
    u.advance = .ok (z, u') → accept s.cfg z = false

theorem RejectsNext.congr {k : Nat} {s t : State} (h : RejectsNext k s) (same : SameStorage s t) :
    RejectsNext k t := by
  intro j u u' z hj hu hz
  obtain ⟨v, hv, hsame⟩ := same.advances hu
  obtain ⟨v', hv', -⟩ := hsame.advance hz
  rw [same.cfg]
  exact h j v v' z hj hv hv'

theorem RejectsNext.pred {k : Nat} {s : State} (h : RejectsNext (k + 1) s) : RejectsNext k s :=
  fun j u u' z hj => h j u u' z (by omega)

/-- Among `k + 1` rejected words are the one of the next ADVANCE and the `k` after it. -/
theorem RejectsNext.advance {k : Nat} {s s1 : State} {z : Word} (h : RejectsNext (k + 1) s)
    (adv : s.advance = .ok (z, s1)) : accept s.cfg z = false ∧ RejectsNext k s1 := by
  refine ⟨h 0 s s1 z (by omega) rfl adv, fun j u u' z' hj hu hz => ?_⟩
  have hcfg : s1.cfg = s.cfg := by rw [State.advance_frame adv]
  rw [hcfg]
  exact h (j + 1) u u' z' (by omega) (by rw [advances, adv]; exact hu) hz

/-- The eager form differs from the state in the host's side alone, of which the invariant has only
that the waiting beats fit in RSPQ. -/
theorem Inv.eager {s : State} (h : Inv s) : Inv s.eager where
  storage := h.storage.congr rfl rfl rfl
  rspq_le := Nat.zero_le _
  resetting := fun _ => rfl
  draw := fun seq running => (h.draw seq running).congr ⟨rfl, rfl, rfl, rfl, rfl⟩

/-- Two states in the middle of the same command, with the same commands to come. -/
structure SameCommand (s t : State) : Prop where
  cfg : t.cfg = s.cfg
  seq : t.seq = s.seq
  attempting : t.attempting = s.attempting
  cur : t.cur = s.cur
  pending : t.pending = s.pending

theorem SameCommand.trans {s t u : State} (h : SameCommand s t) (h' : SameCommand t u) :
    SameCommand s u :=
  ⟨h'.cfg.trans h.cfg, h'.seq.trans h.seq, h'.attempting.trans h.attempting, h'.cur.trans h.cur,
    h'.pending.trans h.pending⟩

/-- States with one eager form differ in the host's side alone. -/
theorem State.same_of_eager_eq {s t : State} (h : t.eager = s.eager) :
    SameCommand s t ∧ SameStorage s t := by
  simp only [State.eager, State.mk.injEq] at h
  obtain ⟨cfg, sv, idx, -, seq, cur, attempting, -, -, -, -, pending, -⟩ := h
  exact ⟨⟨cfg, seq, attempting, cur, pending⟩, ⟨cfg, sv, idx⟩⟩

/-- An uncapped draw in its attempt steps whose next `k` raw words lie outside the window, with no
reset to come. -/
structure BarrenDraw (k : Nat) (s : State) : Prop where
  inv : Inv s
  free : ResetFree s
  seq : s.seq = .exec
  running : s.attempting = true
  uncapped : s.cfg.retryCap = none
  rejects : RejectsNext k s

/-- In the eager form MTCORE's step of a barren draw is a rejected attempt, without a beat. -/
theorem BarrenDraw.eager_coreStep {k : Nat} {s : State} (h : BarrenDraw (k + 1) s) :
    ∃ w, s.eager.coreStep = .next w ∧ w.rspq = [] ∧ SameCommand s w ∧ RejectsNext k w := by
  have hinv := h.inv.eager
  obtain ⟨result, hattempt⟩ := State.coreStep_eq_attempt hinv h.seq h.running
  obtain ⟨z, u, adv⟩ := State.advance_of_storage hinv.storage
  obtain ⟨hrej, hnext⟩ := (h.rejects.congr (t := s.eager) ⟨rfl, rfl, rfl⟩).advance adv
  have room : s.eager.hasRoom = true :=
    s.eager.hasRoom_iff.2 (Config.wf_depth h.inv.storage.cfg_wf)
  have below : s.eager.cfg.retryCap ≠ some (s.eager.rej + 1#64) := by
    rw [show s.eager.cfg.retryCap = none from h.uncapped]
    nofun
  have hcore : s.eager.coreStep = .next { u with rej := s.eager.rej + 1#64 } := by
    rw [hattempt, attempt_of_reject result room adv hrej, State.reject_of_advance adv below]
  refine ⟨_, hcore, ?_, ?_, hnext.congr ⟨rfl, rfl, rfl⟩⟩
  · rw [State.advance_frame adv]
    rfl
  · rw [State.advance_frame adv]
    exact ⟨rfl, rfl, rfl, rfl, by simp [State.eager, State.pending, presentedBy]⟩

/-- A step of a barren draw leaves it barren, produces no beat and accepts no command: in the eager
form it is a rejected attempt or nothing. -/
theorem BarrenDraw.step {k : Nat} {s : State} (h : BarrenDraw (k + 1) s) :
    ∃ s', Machine.step s = .next s' ∧ BarrenDraw k s' ∧ SameCommand s s' ∧
      s'.produced = s.produced := by
  obtain ⟨s', hstep, hinv⟩ := everyStepKeepsTheInvariantAndNeverStops s h.inv
  suffices hs : s'.produced = s.produced ∧ SameCommand s s' ∧ RejectsNext k s' by
    obtain ⟨produced, same, rejects⟩ := hs
    exact ⟨s', hstep, ⟨hinv, h.free.step hstep, same.seq.trans h.seq,
      same.attempting.trans h.running, same.cfg ▸ h.uncapped, rejects⟩, same, produced⟩
  cases h.free.eagerStep hstep with
  | quiet eager produced =>
    obtain ⟨command, storage⟩ := State.same_of_eager_eq eager
    exact ⟨produced, command, h.rejects.pred.congr storage⟩
  | ahead w core eager produced =>
    obtain ⟨w', hcore, hrspq, same, hnext⟩ := h.eager_coreStep
    obtain rfl : w' = w := by simpa [core] using hcore.symm
    obtain ⟨command, storage⟩ := State.same_of_eager_eq eager.symm
    exact ⟨by simpa [hrspq] using produced, same.trans command, hnext.congr storage⟩

theorem BarrenDraw.run {k : Nat} {s : State} (h : BarrenDraw k s) :
    ∃ t, Sys2Proof.core.run k s = .next t ∧ SameCommand s t ∧ t.produced = s.produced := by
  induction k generalizing s with
  | zero => exact ⟨s, rfl, ⟨rfl, rfl, rfl, rfl, rfl⟩, rfl⟩
  | succ k ih =>
    obtain ⟨s', hstep, hbarren, same, produced⟩ := h.step
    obtain ⟨t, hrun, same', produced'⟩ := ih hbarren
    exact ⟨t, (core_run_of_next hstep).trans hrun, same.trans same', produced'.trans produced⟩

/-- Settles O38, by induction on the steps: each leaves the draw running with at most one rejected
word fewer to come.  A full RSPQ would only hold it, so its free entry is not used. -/
theorem rejectedWordsNeverEndAnUncappedDraw : Obligations.RejectedWordsNeverEndAnUncappedDraw := by
  intro k s hinv seq running noReset uncapped _ rejects
  have free : ResetFree s := ⟨by rw [seq]; nofun, noReset⟩
  have barren : BarrenDraw k s := ⟨hinv, free, seq, running, uncapped, rejects⟩
  obtain ⟨t, hrun, same, produced⟩ := barren.run
  have hseq : t.seq = .exec := same.seq.trans seq
  exact ⟨t, hrun, by simp [State.busy, hseq], hseq, produced, same.pending, same.cur⟩

end Sys2Proof.Machine
end

section
/-! PROOFS. The acceptance window under both comparisons, and that DRAW delivers nothing outside it
(spec/42_draw.md R150, R151). -/

namespace Sys2Proof.Machine

/-! ### The acceptance window -/

/-- EXACT compares unsigned integers. -/
theorem accept_exact_iff {cfg : Config} (mode : cfg.windowCompare = .exact) (z : Word) :
    accept cfg z = true ↔ cfg.lb.toNat ≤ z.toNat ∧ z.toNat ≤ cfg.ub.toNat := by
  simp [accept, mode]

/-- BINARY64 compares after conversion. -/
theorem accept_binary64_iff {cfg : Config} (mode : cfg.windowCompare = .binary64) (z : Word) :
    accept cfg z = true ↔
      (f64OfWord cfg.lb).le (f64OfWord z) = true ∧ (f64OfWord z).le (f64OfWord cfg.ub) = true := by
  simp [accept, mode]

/-- A word is no negative integer, so its conversion rounds it with the sign +. -/
theorem f64OfWord_eq_round (v : Word) :
    f64OfWord v = binary64.round false (v.toNat * fpOne) 1 := by
  have nonneg : ¬ (v.toNat : Int) < 0 := by omega
  simp only [f64OfWord, f64OfInt, Int.natAbs_natCast, decide_eq_false nonneg]

/-- The greatest word rounds to 2^64. -/
theorem round_greatest_word :
    binary64.round false ((2 ^ 64 - 1) * fpOne) 1 = .fin false (2 ^ 64 * fpOne) := by
  decide +kernel

/-- No word is past the greatest one, so every conversion is finite. -/
theorem f64OfWord_eq (v : Word) :
    f64OfWord v = .fin false (binary64.magnitude (v.toNat * fpOne) 1) := by
  have below : v.toNat * fpOne * 1 ≤ (2 ^ 64 - 1) * fpOne * 1 :=
    Nat.mul_le_mul_right _ (Nat.mul_le_mul_right _ (by omega))
  obtain ⟨finite, -⟩ := round_fin_of_le (neg := false) Nat.one_pos Nat.one_pos below
    round_greatest_word
  rw [f64OfWord_eq_round, finite]

theorem FVal.le_fin_iff {x y : Nat} :
    (FVal.fin false x).le (.fin false y) = true ↔ x ≤ y := by
  simp [FVal.le, signedMag]

theorem f64OfWord_le_iff (v w : Word) :
    (f64OfWord v).le (f64OfWord w) = true ↔
      binary64.magnitude (v.toNat * fpOne) 1 ≤ binary64.magnitude (w.toNat * fpOne) 1 := by
  rw [f64OfWord_eq, f64OfWord_eq, FVal.le_fin_iff]

/-- Conversion is monotone. -/
theorem f64OfWord_magnitude_mono {v w : Word} (h : v.toNat ≤ w.toNat) :
    binary64.magnitude (v.toNat * fpOne) 1 ≤ binary64.magnitude (w.toNat * fpOne) 1 :=
  magnitude_mono _ Nat.one_pos Nat.one_pos (Nat.mul_le_mul_right _ (Nat.mul_le_mul_right _ h))

/-- The words whose conversion reaches that of `bound` are those from the least one on. -/
theorem f64OfWord_le_iff_of_least {bound lo below : Word} (next : lo.toNat = below.toNat + 1)
    (reaches : (f64OfWord bound).le (f64OfWord lo) = true)
    (misses : (f64OfWord bound).le (f64OfWord below) = false) (z : Word) :
    (f64OfWord bound).le (f64OfWord z) = true ↔ lo.toNat ≤ z.toNat := by
  rw [← Bool.not_eq_true, f64OfWord_le_iff] at misses
  rw [f64OfWord_le_iff] at reaches ⊢
  constructor
  · intro hz
    by_contra hlt
    exact misses (hz.trans (f64OfWord_magnitude_mono (by omega)))
  · exact fun hz => reaches.trans (f64OfWord_magnitude_mono hz)

/-- The words whose conversion stays within that of `bound` are those up to the greatest one. -/
theorem f64OfWord_le_iff_of_greatest {bound hi above : Word} (next : above.toNat = hi.toNat + 1)
    (stays : (f64OfWord hi).le (f64OfWord bound) = true)
    (passes : (f64OfWord above).le (f64OfWord bound) = false) (z : Word) :
    (f64OfWord z).le (f64OfWord bound) = true ↔ z.toNat ≤ hi.toNat := by
  rw [← Bool.not_eq_true, f64OfWord_le_iff] at passes
  rw [f64OfWord_le_iff] at stays ⊢
  constructor
  · intro hz
    by_contra hlt
    exact passes ((f64OfWord_magnitude_mono (by omega)).trans hz)
  · exact fun hz => (f64OfWord_magnitude_mono hz).trans stays

/-- 10^18 - 64 is the least word that rounds to 10^18 or more. -/
theorem default_lb_le_f64OfWord_iff (z : Word) :
    (f64OfWord Config.default.lb).le (f64OfWord z) = true ↔ 10 ^ 18 - 64 ≤ z.toNat :=
  f64OfWord_le_iff_of_least (lo := BitVec.ofNat 64 (10 ^ 18 - 64))
    (below := BitVec.ofNat 64 (10 ^ 18 - 65)) (by decide) (by decide +kernel)
    (by decide +kernel) z

/-- 10^19 + 1024 is the greatest word that rounds to 10^19 or less. -/
theorem f64OfWord_le_default_ub_iff (z : Word) :
    (f64OfWord z).le (f64OfWord Config.default.ub) = true ↔ z.toNat ≤ 10 ^ 19 + 1024 :=
  f64OfWord_le_iff_of_greatest (hi := BitVec.ofNat 64 (10 ^ 19 + 1024))
    (above := BitVec.ofNat 64 (10 ^ 19 + 1025)) (by decide) (by decide +kernel)
    (by decide +kernel) z

/-- Settles O41: each comparison by its own rule, and the default bounds under both. -/
theorem acceptanceWindowIsClosedAtBothEnds : Obligations.AcceptanceWindowIsClosedAtBothEnds := by
  refine ⟨fun cfg z mode => accept_exact_iff mode z, fun cfg z mode => accept_binary64_iff mode z,
    fun z => accept_exact_iff rfl z, fun z => ?_⟩
  rw [accept_binary64_iff rfl]
  exact and_congr (default_lb_le_f64OfWord_iff z) (f64OfWord_le_default_ub_iff z)

/-! ### The beats of DRAW -/

/-- The only DATA beats of DRAW are its deliveries, each of the accepted raw word itself. -/
theorem draw_data_accepted {s t : State} {count : Word} {b : Beat}
    (run : exec (.draw count) s = .next t) (rspq : t.rspq = s.rspq ++ [b])
    (data : b.status = .data) : accept s.cfg b.data = true := by
  have how := exec_case (.draw count) s
  rw [run] at how
  cases how with
  | held => simp at rspq
  | seeded v which => simp at which
  | rawWord z t which => cases which
  | emptyDraw =>
    obtain rfl : _ = b := by simpa using rspq
    cases data
  | started => simp at rspq
  | delivered z data t which room running adv acc plain =>
    obtain rfl : _ = b := by simpa [State.deliver_of_advance adv] using rspq
    rwa [plain count rfl]
  | rejected z t which room running adv rej =>
    by_cases cap : s.cfg.retryCap = some (s.rej + 1#64)
    · obtain rfl : _ = b := by simpa [State.reject_of_advance_at_cap adv cap] using rspq
      cases data
    · rw [State.reject_of_advance adv cap, State.advance_frame adv] at rspq
      simp at rspq

/-- Settles O40: an accepted word lies in the window. -/
theorem drawNeverDeliversAWordOutsideTheWindow :
    Obligations.DrawNeverDeliversAWordOutsideTheWindow := by
  intro s t count b run rspq data
  have acc := draw_data_accepted run rspq data
  exact ⟨acc, fun mode => (accept_exact_iff mode b.data).1 acc⟩

end Sys2Proof.Machine
end

section
/-! PROOFS. Rounding and the representable magnitudes: a representable ratio is kept, bounds carry
over, and the integers, the words and the values of patterns are representable
(spec/00_scope.md R15). -/

namespace Sys2Proof.Machine

/-! ### Bounds that rounding keeps -/

theorem FpFormat.Representable.magnitude_eq {fmt : FpFormat} {mag den : Nat}
    (hrep : fmt.Representable mag) (hd : 0 < den) : fmt.magnitude (mag * den) den = mag := by
  obtain ⟨m, k, hm, -, rfl⟩ := hrep
  exact magnitude_exact fmt m k hd hm

theorem le_magnitude_of_le {fmt : FpFormat} {num den mag : Nat} (hrep : fmt.Representable mag)
    (hd : 0 < den) (h : mag * den ≤ num) : mag ≤ fmt.magnitude num den :=
  calc mag = fmt.magnitude (mag * den) den := (hrep.magnitude_eq hd).symm
    _ ≤ fmt.magnitude num den := magnitude_mono fmt hd hd (Nat.mul_le_mul_right den h)

/-- A representable magnitude stays below the overflow threshold. -/
theorem FpFormat.Representable.round_eq {fmt : FpFormat} {mag den : Nat}
    (hrep : fmt.Representable mag) (hexp : 3 ≤ fmt.maxExp) (hd : 0 < den) (neg : Bool) :
    fmt.round neg (mag * den) den = .fin neg mag := by
  have hmag := hrep.magnitude_eq hd
  obtain ⟨m, k, hm, hk, rfl⟩ := hrep
  have below : ¬ (2 ^ (fmt.fracBits + 2) - 1) * 2 ^ (fmt.maxExp - 3) * fmt.scale * den ≤
      m * 2 ^ k * fmt.scale * den := by
    refine Nat.not_le.2 (Nat.mul_lt_mul_of_pos_right (Nat.mul_lt_mul_of_pos_right ?_
      (scale_pos fmt)) hd)
    calc m * 2 ^ k ≤ m * 2 ^ (fmt.maxExp - 3 + 1) :=
          Nat.mul_le_mul_left m (Nat.pow_le_pow_right (by decide) (by omega))
      _ = m * 2 * 2 ^ (fmt.maxExp - 3) := by ring
      _ < (2 ^ (fmt.fracBits + 2) - 1) * 2 ^ (fmt.maxExp - 3) := by
          refine Nat.mul_lt_mul_of_pos_right ?_ (Nat.two_pow_pos _)
          rw [Nat.pow_succ] at hm ⊢
          omega
  rw [← overflow_iff hd (Nat.sub_add_cancel hexp).symm, Nat.not_le] at below
  rw [Machine.round_eq, if_pos below]
  exact congrArg (FVal.fin neg) hmag

/-- A ratio up to a representable magnitude rounds to a finite value, no larger. -/
theorem round_of_le_representable {fmt : FpFormat} {num den mag : Nat}
    (hrep : fmt.Representable mag) (hexp : 3 ≤ fmt.maxExp) (hd : 0 < den) (neg : Bool)
    (h : num ≤ mag * den) :
    fmt.round neg num den = .fin neg (fmt.magnitude num den) ∧ fmt.magnitude num den ≤ mag :=
  round_fin_of_le hd hd (Nat.mul_le_mul_right den h) (hrep.round_eq hexp hd neg)

/-- What rounding gives is representable, if it is finite. -/
theorem representable_of_round {fmt : FpFormat} {neg neg' : Bool} {num den mag : Nat}
    (hexp : 1 < fmt.maxExp) (hd : 0 < den) (h : fmt.round neg num den = .fin neg' mag) :
    fmt.Representable mag := by
  obtain ⟨-, rfl⟩ := round_fin_inv h
  have notInf := mt (round_eq_inf_iff (neg := neg)).2 (by rw [h]; exact FVal.noConfusion)
  exact magnitude_representable hd hexp (Nat.not_le.1 notInf)

/-! ### Representable magnitudes -/

theorem three_le_maxExp64 : 3 ≤ binary64.maxExp := by decide

theorem three_le_maxExp32 : 3 ≤ binary32.maxExp := by decide

theorem representable_zero {fmt : FpFormat} (hexp : 1 < fmt.maxExp) : fmt.Representable 0 :=
  ⟨0, 0, Nat.two_pow_pos _, by omega, by simp⟩

theorem magnitude_zero (fmt : FpFormat) {den : Nat} (hd : 0 < den) : fmt.magnitude 0 den = 0 := by
  simpa using magnitude_exact fmt 0 0 hd (Nat.two_pow_pos _)

/-- An integer of at most 53 significant bits, in the range of a word, is a value of binary64. -/
theorem representable_scaled_integer {m k : Nat} (hm : m < 2 ^ 53) (hk : k ≤ 64) :
    binary64.Representable (m * 2 ^ k * fpOne) := by
  refine ⟨m, k + 1074, hm, ?_, ?_⟩
  · have : binary64.maxExp = 2047 := by decide
    omega
  · rw [scale_binary64, fpOne_eq, Nat.pow_add, Nat.mul_one, Nat.mul_assoc]

theorem representable_integer {n : Nat} (hn : n < 2 ^ 53) : binary64.Representable (n * fpOne) := by
  simpa using representable_scaled_integer (k := 0) hn (by decide)

theorem representable_fpOne : binary64.Representable fpOne := by
  simpa using representable_integer (n := 1) (by decide)

/-- The magnitude of the finite value of a pattern is representable. -/
theorem representable_of_unpack {fmt : FpFormat} {pattern mag : Nat} {neg : Bool}
    (hexp : 1 < fmt.maxExp) (h : fmt.unpack pattern = .fin neg mag) : fmt.Representable mag := by
  have hfrac : pattern % 2 ^ fmt.fracBits < 2 ^ fmt.fracBits := Nat.mod_lt _ (Nat.two_pow_pos _)
  have hfield : pattern / 2 ^ fmt.fracBits % 2 ^ fmt.expBits < 2 ^ fmt.expBits :=
    Nat.mod_lt _ (Nat.two_pow_pos _)
  have hmax : fmt.maxExp = 2 ^ fmt.expBits - 1 := rfl
  unfold FpFormat.unpack at h
  dsimp only at h
  split at h
  · split at h <;> cases h
  · split at h
    · cases h
      exact ⟨pattern % 2 ^ fmt.fracBits, 0, by rw [Nat.pow_succ]; omega, by omega, by ring⟩
    · cases h
      exact ⟨_, _, by rw [Nat.pow_succ]; omega, by omega, rfl⟩

/-- Widening is exact: every binary32 magnitude is a binary64 one. -/
theorem FpFormat.Representable.widen {mag : Nat} (h : binary32.Representable mag) :
    binary64.Representable mag := by
  obtain ⟨m, k, hm, hk, hmag⟩ := h
  have hunit : 1074 - binary32.unitExp = 925 := by decide
  have hmax32 : binary32.maxExp = 255 := by decide
  have hmax64 : binary64.maxExp = 2047 := by decide
  refine ⟨m, k + 925, hm.trans (by decide), by omega, ?_⟩
  rw [hmag, FpFormat.scale, hunit, scale_binary64, Nat.pow_add, Nat.mul_one, Nat.mul_assoc]

/-- 1.0 is 2^53 spacings of the binade below it, which is far from the top one. -/
theorem fpOne_eq_spacings : ∃ e, e + 64 < binary64.maxExp ∧ fpOne = 2 ^ 53 * 2 ^ e :=
  ⟨1021, by decide, by rw [fpOne_eq, ← Nat.pow_add]⟩

/-- A binary64 magnitude below 1.0 is at most 1.0 less one spacing, which is 2^-53. -/
theorem representable_below_fpOne {mag : Nat} (hrep : binary64.Representable mag)
    (h : mag < fpOne) : mag * 2 ^ 53 + fpOne ≤ fpOne * 2 ^ 53 := by
  obtain ⟨e, -, hone⟩ := fpOne_eq_spacings
  suffices hspacing : mag + 2 ^ e ≤ 2 ^ 53 * 2 ^ e by omega
  rcases representable_in_spacing hrep e with ⟨j, rfl⟩ | ⟨-, hlow⟩
  · rw [scale_binary64, Nat.mul_one] at h ⊢
    have hj : j < 2 ^ 53 := Nat.lt_of_mul_lt_mul_right (hone ▸ h)
    rw [← Nat.succ_mul]
    exact Nat.mul_le_mul_right _ hj
  · have hfrac : binary64.fracBits = 52 := rfl
    rw [scale_binary64, hfrac] at hlow
    omega

end Sys2Proof.Machine
end

section
/-! PROOFS. The normalization fraction (spec/43_normalize.md R170, R171, R178). -/

namespace Sys2Proof.Machine

/-! ### Words in binary64 -/

theorem f64OfWord_representable (v : Word) :
    binary64.Representable (binary64.magnitude (v.toNat * fpOne) 1) :=
  representable_of_round (by decide) Nat.one_pos (f64OfWord_eq_round v ▸ f64OfWord_eq v)

theorem f64OfWord_magnitude_le (v : Word) :
    binary64.magnitude (v.toNat * fpOne) 1 ≤ 2 ^ 64 * fpOne := by
  have hrep : binary64.Representable (2 ^ 64 * fpOne) := by
    simpa using representable_scaled_integer (m := 1) (k := 64) (by decide) (by decide)
  refine (round_of_le_representable hrep three_le_maxExp64 Nat.one_pos false ?_).2
  rw [Nat.mul_one]
  exact Nat.mul_le_mul_right _ v.isLt.le

/-- A word other than 0 is at least 1.0. -/
theorem fpOne_le_f64OfWord {v : Word} (h : v ≠ 0#64) :
    fpOne ≤ binary64.magnitude (v.toNat * fpOne) 1 := by
  have hpos : 1 ≤ v.toNat := Nat.pos_of_ne_zero fun h0 => h (BitVec.eq_of_toNat_eq h0)
  refine le_magnitude_of_le representable_fpOne Nat.one_pos ?_
  rw [Nat.mul_one]
  exact Nat.le_mul_of_pos_left fpOne hpos

/-- A difference that is not negative is rounded once, with the sign +. -/
theorem FVal.sub_fin_of_le {x y : Nat} (hrep : binary64.Representable x) (h : y ≤ x) :
    (FVal.fin false x).sub (.fin false y) = .fin false (binary64.magnitude (x - y) 1) := by
  have hsum : signedMag false x + signedMag true y = ((x - y : Nat) : Int) := by
    simp only [signedMag, if_true, Bool.false_eq_true, if_false]
    omega
  have hround := (round_of_le_representable (num := x - y) hrep three_le_maxExp64 Nat.one_pos
    false (by omega)).1
  simp only [FVal.sub, FVal.neg, Bool.not_false, FVal.add, hsum]
  split
  case isTrue hzero =>
    have hdiff : x - y = 0 := by omega
    rw [hdiff, magnitude_zero _ Nat.one_pos, Bool.false_and]
  case isFalse =>
    rw [decide_eq_false (by omega), Int.natAbs_natCast, hround]

/-! ### The dividend and the divisor -/

/-- What R170's dividend rounds: the word's distance from LB, exact under EXACT, between the
converted words under BINARY64. -/
def normDistance (cfg : Config) (z : Word) : Nat :=
  match cfg.windowCompare with
  | .exact => (z - cfg.lb).toNat * fpOne
  | .binary64 =>
    binary64.magnitude (z.toNat * fpOne) 1 - binary64.magnitude (cfg.lb.toNat * fpOne) 1

theorem normDistance_exact {cfg : Config} (mode : cfg.windowCompare = .exact) (z : Word) :
    normDistance cfg z = (z - cfg.lb).toNat * fpOne := by
  simp only [normDistance, mode]

theorem normDistance_binary64 {cfg : Config} (mode : cfg.windowCompare = .binary64) (z : Word) :
    normDistance cfg z =
      binary64.magnitude (z.toNat * fpOne) 1 - binary64.magnitude (cfg.lb.toNat * fpOne) 1 := by
  simp only [normDistance, mode]

/-- The dividend's magnitude, of an accepted word; UB's is the divisor's. -/
def normMag (cfg : Config) (z : Word) : Nat := binary64.magnitude (normDistance cfg z) 1

theorem normMag_exact {cfg : Config} (mode : cfg.windowCompare = .exact) (z : Word) :
    normMag cfg z = binary64.magnitude ((z - cfg.lb).toNat * fpOne) 1 := by
  rw [normMag, normDistance_exact mode]

theorem normMag_binary64 {cfg : Config} (mode : cfg.windowCompare = .binary64) (z : Word) :
    normMag cfg z = binary64.magnitude (binary64.magnitude (z.toNat * fpOne) 1 -
      binary64.magnitude (cfg.lb.toNat * fpOne) 1) 1 := by
  rw [normMag, normDistance_binary64 mode]

/-- The divisor is the dividend of the word UB. -/
theorem normDen_eq (cfg : Config) : normDen cfg = normNum cfg cfg.ub := rfl

theorem accept_binary64_iff_magnitude {cfg : Config} (mode : cfg.windowCompare = .binary64)
    (z : Word) : accept cfg z = true ↔
      binary64.magnitude (cfg.lb.toNat * fpOne) 1 ≤ binary64.magnitude (z.toNat * fpOne) 1 ∧
      binary64.magnitude (z.toNat * fpOne) 1 ≤ binary64.magnitude (cfg.ub.toNat * fpOne) 1 := by
  rw [accept_binary64_iff mode, f64OfWord_le_iff, f64OfWord_le_iff]

/-- A window that holds a word holds UB. -/
theorem accept_ub_of_accept {cfg : Config} {z : Word} (acc : accept cfg z = true) :
    accept cfg cfg.ub = true := by
  cases mode : cfg.windowCompare with
  | exact =>
    rw [accept_exact_iff mode] at acc ⊢
    omega
  | binary64 =>
    rw [accept_binary64_iff_magnitude mode] at acc ⊢
    exact ⟨acc.1.trans acc.2, le_rfl⟩

theorem normNum_of_accept {cfg : Config} {z : Word} (acc : accept cfg z = true) :
    normNum cfg z = .fin false (normMag cfg z) := by
  cases mode : cfg.windowCompare with
  | exact => simp only [normNum, mode, f64OfWord_eq, normMag_exact mode]
  | binary64 =>
    have hle := ((accept_binary64_iff_magnitude mode z).1 acc).1
    simp only [normNum, mode, f64OfWord_eq, normMag_binary64 mode]
    exact FVal.sub_fin_of_le (f64OfWord_representable z) hle

/-- Under EXACT the subtraction of an accepted word does not wrap. -/
theorem toNat_sub_lb_of_accept {cfg : Config} {z : Word} (mode : cfg.windowCompare = .exact)
    (acc : accept cfg z = true) : (z - cfg.lb).toNat = z.toNat - cfg.lb.toNat :=
  BitVec.toNat_sub_of_le ((accept_exact_iff mode z).1 acc).1

theorem normDistance_mono {cfg : Config} {z z' : Word} (acc : accept cfg z = true)
    (acc' : accept cfg z' = true) (h : z.toNat ≤ z'.toNat) :
    normDistance cfg z ≤ normDistance cfg z' := by
  cases mode : cfg.windowCompare with
  | exact =>
    rw [normDistance_exact mode, normDistance_exact mode, toNat_sub_lb_of_accept mode acc,
      toNat_sub_lb_of_accept mode acc']
    exact Nat.mul_le_mul_right _ (by omega)
  | binary64 =>
    rw [normDistance_binary64 mode, normDistance_binary64 mode]
    exact Nat.sub_le_sub_right (f64OfWord_magnitude_mono h) _

/-- Under BINARY64 an accepted word may be past UB, but its conversion is not. -/
theorem normDistance_le_ub {cfg : Config} {z : Word} (acc : accept cfg z = true) :
    normDistance cfg z ≤ normDistance cfg cfg.ub := by
  cases mode : cfg.windowCompare with
  | exact =>
    exact normDistance_mono acc (accept_ub_of_accept acc) ((accept_exact_iff mode z).1 acc).2
  | binary64 =>
    rw [normDistance_binary64 mode, normDistance_binary64 mode]
    exact Nat.sub_le_sub_right ((accept_binary64_iff_magnitude mode z).1 acc).2 _

/-! ### The fraction -/

theorem normMag_mono {cfg : Config} {z z' : Word} (acc : accept cfg z = true)
    (acc' : accept cfg z' = true) (h : z.toNat ≤ z'.toNat) : normMag cfg z ≤ normMag cfg z' :=
  magnitude_mono _ Nat.one_pos Nat.one_pos
    (Nat.mul_le_mul_right 1 (normDistance_mono acc acc' h))

theorem normMag_le_ub {cfg : Config} {z : Word} (acc : accept cfg z = true) :
    normMag cfg z ≤ normMag cfg cfg.ub :=
  magnitude_mono _ Nat.one_pos Nat.one_pos (Nat.mul_le_mul_right 1 (normDistance_le_ub acc))

theorem normFrac_of_accept {cfg : Config} {z : Word} (acc : accept cfg z = true) :
    normFrac cfg z = if normMag cfg cfg.ub = 0 then .fin false 0
      else binary64.round false (normMag cfg z * fpOne) (normMag cfg cfg.ub) := by
  rw [normFrac, normDen_eq, normNum_of_accept acc, normNum_of_accept (accept_ub_of_accept acc)]
  by_cases hden : normMag cfg cfg.ub = 0
  · simp [FVal.isZero, hden]
  · simp [FVal.isZero, FVal.div, hden]

/-- The magnitude of the fraction of an accepted word. -/
def fracMag (cfg : Config) (z : Word) : Nat :=
  if normMag cfg cfg.ub = 0 then 0
  else binary64.magnitude (normMag cfg z * fpOne) (normMag cfg cfg.ub)

/-- The fraction of an accepted word is a value of binary64 between 0 and 1, because the dividend is
at most the divisor. -/
theorem normFrac_spec {cfg : Config} {z : Word} (acc : accept cfg z = true) :
    normFrac cfg z = .fin false (fracMag cfg z) ∧ fracMag cfg z ≤ fpOne ∧
      binary64.Representable (fracMag cfg z) := by
  rw [normFrac_of_accept acc, fracMag]
  by_cases hden : normMag cfg cfg.ub = 0
  · rw [if_pos hden, if_pos hden]
    exact ⟨rfl, Nat.zero_le _, representable_zero (by decide)⟩
  · rw [if_neg hden, if_neg hden]
    have hratio : normMag cfg z * fpOne ≤ fpOne * normMag cfg cfg.ub := by
      rw [Nat.mul_comm fpOne]
      exact Nat.mul_le_mul_right _ (normMag_le_ub acc)
    have hpos := Nat.pos_of_ne_zero hden
    obtain ⟨hround, hle⟩ :=
      round_of_le_representable representable_fpOne three_le_maxExp64 hpos false hratio
    exact ⟨hround, hle, representable_of_round (by decide) hpos hround⟩

theorem fracMag_mono {cfg : Config} {z z' : Word} (acc : accept cfg z = true)
    (acc' : accept cfg z' = true) (h : z.toNat ≤ z'.toNat) : fracMag cfg z ≤ fracMag cfg z' := by
  unfold fracMag
  by_cases hden : normMag cfg cfg.ub = 0
  · rw [if_pos hden, if_pos hden]
  · have hpos := Nat.pos_of_ne_zero hden
    rw [if_neg hden, if_neg hden]
    exact magnitude_mono _ hpos hpos (Nat.mul_le_mul_right _
      (Nat.mul_le_mul_right _ (normMag_mono acc acc' h)))

theorem normFrac_eq_fin_iff {cfg : Config} {z : Word} (acc : accept cfg z = true) {mag : Nat} :
    normFrac cfg z = .fin false mag ↔ fracMag cfg z = mag := by
  rw [(normFrac_spec acc).1, FVal.fin.injEq, and_iff_right rfl]

/-- Under EXACT another word than LB has a dividend of at least 1.0, and no divisor is so large that
the fraction underflows. -/
theorem fracMag_eq_zero_iff {cfg : Config} {z : Word} (mode : cfg.windowCompare = .exact)
    (acc : accept cfg z = true) : fracMag cfg z = 0 ↔ z = cfg.lb := by
  constructor
  · intro hzero
    by_contra hne
    have hnum : fpOne ≤ normMag cfg z := by
      rw [normMag_exact mode]
      exact fpOne_le_f64OfWord fun h0 => hne (by bv_omega)
    have hden : normMag cfg cfg.ub ≤ 2 ^ 64 * fpOne := by
      rw [normMag_exact mode]
      exact f64OfWord_magnitude_le _
    have hpos : 0 < normMag cfg cfg.ub :=
      lt_of_lt_of_le fpOne_pos (hnum.trans (normMag_le_ub acc))
    have hbig : 2 ^ 64 ≤ fpOne :=
      (Nat.pow_le_pow_right Nat.two_pos (by decide)).trans_eq fpOne_eq.symm
    have hunit : binary64.Representable 1 := ⟨1, 0, by decide, by decide, by decide⟩
    have hlow := le_magnitude_of_le (num := normMag cfg z * fpOne) hunit hpos (by
      calc 1 * normMag cfg cfg.ub ≤ 2 ^ 64 * fpOne := by rw [Nat.one_mul]; exact hden
        _ ≤ fpOne * fpOne := Nat.mul_le_mul_right _ hbig
        _ ≤ normMag cfg z * fpOne := Nat.mul_le_mul_right _ hnum)
    rw [fracMag, if_neg hpos.ne'] at hzero
    omega
  · rintro rfl
    have hnum : normMag cfg cfg.lb = 0 := by
      rw [normMag_exact mode, BitVec.sub_self]
      simpa using magnitude_zero _ Nat.one_pos
    rw [fracMag, hnum, Nat.zero_mul]
    split
    · rfl
    · exact magnitude_zero _ (by omega)

/-! ### The default window -/

/-- UB - 512 has the fraction 1: its distance from LB is rounded up to UB's. -/
theorem normFrac_default_least_one :
    normFrac Config.default (BitVec.ofNat 64 (10 ^ 19 - 512)) = .fin false fpOne := by
  decide +kernel

/-- The word below UB - 512 has a fraction below 1. -/
theorem normFrac_default_last_below_one :
    normFrac Config.default (BitVec.ofNat 64 (10 ^ 19 - 513)) = .fin false (fpOne - 2 ^ 1021) := by
  decide +kernel

/-- With the defaults, by monotonicity from the two words at UB - 512. -/
theorem normFrac_default_eq_one_iff {z : Word} (acc : accept Config.default z = true) :
    normFrac Config.default z = .fin false fpOne ↔ 10 ^ 19 - 512 ≤ z.toNat := by
  have accOne : accept Config.default (BitVec.ofNat 64 (10 ^ 19 - 512)) = true := by decide
  have accBelow : accept Config.default (BitVec.ofNat 64 (10 ^ 19 - 513)) = true := by decide
  have one := (normFrac_eq_fin_iff accOne).1 normFrac_default_least_one
  have below := (normFrac_eq_fin_iff accBelow).1 normFrac_default_last_below_one
  rw [normFrac_eq_fin_iff acc]
  constructor
  · intro hz
    by_contra hlt
    have hmono := fracMag_mono acc accBelow (by rw [BitVec.toNat_ofNat]; omega)
    rw [hz, below] at hmono
    have := fpOne_pos
    have := Nat.two_pow_pos 1021
    omega
  · intro hz
    have hmono := fracMag_mono accOne acc (by rw [BitVec.toNat_ofNat]; omega)
    obtain ⟨-, hle, -⟩ := normFrac_spec acc
    omega

/-- Settles O45: the fraction of an accepted word is one rounded ratio of monotone dividends, the
last of them the divisor. -/
theorem fractionLiesInTheUnitInterval : Obligations.FractionLiesInTheUnitInterval := by
  refine ⟨fun cfg z _ acc => ?_, fun z acc => normFrac_default_eq_one_iff acc,
    fun cfg z z' mag mag' _ acc acc' hle hz hz' => ?_⟩
  · obtain ⟨heq, hone, -⟩ := normFrac_spec acc
    exact ⟨fracMag cfg z, heq, hone, fun mode => fracMag_eq_zero_iff mode acc⟩
  · rw [← (normFrac_eq_fin_iff acc).1 hz, ← (normFrac_eq_fin_iff acc').1 hz']
    exact fracMag_mono acc acc' hle

/-- The divisor of a one-word window is a zero under both comparisons. -/
theorem normDen_one_word {cfg : Config} (h : cfg.lb = cfg.ub) : normDen cfg = .fin false 0 := by
  cases mode : cfg.windowCompare with
  | exact =>
    simp only [normDen, mode, h, BitVec.sub_self, f64OfWord_eq, BitVec.toNat_ofNat, Nat.zero_mod,
      Nat.zero_mul, magnitude_zero _ Nat.one_pos]
  | binary64 =>
    simp only [normDen, mode, h, f64OfWord_eq]
    rw [FVal.sub_fin_of_le (f64OfWord_representable cfg.ub) le_rfl, Nat.sub_self,
      magnitude_zero _ Nat.one_pos]

/-- Settles O46: a divisor of zero gives +0.0. -/
theorem oneWordWindowGivesZero : Obligations.OneWordWindowGivesZero := by
  intro cfg z h
  rw [normFrac, normDen_one_word h]
  rfl

end Sys2Proof.Machine
end

section
/-! PROOFS. RDBL and RFLT: finite ranges, NaN and infinite ranges
(spec/43_normalize.md R172, R173, R176, R177, R179). -/

namespace Sys2Proof.Machine

/-! ### The product and the narrowing -/

theorem FVal.mul_fin (p q : Bool) (x y : Nat) :
    (FVal.fin p x).mul (.fin q y) = binary64.round (p ^^ q) (x * y) fpOne := rfl

theorem FVal.mul_nan (p : Bool) (x : Nat) : (FVal.fin p x).mul .nan = .nan := rfl

theorem FVal.mul_inf_of_pos {x : Nat} (h : 0 < x) (q : Bool) :
    (FVal.fin false x).mul (.inf q) = .inf q := by
  simp [FVal.mul, h.ne']

theorem FVal.zero_mul_inf (p q : Bool) : (FVal.fin p 0).mul (.inf q) = .nan := rfl

/-- A fraction between 0 and 1 of a value of binary64 is finite, on the value's side and no further
from 0. -/
theorem FVal.fraction_mul {t mag : Nat} (hrep : binary64.Representable mag) (ht : t ≤ fpOne)
    (neg : Bool) :
    (FVal.fin false t).mul (.fin neg mag) = .fin neg (binary64.magnitude (t * mag) fpOne) ∧
      binary64.magnitude (t * mag) fpOne ≤ mag := by
  rw [FVal.mul_fin, Bool.false_xor]
  refine round_of_le_representable hrep three_le_maxExp64 fpOne_pos neg ?_
  rw [Nat.mul_comm]
  exact Nat.mul_le_mul_left mag ht

theorem FVal.zero_mul_fin (neg : Bool) (mag : Nat) :
    (FVal.fin false 0).mul (.fin neg mag) = .fin neg 0 := by
  obtain ⟨hround, -⟩ := round_of_le_representable (representable_zero (by decide))
    three_le_maxExp64 fpOne_pos neg (Nat.zero_le (0 * fpOne))
  rw [FVal.mul_fin, Bool.false_xor, Nat.zero_mul, hround, magnitude_zero _ fpOne_pos]

theorem FVal.one_mul_fin {mag : Nat} (hrep : binary64.Representable mag) (neg : Bool) :
    (FVal.fin false fpOne).mul (.fin neg mag) = .fin neg mag := by
  rw [FVal.mul_fin, Bool.false_xor, Nat.mul_comm]
  exact hrep.round_eq three_le_maxExp64 fpOne_pos neg

theorem FVal.narrow32_fin (neg : Bool) (mag : Nat) :
    (FVal.fin neg mag).narrow32 = binary32.round neg mag 1 := rfl

/-- Narrowing a magnitude up to a binary32 one is finite and no larger. -/
theorem FVal.narrow32_of_le {m mag : Nat} (hrep : binary32.Representable mag) (h : m ≤ mag)
    (neg : Bool) : (FVal.fin neg m).narrow32 = .fin neg (binary32.magnitude m 1) ∧
      binary32.magnitude m 1 ≤ mag := by
  rw [FVal.narrow32_fin]
  exact round_of_le_representable hrep three_le_maxExp32 Nat.one_pos neg (by omega)

theorem FVal.narrow32_of_representable {mag : Nat} (hrep : binary32.Representable mag)
    (neg : Bool) : (FVal.fin neg mag).narrow32 = .fin neg mag := by
  have hround := hrep.round_eq three_le_maxExp32 Nat.one_pos neg
  rwa [Nat.mul_one] at hround

/-! ### Finite ranges -/

theorem normFrac_default_lb : normFrac Config.default Config.default.lb = .fin false 0 := by
  have acc : accept Config.default Config.default.lb = true := by decide
  rw [normFrac_eq_fin_iff acc, fracMag_eq_zero_iff rfl acc]

theorem normFrac_default_ub : normFrac Config.default Config.default.ub = .fin false fpOne :=
  (normFrac_default_eq_one_iff (by decide)).2 (by decide)

theorem ofBits64_representable {range : Word} {neg : Bool} {mag : Nat}
    (h : ofBits64 range = .fin neg mag) : binary64.Representable mag :=
  representable_of_unpack (by decide) h

theorem ofBits32_representable {range : Word32} {neg : Bool} {mag : Nat}
    (h : ofBits32 range = .fin neg mag) : binary32.Representable mag :=
  representable_of_unpack (by decide) h

theorem resultRdbl_default_lb {range : Word} {neg : Bool} {mag : Nat}
    (h : ofBits64 range = .fin neg mag) :
    resultRdbl Config.default range Config.default.lb = (if neg then 1#64 <<< 63 else 0#64) := by
  rw [resultRdbl, rangeDouble, h, normFrac_default_lb, FVal.zero_mul_fin]
  cases neg <;> decide

theorem resultRflt_default_lb {range : Word32} {neg : Bool} {mag : Nat}
    (h : ofBits32 range = .fin neg mag) :
    resultRflt Config.default range Config.default.lb = (if neg then 1#64 <<< 31 else 0#64) := by
  rw [resultRflt, rangeFloat, h, normFrac_default_lb, FVal.zero_mul_fin,
    FVal.narrow32_of_representable (representable_zero (by decide))]
  cases neg <;> decide +kernel

theorem resultRdbl_default_ub {range : Word} {neg : Bool} {mag : Nat}
    (h : ofBits64 range = .fin neg mag) :
    resultRdbl Config.default range Config.default.ub = range := by
  rw [resultRdbl, rangeDouble, h, normFrac_default_ub,
    FVal.one_mul_fin (ofBits64_representable h), ← h]
  exact patternOfTheValueOfAPattern.1 range _ (by rw [h]; exact FVal.noConfusion)

theorem resultRflt_default_ub {range : Word32} {neg : Bool} {mag : Nat}
    (h : ofBits32 range = .fin neg mag) :
    resultRflt Config.default range Config.default.ub = range.setWidth 64 := by
  have hrep := ofBits32_representable h
  rw [resultRflt, rangeFloat, h, normFrac_default_ub, FVal.one_mul_fin hrep.widen,
    FVal.narrow32_of_representable hrep, ← h,
    patternOfTheValueOfAPattern.2 range _ (by rw [h]; exact FVal.noConfusion), zext64]

/-- Settles O47: a fraction of the range, once or twice rounded, stays between 0 and the range; the
fractions 0 and 1 give both ends. -/
theorem rangeIsMappedFromZeroToRange : Obligations.RangeIsMappedFromZeroToRange := by
  refine ⟨fun range neg mag h => ⟨fun z acc => ?_, resultRdbl_default_lb h,
    resultRdbl_default_ub h⟩, fun range neg mag h => ⟨fun z acc => ?_, resultRflt_default_lb h,
    resultRflt_default_ub h⟩⟩
  · obtain ⟨heq, hone, -⟩ := normFrac_spec acc
    obtain ⟨hmul, hle⟩ := FVal.fraction_mul (ofBits64_representable h) hone neg
    exact ⟨_, hle, by rw [heq, h, hmul]⟩
  · have hrep := ofBits32_representable h
    obtain ⟨heq, hone, -⟩ := normFrac_spec acc
    obtain ⟨hmul, hle⟩ := FVal.fraction_mul hrep.widen hone neg
    obtain ⟨hnarrow, hle32⟩ := FVal.narrow32_of_le hrep hle neg
    exact ⟨_, hle32, by rw [heq, h, hmul, hnarrow]⟩

/-! ### NaN and infinite ranges -/

theorem FVal.bits64_nan (nan64 : Word) : FVal.nan.bits64 nan64 = nan64 := by
  rw [FVal.bits64, FpFormat.pack, BitVec.ofNat_toNat, BitVec.setWidth_eq]

theorem FVal.bits32_nan (nan32 : Word32) : FVal.nan.bits32 nan32 = nan32 := by
  rw [FVal.bits32, FpFormat.pack, BitVec.ofNat_toNat, BitVec.setWidth_eq]

/-- A NaN product is returned as NAN_RESULT, whatever made it a NaN. -/
theorem resultRdbl_of_nan {cfg : Config} {range z : Word}
    (h : (normFrac cfg z).mul (ofBits64 range) = .nan) : resultRdbl cfg range z = cfg.nan64 := by
  rw [resultRdbl, rangeDouble, h, FVal.bits64_nan]

theorem resultRflt_of_nan {cfg : Config} {range : Word32} {z : Word}
    (h : (normFrac cfg z).mul (ofBits32 range) = .nan) :
    resultRflt cfg range z = cfg.nan32.setWidth 64 := by
  rw [resultRflt, rangeFloat, h, FVal.narrow32, FVal.bits32_nan, zext64]

/-- A fraction above 0 leaves an infinite range as it is. -/
theorem resultRdbl_of_inf {cfg : Config} {range z : Word} {neg : Bool} {t : Nat}
    (hfrac : normFrac cfg z = .fin false t) (ht : 0 < t) (h : ofBits64 range = .inf neg) :
    resultRdbl cfg range z = range := by
  rw [resultRdbl, rangeDouble, hfrac, h, FVal.mul_inf_of_pos ht, ← h]
  exact patternOfTheValueOfAPattern.1 range _ (by rw [h]; exact FVal.noConfusion)

theorem resultRflt_of_inf {cfg : Config} {range : Word32} {z : Word} {neg : Bool} {t : Nat}
    (hfrac : normFrac cfg z = .fin false t) (ht : 0 < t) (h : ofBits32 range = .inf neg) :
    resultRflt cfg range z = range.setWidth 64 := by
  rw [resultRflt, rangeFloat, hfrac, h, FVal.mul_inf_of_pos ht, FVal.narrow32, ← h,
    patternOfTheValueOfAPattern.2 range _ (by rw [h]; exact FVal.noConfusion), zext64]

end Sys2Proof.Machine
end

section
/-! PROOFS. RINT: its factor range + 1, its truncated product, and where it reaches range + 1
(spec/43_normalize.md R174 to R176). -/

namespace Sys2Proof.Machine

/-! ### The factor range + 1 -/

/-- An integer of at most 53 bits is converted exactly. -/
theorem f64OfInt_eq {i : Int} (h : i.natAbs < 2 ^ 53) :
    f64OfInt i = .fin (decide (i < 0)) (i.natAbs * fpOne) := by
  have hround := (representable_integer h).round_eq three_le_maxExp64 Nat.one_pos (decide (i < 0))
  rwa [Nat.mul_one] at hround

theorem signedMag_of_int (i : Int) (n : Nat) :
    signedMag (decide (i < 0)) (i.natAbs * n) = i * n := by
  rcases lt_or_ge i 0 with hneg | hpos
  · have habs : (i.natAbs : Int) = -i := by omega
    simp [signedMag, hneg, habs]
  · have habs : (i.natAbs : Int) = i := by omega
    simp [signedMag, not_lt.2 hpos, habs]

/-- The addition of 1.0 is exact. -/
theorem f64OfInt_add_one {i : Int} (h : i.natAbs + 1 < 2 ^ 53) :
    (f64OfInt i).add (f64OfInt 1) = f64OfInt (i + 1) := by
  have hone : signedMag false fpOne = (1 : Int) * fpOne := by simp [signedMag]
  have hsum : signedMag (decide (i < 0)) (i.natAbs * fpOne) + signedMag false fpOne =
      (i + 1) * fpOne := by
    rw [signedMag_of_int, hone, Int.add_mul]
  rw [f64OfInt_one, f64OfInt_eq (by omega), FVal.add]
  simp only [hsum, Bool.and_false]
  have hpos : (0 : Int) < fpOne := Int.natCast_pos.2 fpOne_pos
  split
  case isTrue hzero =>
    have hi : i + 1 = 0 := (Int.mul_eq_zero.1 hzero).resolve_right hpos.ne'
    rw [f64OfInt_eq (by omega), hi]
    simp
  case isFalse =>
    have hsign : decide ((i + 1) * fpOne < 0) = decide (i + 1 < 0) := by
      rw [decide_eq_decide, mul_neg_iff, and_iff_left hpos, or_iff_right fun h => h.2.not_gt hpos]
    rw [f64OfInt, Int.natAbs_mul, Int.natAbs_natCast, hsign]

/-- RINT's factor, with the sign of range + 1. -/
theorem rint_factor (range : Word32) : (f64OfInt range.toInt).add (f64OfInt 1) =
    .fin (decide (range.toInt + 1 < 0)) ((range.toInt + 1).natAbs * fpOne) := by
  have hlow := BitVec.le_toInt range
  have hhigh := BitVec.toInt_lt (x := range)
  rw [f64OfInt_add_one (by omega), f64OfInt_eq (by omega)]

/-! ### The product -/

/-- The magnitude depends on the ratio alone. -/
theorem magnitude_mul_right (fmt : FpFormat) (num : Nat) {c : Nat} (hc : 0 < c) :
    fmt.magnitude (num * c) c = fmt.magnitude num 1 :=
  le_antisymm (magnitude_mono fmt hc Nat.one_pos (by rw [Nat.mul_one]))
    (magnitude_mono fmt Nat.one_pos hc (by rw [Nat.mul_one]))

/-- RINT's product of an accepted word: on the side of range + 1, at most as far from 0. -/
theorem rint_product {cfg : Config} {z : Word} (acc : accept cfg z = true) (range : Word32) :
    (normFrac cfg z).mul ((f64OfInt range.toInt).add (f64OfInt 1)) =
      .fin (decide (range.toInt + 1 < 0))
        (binary64.magnitude (fracMag cfg z * (range.toInt + 1).natAbs) 1) ∧
    binary64.magnitude (fracMag cfg z * (range.toInt + 1).natAbs) 1 ≤
      (range.toInt + 1).natAbs * fpOne := by
  have hlow := BitVec.le_toInt range
  have hhigh := BitVec.toInt_lt (x := range)
  obtain ⟨heq, hone, -⟩ := normFrac_spec acc
  have hproduct := FVal.fraction_mul
    (representable_integer (n := (range.toInt + 1).natAbs) (by omega)) hone
    (decide (range.toInt + 1 < 0))
  rwa [← Nat.mul_assoc, magnitude_mul_right _ _ fpOne_pos, ← rint_factor, ← heq] at hproduct

/-- Settles O48: a NaN and the product of 0 and an infinity are NaN, the product of a fraction above
0 and an infinity is that infinity, and RINT's factor is finite. -/
theorem nanAndInfiniteRanges : Obligations.NanAndInfiniteRanges := by
  intro cfg z mag hfrac
  have hinf : ofBits64 0x7FF0000000000000#64 = .inf false := by decide
  have hninf : ofBits64 0xFFF0000000000000#64 = .inf true := by decide
  have hinf32 : ofBits32 0x7F800000#32 = .inf false := by decide
  have hninf32 : ofBits32 0xFF800000#32 = .inf true := by decide
  refine ⟨fun range hnan => resultRdbl_of_nan (by rw [hfrac, hnan, FVal.mul_nan]),
    fun range hnan => resultRflt_of_nan (by rw [hfrac, hnan, FVal.mul_nan]), fun hpos => ?_,
    fun hzero => ?_, rfl, rfl, fun acc range => ⟨_, _, (rint_product acc range).1⟩⟩
  · exact ⟨resultRdbl_of_inf hfrac hpos hinf, resultRdbl_of_inf hfrac hpos hninf,
      resultRflt_of_inf hfrac hpos hinf32, resultRflt_of_inf hfrac hpos hninf32⟩
  · subst hzero
    exact ⟨resultRdbl_of_nan (by rw [hfrac, hinf, FVal.zero_mul_inf]),
      resultRdbl_of_nan (by rw [hfrac, hninf, FVal.zero_mul_inf]),
      resultRflt_of_nan (by rw [hfrac, hinf32, FVal.zero_mul_inf]),
      resultRflt_of_nan (by rw [hfrac, hninf32, FVal.zero_mul_inf])⟩

/-! ### The truncated product -/

/-- The integer part of a finite value in the signed 64-bit range. -/
theorem FVal.truncI64_toInt {neg : Bool} {mag : Nat} (h : mag / fpOne < 2 ^ 63) :
    (FVal.fin neg mag).truncI64.toInt = signedMag neg (mag / fpOne) := by
  have hrange : -2 ^ 63 ≤ signedMag neg (mag / fpOne) ∧ signedMag neg (mag / fpOne) < 2 ^ 63 := by
    generalize mag / fpOne = whole at *
    cases neg <;> simp only [signedMag, if_true, Bool.false_eq_true, if_false] <;> omega
  have hfits : fitsI64 (signedMag neg (mag / fpOne)) = true := by
    simpa [fitsI64] using hrange
  simp only [FVal.truncI64, FVal.integerPart?, hfits, if_true]
  exact BitVec.toInt_ofInt_eq_self (by decide) hrange.1 hrange.2

/-- RINT's result without its sign: the integer part of the product. -/
def rintMag (cfg : Config) (range : Word32) (z : Word) : Nat :=
  binary64.magnitude (fracMag cfg z * (range.toInt + 1).natAbs) 1 / fpOne

theorem rintMag_le {cfg : Config} {z : Word} (acc : accept cfg z = true) (range : Word32) :
    rintMag cfg range z ≤ (range.toInt + 1).natAbs :=
  Nat.div_le_of_le_mul ((rint_product acc range).2.trans_eq (Nat.mul_comm _ _))

theorem resultRint_toInt {cfg : Config} {z : Word} (acc : accept cfg z = true) (range : Word32) :
    (resultRint cfg range z).toInt =
      signedMag (decide (range.toInt + 1 < 0)) (rintMag cfg range z) := by
  have hlow := BitVec.le_toInt range
  have hhigh := BitVec.toInt_lt (x := range)
  have hmag := rintMag_le acc range
  rw [resultRint_eq, (rint_product acc range).1]
  exact FVal.truncI64_toInt (by unfold rintMag at hmag; omega)

theorem resultRint_toInt_of_nonneg {cfg : Config} {z : Word} {range : Word32}
    (acc : accept cfg z = true) (h : -1 ≤ range.toInt) :
    (resultRint cfg range z).toInt = rintMag cfg range z := by
  rw [resultRint_toInt acc, decide_eq_false (by omega)]
  rfl

theorem resultRint_toInt_of_neg {cfg : Config} {z : Word} {range : Word32}
    (acc : accept cfg z = true) (h : range.toInt < -1) :
    (resultRint cfg range z).toInt = -(rintMag cfg range z : Int) := by
  rw [resultRint_toInt acc, decide_eq_true (by omega)]
  rfl

/-! ### Where RINT reaches range + 1 -/

/-- The least power of two that reaches `n` is less than `2 * n`. -/
theorem exists_two_pow_between {n b : Nat} (hpos : 0 < n) (hn : n ≤ 2 ^ b) :
    ∃ c, c ≤ b ∧ n ≤ 2 ^ c ∧ 2 ^ c < 2 * n := by
  refine ⟨Nat.clog 2 n, Nat.clog_le_of_le_pow hn, Nat.le_pow_clog Nat.one_lt_two n, ?_⟩
  rcases Nat.lt_or_ge 1 n with h | h
  · have hpred := Nat.pow_pred_clog_lt_self Nat.one_lt_two h
    obtain ⟨c, hc⟩ := Nat.exists_eq_succ_of_ne_zero (Nat.clog_pos Nat.one_lt_two h).ne'
    rw [hc, Nat.pred_succ] at hpred
    rw [hc, Nat.pow_succ]
    omega
  · rw [Nat.clog_of_right_le_one h]
    omega

/-- Below the integer `n` there is a value of binary64 nearer to it than `n * 2^-52`: one spacing
below, in the binade that ends at the least power of two from `n` on. -/
theorem exists_representable_below {n : Nat} (hpos : 0 < n) (hn : n ≤ 2 ^ 53) :
    ∃ v gap, binary64.Representable v ∧ v + gap = n * fpOne ∧ 0 < gap ∧
      gap * 2 ^ 53 < 2 * (n * fpOne) := by
  obtain ⟨e, he, hone⟩ := fpOne_eq_spacings
  obtain ⟨c, hc, hle, hlt⟩ := exists_two_pow_between hpos hn
  have hsplit : 2 ^ 53 = 2 ^ (53 - c) * 2 ^ c := by rw [← Nat.pow_add, Nat.sub_add_cancel hc]
  have hcount : n * 2 ^ (53 - c) ≤ 2 ^ 53 := by
    rw [hsplit, Nat.mul_comm]
    exact Nat.mul_le_mul_left _ hle
  obtain ⟨m, hm⟩ := Nat.exists_eq_succ_of_ne_zero
    (Nat.mul_pos hpos (Nat.two_pow_pos (53 - c))).ne'
  refine ⟨m * 2 ^ (e + c), 2 ^ (e + c), ⟨m, e + c, ?_, by omega, ?_⟩, ?_, Nat.two_pow_pos _, ?_⟩
  · exact show m < 2 ^ 53 by omega
  · rw [scale_binary64, Nat.mul_one]
  · calc m * 2 ^ (e + c) + 2 ^ (e + c) = (m + 1) * 2 ^ (e + c) := by ring
      _ = n * (2 ^ (53 - c) * 2 ^ c * 2 ^ e) := by
          rw [← Nat.succ_eq_add_one, ← hm, Nat.pow_add]; ring
      _ = n * fpOne := by rw [← hsplit, hone]
  · calc 2 ^ (e + c) * 2 ^ 53 = 2 ^ c * fpOne := by rw [hone, Nat.pow_add]; ring
      _ < 2 * n * fpOne := Nat.mul_lt_mul_of_pos_right hlt fpOne_pos
      _ = 2 * (n * fpOne) := Nat.mul_assoc _ _ _

/-- A fraction below 1 of an integer is rounded to less than the integer: the product is nearer to
the value below the integer. -/
theorem magnitude_fraction_lt {t n : Nat} (hrep : binary64.Representable t) (ht : t < fpOne)
    (hpos : 0 < n) (hn : n ≤ 2 ^ 53) : binary64.magnitude (t * n) 1 < n * fpOne := by
  obtain ⟨v, gap, hv, hgap, hgap0, hnear⟩ := exists_representable_below hpos hn
  obtain ⟨hnearest, -⟩ := magnitude_nearest (t * n) Nat.one_pos hv
  have hfar : t * n * 2 ^ 53 + n * fpOne ≤ n * fpOne * 2 ^ 53 := by
    calc t * n * 2 ^ 53 + n * fpOne = n * (t * 2 ^ 53 + fpOne) := by ring
      _ ≤ n * (fpOne * 2 ^ 53) := Nat.mul_le_mul_left n (representable_below_fpOne hrep ht)
      _ = n * fpOne * 2 ^ 53 := (Nat.mul_assoc _ _ _).symm
  unfold fpDistance at hnearest
  generalize binary64.magnitude (t * n) 1 = rounded at *
  generalize t * n = product at *
  generalize n * fpOne = bound at *
  omega

theorem rintMag_of_one {cfg : Config} {z : Word} (acc : accept cfg z = true)
    (one : normFrac cfg z = .fin false fpOne) (range : Word32) :
    rintMag cfg range z = (range.toInt + 1).natAbs := by
  have hlow := BitVec.le_toInt range
  have hhigh := BitVec.toInt_lt (x := range)
  have hexact := (representable_integer (n := (range.toInt + 1).natAbs) (by omega)).magnitude_eq
    Nat.one_pos
  rw [Nat.mul_one] at hexact
  rw [rintMag, (normFrac_eq_fin_iff acc).1 one, Nat.mul_comm, hexact,
    Nat.mul_div_cancel _ fpOne_pos]

/-- For a range of at least 0 no fraction below 1 gives range + 1. -/
theorem rintMag_eq_iff {cfg : Config} {z : Word} {range : Word32} (acc : accept cfg z = true)
    (h : 0 ≤ range.toInt) :
    rintMag cfg range z = (range.toInt + 1).natAbs ↔ normFrac cfg z = .fin false fpOne := by
  refine ⟨fun heq => ?_, fun one => rintMag_of_one acc one range⟩
  have hhigh := BitVec.toInt_lt (x := range)
  obtain ⟨-, hone, hrep⟩ := normFrac_spec acc
  rw [normFrac_eq_fin_iff acc]
  by_contra hne
  have hlt := magnitude_fraction_lt hrep (lt_of_le_of_ne hone hne)
    (n := (range.toInt + 1).natAbs) (by omega) (by omega)
  rw [← Nat.div_lt_iff_lt_mul fpOne_pos, ← rintMag] at hlt
  omega

theorem resultRint_toInt_eq_iff {cfg : Config} {z : Word} {range : Word32}
    (acc : accept cfg z = true) (h : 0 ≤ range.toInt) :
    (resultRint cfg range z).toInt = range.toInt + 1 ↔ normFrac cfg z = .fin false fpOne := by
  rw [resultRint_toInt_of_nonneg acc (by omega), ← rintMag_eq_iff acc h]
  omega

/-- Settles O49: the integer part of the product is at most the factor, and reaches it for the
fraction 1 alone. -/
theorem rintStaysBetweenZeroAndRangePlusOne :
    Obligations.RintStaysBetweenZeroAndRangePlusOne := by
  intro cfg range z _ acc
  have hmag := rintMag_le acc range
  refine ⟨fun h => ?_, fun h => ?_, fun h => ?_, fun h => resultRint_toInt_eq_iff acc h⟩
  · rw [resultRint_toInt_of_nonneg acc (by omega)]
    omega
  · refine BitVec.eq_of_toInt_eq ?_
    rw [resultRint_toInt_of_nonneg acc (by omega), BitVec.toInt_zero]
    omega
  · rw [resultRint_toInt_of_neg acc h]
    omega

/-- The fraction 1 gives range + 1 on either side of 0. -/
theorem resultRint_toInt_of_one {cfg : Config} {z : Word} (acc : accept cfg z = true)
    (one : normFrac cfg z = .fin false fpOne) (range : Word32) :
    (resultRint cfg range z).toInt = range.toInt + 1 := by
  have hmag := rintMag_of_one acc one range
  rcases lt_or_ge range.toInt (-1) with hneg | hpos
  · rw [resultRint_toInt_of_neg acc hneg]
    omega
  · rw [resultRint_toInt_of_nonneg acc hpos]
    omega

/-- Settles O50: the fraction 1 gives range + 1, and with the defaults the words from UB - 512 on
have it. -/
theorem rintGivesRangePlusOneForTheTopWords :
    Obligations.RintGivesRangePlusOneForTheTopWords := by
  refine ⟨fun cfg range z acc one => resultRint_toInt_of_one acc one range, fun range z acc => ?_⟩
  have hone := normFrac_default_eq_one_iff acc
  refine ⟨hone, fun hz => resultRint_toInt_of_one acc (hone.2 hz) range, fun hrange hz => ?_⟩
  have hne : (resultRint Config.default range z).toInt ≠ range.toInt + 1 :=
    fun heq => Nat.not_le.2 hz (hone.1 ((resultRint_toInt_eq_iff acc hrange).1 heq))
  have hle := rintMag_le acc range
  rw [resultRint_toInt_of_nonneg acc (by omega)] at hne ⊢
  omega

end Sys2Proof.Machine
end

section
/-! PROOFS. The exceptions: the ILLEGAL beat of an illegal command, the commands and configurations
that report no error, and the idle machine with no command
(spec/60_exceptions.md R200, R201, R202, R214). -/

namespace Sys2Proof.Machine

/-! ### No command presented -/

/-- Settles O9: MTCORE's step while idle is the acceptance of a command, and none is there. -/
theorem idleWithoutACommandHoldsAllState : Obligations.IdleWithoutACommandHoldsAllState := by
  intro s wf turn seq chan
  rw [step_of_core wf (State.turn_eq_core turn), State.coreStep_of_idle (by simpa using seq),
    State.acceptCommand_nil (by simpa using chan)]
  rfl

/-! ### Illegal commands -/

/-- A command word outside 1 to 7 is rejected by the decoder (R74, R75). -/
theorem decode_error_of_illegal {c : Command} (h : ¬ (1 ≤ c.cw.toNat ∧ c.cw.toNat ≤ 7)) :
    ∃ r, decode c = .error r := by
  cases dec : decode c with
  | ok i => exact absurd ((decoderAcceptsExactlyTheSevenCommandWords c).1 ⟨i, dec⟩) h
  | error r => exact ⟨r, rfl⟩

/-- With a free entry in RSPQ, `raise ILLEGAL` is its one beat and the end of the command. -/
theorem State.raiseIllegal_of_room {s : State} (h : s.hasRoom = true) :
    s.raiseIllegal = .next (s.emit .illegal (zext64 s.cur.cw) true).finish :=
  State.whenRoom_of_room h _

/-- `zext_64` keeps the number a command word stands for. -/
theorem zext64_eq_ofNat (v : Word32) : zext64 v = BitVec.ofNat 64 v.toNat :=
  (BitVec.ofNat_toNat 64 v).symm

/-- Settles O7: the decoder rejects the command, so MTCORE's step raises ILLEGAL. -/
theorem illegalCommandGivesOneBeatAndChangesNothing :
    Obligations.IllegalCommandGivesOneBeatAndChangesNothing := by
  intro s wf turn seq illegal room
  obtain ⟨r, dec⟩ := decode_error_of_illegal illegal
  have hroom : s.popTurn.hasRoom = true := s.hasRoom_popTurn.trans (s.hasRoom_iff.2 room)
  rw [step_of_core wf (State.turn_eq_core turn),
    State.coreStep_of_illegal (by simpa using seq) (by simpa using dec),
    State.raiseIllegal_of_room hroom, State.popTurn_cur, zext64_eq_ofNat]
  rfl

/-! ### Commands that report no error -/

/-- From `s` to `t` RSPQ is unchanged, or one beat with the status DATA or DONE is at its tail. -/
def AddsNoErrorBeat (s t : State) : Prop :=
  t.rspq = s.rspq ∨ ∃ b, t.rspq = s.rspq ++ [b] ∧ (b.status = .data ∨ b.status = .done)

/-- The one error beat of an instruction is the UNSAT beat of a draw whose rejected word reaches
RETRY_CAP (R201). -/
theorem exec_addsNoErrorBeat_or_at_cap {i : Instr} {s t : State} (run : exec i s = .next t) :
    AddsNoErrorBeat s t ∨
      ((drawCountOf i).isSome = true ∧ s.cfg.retryCap = some (s.rej + 1#64)) := by
  have how := exec_case i s
  rw [run] at how
  cases how with
  | held | started => exact .inl (.inl rfl)
  | seeded | emptyDraw => exact .inl (.inr ⟨_, rfl, .inr rfl⟩)
  | rawWord z t which room adv =>
    rw [State.advance_frame adv]
    exact .inl (.inr ⟨_, rfl, .inl rfl⟩)
  | delivered z data t which room running adv =>
    rw [State.advance_frame adv]
    exact .inl (.inr ⟨_, State.deliver_rspq _ _, .inl rfl⟩)
  | rejected z t which room running adv =>
    by_cases cap : s.cfg.retryCap = some (s.rej + 1#64)
    · exact .inr ⟨which, cap⟩
    · rw [State.reject_of_advance adv cap, State.advance_frame adv]
      exact .inl (.inl rfl)

/-- Settles O42: SEED, SEEDDEF and NEXT are no draws, and an infinite RETRY_CAP is never reached. -/
theorem noErrorBeatWithoutARetryCap : Obligations.NoErrorBeatWithoutARetryCap := by
  intro i s t run noCap
  rcases exec_addsNoErrorBeat_or_at_cap run with beat | ⟨draw, cap⟩
  · exact beat
  · rcases noCap with uncapped | ⟨v, rfl⟩ | rfl | rfl
    · rw [uncapped] at cap
      cases cap
    all_goals cases draw

end Sys2Proof.Machine
end

section
/-! PROOFS. Runs of states alike to the host, and the reset seeding against SEEDDEF
(spec/70_reset_and_hazards.md R232). -/

namespace Sys2Proof.Machine

/-! ### Runs of states alike to the host -/

/-- States alike to the host step to states alike, where both step. -/
theorem SameToHost.step {s t s' t' : State} (h : SameToHost s t) (hs : step s = .next s')
    (ht : step t = .next t') : SameToHost s' t' := by
  have same := spillAndStaleRegistersAreNeverObserved s t h
  rw [hs, ht] at same
  rcases same with ⟨_, _, ⟨⟩, ⟨⟩, h'⟩ | ⟨_, ⟨⟩, -⟩ | ⟨_, ⟨⟩, -⟩
  exact h'

/-- Runs of one length from states alike to the host end in states alike. -/
theorem SameToHost.run {k : Nat} {s t u u' : State} (h : SameToHost s t)
    (runS : Sys2Proof.core.run k s = .next u) (runT : Sys2Proof.core.run k t = .next u') :
    SameToHost u u' := by
  induction k generalizing s t with
  | zero =>
    cases runS
    cases runT
    exact h
  | succ k ih =>
    obtain ⟨s', hs, runS'⟩ := core_run_inv runS
    obtain ⟨t', ht, runT'⟩ := core_run_inv runT
    exact ih (h.step hs ht) runS' runT'

/-! ### The reset seeding and SEEDDEF -/

/-- SEEDDEF and the reset seeding run SEEDING on one seed and leave SEQ `IDLE`, where CUR and the
counters have no meaning; they differ in SEEDDEF's beat and in what no host observes. -/
theorem State.seeded_default_sameToHost_resetSeeding (s : State) :
    SameToHost { s.seeded s.cfg.defaultSeed with rspq := [] } s.resetSeeding where
  cfg := rfl
  sv := rfl
  idx := rfl
  seq := rfl
  rspq := rfl
  chan := rfl
  turns := rfl
  taken := rfl
  cur := nofun
  counters := nofun

/-- Settles O21: an empty RSPQ has a free entry, so SEEDDEF completes, and its state without its beat
is alike to the reset state; so are the states after runs of one length. -/
theorem resetEqualsSeeddefToTheHost : Obligations.ResetEqualsSeeddefToTheHost := by
  intro s t wf empty run
  have room : s.hasRoom = true :=
    s.hasRoom_iff.2 (by rw [empty]; exact Config.wf_depth wf)
  rw [exec_seeddef_of_room room] at run
  cases run
  have same := s.seeded_default_sameToHost_resetSeeding
  refine ⟨same.sv, same.idx, same, fun k u u' runT runReset => ?_⟩
  have after : SameToHost u u' := same.run runT runReset
  exact ⟨after.taken, after.rspq⟩

end Sys2Proof.Machine
end
